-- ==== Sys2Proof/Word.lean ====
section
/-! DEFINITION. The words of the engine (00_scope.md R7, R9): every value is an unsigned bit
vector, the data path is 8 bits wide and a line carries one bit. -/

namespace Sys2Proof

/-- A level of a line: one bit, 0 = low, 1 = high (00_scope.md R7, R9). -/
abbrev Level := BitVec 1

/-- Half of a byte (00_scope.md R13). -/
abbrev Nibble := BitVec 4

/-- The data path width, 8 bits (00_scope.md R8 `DATA_W`). -/
abbrev Byte := BitVec 8

/-- A line frame, 16 bits (00_scope.md R8 `FRAME_BITS`); also the width of a table delay. -/
abbrev Half := BitVec 16

/-- The width of the receive timeout and of the timebase (00_scope.md R8 `TIMEOUT_W`). -/
abbrev Word := BitVec 32

/-- The 10-bit micro-operation word `M[9:0]` (30_encoding.md R94). -/
abbrev MicroWord := BitVec 10

/-- A host register address (00_scope.md R8 `HOST_ADDR_W`). -/
abbrev HostAddr := BitVec 4

end Sys2Proof
end

