-- ==== Sys2Proof/Config.lean ====
section
/-! DEFINITION. The parameters of 00_scope.md R8 and the free values: what an implementation or
another agent fixes and the spec leaves open. An `opaque` constant here has no body that a proof
could read, so a claim that goes through is true whatever its value. -/

namespace Sys2Proof

/-- One entry of the configuration table (00_scope.md R12): two command bytes, opaque to the engine,
and the minimum time in microseconds to wait after its frame. -/
structure CfgEntry where
  cmd1 : Byte
  cmd2 : Byte
  delayAfterUs : Half
deriving DecidableEq, Repr

/-- The fields of the status word as 43_status_reader.md R184 lists them, without positions. -/
inductive StatusField
  | fifoLimitReached | fifoOverflow | wakeTimerOverflow | lowBattery | fifoEmpty | signalStrength
  | dataQuality | clockRecoveryLock
  | afcToggle | afcStabilized | afcSign | afcOffset
deriving DecidableEq, Repr

namespace Config

/-- `IRQ_ACTIVE_LEVEL` (00_scope.md R8): the ready line is active low. Log entry 11. -/
def irqActiveLevel : Level := 0

/-- `N_CFG` is at most this (00_scope.md R8: OPEN, 0..255). -/
def maxCfg : Nat := 255

/-- `CFG_TABLE` (00_scope.md R8, R12: OPEN): the integrator's table. Its first 255 entries are the
ones a build can hold. Log entry 10. -/
opaque cfgTable : List CfgEntry

/-- `PULLUP_SDO` (10_state.md R22: OPEN, no effect on any rule). Log entry 14. -/
opaque pullupSdo : Bool

/-- `PULLUP_SDI` (10_state.md R22: OPEN, no effect on any rule). Log entry 14. -/
opaque pullupSdi : Bool

/-- `CLK_HZ` (00_scope.md R8: OPEN, no rule depends on it). Log entry 14. -/
opaque clkHz : Nat

/-- `SW_LAYOUT` (00_scope.md R8, 43_status_reader.md R184: OPEN, no rule reads a field): the bits of
`S[15:0]` that hold a field. Log entry 14. -/
opaque swLayout : StatusField → List (Fin 16)

/-- Free value: the level of `SDI` at the n-th freely drawn sample (93_implementation_defined.md U1). -/
opaque freeSdi : Nat → Level

/-- Free value: the level of `IRQ` at the n-th freely drawn poll sample (U2). -/
opaque freeIrq : Nat → Level

/-- Free value: the levels (`IRQ`, `SDI`) at the n-th freely drawn read of LINES (U6). -/
opaque freeLines : Nat → BitVec 2

/-- Free value: the byte the n-th read of a result register draws while an operation runs (U5). -/
opaque freeBusyRead : Nat → Byte

/-- Free value: the milliseconds that pass before the n-th freely timed step (U3, U25). -/
opaque freeTicks : Nat → Nat

/-- Free value: how many times the n-th poll may find its timeout not yet expired
(42_packet_receiver.md R162 (c): finitely often, with no bound). -/
opaque freePatience : Nat → Nat

/-- Free value: how many host accesses may fall before the n-th sequencer step (20_memory.md R79). -/
opaque freeTurns : Nat → Nat

end Config

end Sys2Proof
end

