-- ==== Sys2Proof/Syntax.lean ====
section
/-! DEFINITION. The instructions (spec/opcode_table.json: four host operations, four
micro-operations), the host's accesses and the pseudo-instructions of 30_encoding.md R102. -/

namespace Sys2Proof

/-- One constructor per row of spec/opcode_table.json (30_encoding.md R92, R94). -/
inductive Instr
  /-- SEND_COMMAND, OP code 0x01: send the frame CMD1 ++ CMD2 (41_command.md R142). -/
  | sendCommand
  /-- RECEIVE_PACKET, OP code 0x02: poll `IRQ`, read and check a packet (42_packet_receiver.md R160). -/
  | receivePacket
  /-- READ_STATUS, OP code 0x03: read the status word (43_status_reader.md R180). -/
  | readStatus
  /-- INIT_DEFAULTS, OP code 0x04: send every table entry (41_command.md R146). -/
  | initDefaults
  /-- SEND_BIT b, MCODE 0b00 (40_codec.md R120). -/
  | sendBit (b : Level)
  /-- READ_BIT, MCODE 0b01 (40_codec.md R121). -/
  | readBit
  /-- SEND_BYTE v, MCODE 0b10 (40_codec.md R122). -/
  | sendByte (v : Byte)
  /-- READ_BYTE, MCODE 0b11 (40_codec.md R123). -/
  | readByte
deriving DecidableEq, Repr

/-- An instruction as the hardware holds it: the byte written to OP (30_encoding.md R90) or a
micro-operation word (R94). The two never share a decoder, so the kind is part of the code. -/
inductive Code
  | op (v : Byte)
  | micro (w : MicroWord)
deriving DecidableEq, Repr

/-- The sixteen slots of the host register map (10_state.md R23). -/
inductive HostReg
  | op | status | result | cmd1 | cmd2 | reserved5 | pkt0 | pkt1
  | timeout0 | timeout1 | timeout2 | timeout3 | sw0 | sw1 | lines | reservedF
deriving DecidableEq, Repr

/-- What the outside world does at the engine's inputs: one-byte host accesses (20_memory.md R66,
R67), the WAIT_IDLE loop of 30_encoding.md R102, and the reset input (70_reset_and_hazards.md R230). -/
inductive Input
  /-- `RD a`: `HostRead(a)`. -/
  | read (a : HostAddr)
  /-- `WR a, v`: `HostWrite(a, v)`. -/
  | write (a : HostAddr) (v : Byte)
  /-- `WAIT_IDLE`: read STATUS until bit 0 of the value read is 0. -/
  | waitIdle
  /-- The reset input is asserted and released. -/
  | reset
deriving DecidableEq, Repr

/-- The pseudo-instructions a host program is written in (30_encoding.md R102). -/
inductive Pseudo
  | wr (r : HostReg) (v : Byte)
  | rd (r : HostReg)
  | sendCommand (c1 c2 : Byte)
  | receivePacket (t : Word)
  | readStatus
  | initDefaults
  | waitIdle
  | clrErr
deriving DecidableEq, Repr

end Sys2Proof
end

