-- ==== Sys2Proof/WellFormed.lean ====
section
/-! DEFINITION. What a well-formed code word and a well-formed configuration table are. An
instruction needs no check of its own: the operand types of `Instr` are exactly the fields its
encoding has room for (one bit for SEND_BIT, eight for SEND_BYTE). -/

namespace Sys2Proof

/-- The OP byte is one of the four operation codes (30_encoding.md R92, R93). -/
def opCodeOk (v : Byte) : Bool := 1 ≤ v.toNat && v.toNat ≤ 4

/-- The bits of MOPND that 30_encoding.md R94 marks as zero are zero: bits 7:1 for SEND_BIT, all of
them for READ_BIT and READ_BYTE, none for SEND_BYTE. -/
def mopndOk (w : MicroWord) : Bool :=
  match (w.extractLsb' 8 2).toNat with
  | 0 => w.extractLsb' 1 7 == 0
  | 2 => true
  | _ => w.extractLsb' 0 8 == 0

/-- A code word that stands for an instruction. -/
def Code.wf : Code → Bool
  | .op v => opCodeOk v
  | .micro w => mopndOk w

/-- A table a build can hold: N_CFG in 0..255 (00_scope.md R8). -/
def cfgTableOk (t : List CfgEntry) : Bool := t.length ≤ Config.maxCfg

end Sys2Proof
end

