-- ==== Sys2Proof/Decode.lean ====
section
/-! DEFINITION. Decoding and encoding (30_encoding.md R90 to R94, R101), the register map's
addresses (10_state.md R23) and the expansions of the pseudo-instructions (30_encoding.md R102). -/

namespace Sys2Proof

/-- A row of the opcode table: the word matches when it equals `pattern` under `mask`. -/
structure OpRow (n : Nat) where
  mnemonic : String
  mask : BitVec n
  pattern : BitVec n
deriving DecidableEq, Repr

/-- The word is one of the row's. -/
def OpRow.matches {n : Nat} (r : OpRow n) (w : BitVec n) : Bool := w &&& r.mask == r.pattern

def rowSendCommand : OpRow 8 := ⟨"SEND_COMMAND", 0xFF, 0x01⟩
def rowReceivePacket : OpRow 8 := ⟨"RECEIVE_PACKET", 0xFF, 0x02⟩
def rowReadStatus : OpRow 8 := ⟨"READ_STATUS", 0xFF, 0x03⟩
def rowInitDefaults : OpRow 8 := ⟨"INIT_DEFAULTS", 0xFF, 0x04⟩
def rowSendBit : OpRow 10 := ⟨"SEND_BIT", 0x3FE, 0x000⟩
def rowReadBit : OpRow 10 := ⟨"READ_BIT", 0x3FF, 0x100⟩
def rowSendByte : OpRow 10 := ⟨"SEND_BYTE", 0x300, 0x200⟩
def rowReadByte : OpRow 10 := ⟨"READ_BYTE", 0x3FF, 0x300⟩

/-- The OP rows of spec/opcode_table.json (30_encoding.md R92). -/
def opRows : List (OpRow 8) := [rowSendCommand, rowReceivePacket, rowReadStatus, rowInitDefaults]

/-- The micro-operation rows of spec/opcode_table.json (30_encoding.md R94). -/
def microRows : List (OpRow 10) := [rowSendBit, rowReadBit, rowSendByte, rowReadByte]

/-- The field MOPND, `M[7:0]` (30_encoding.md R94). -/
def mopnd (w : MicroWord) : Byte := w.extractLsb' 0 8

/-- Why a word is no instruction. -/
inductive DecodeError
  /-- A byte other than 0x01..0x04 (30_encoding.md R93). -/
  | illegalOp (v : Byte)
  /-- A micro-operation word with a bit set that the table marks as zero (30_encoding.md R94). -/
  | illegalMicroWord (w : MicroWord)
deriving DecidableEq, Repr

/-- What the decoder answers. -/
inductive Decoded
  | ok (i : Instr)
  | error (e : DecodeError)
deriving DecidableEq, Repr

/-- Decoding of the OP byte, total (30_encoding.md R101). -/
def decodeOp (v : Byte) : Decoded :=
  if rowSendCommand.matches v then .ok .sendCommand
  else if rowReceivePacket.matches v then .ok .receivePacket
  else if rowReadStatus.matches v then .ok .readStatus
  else if rowInitDefaults.matches v then .ok .initDefaults
  else .error (.illegalOp v)

/-- Decoding of a micro-operation word, total (30_encoding.md R94). -/
def decodeMicro (w : MicroWord) : Decoded :=
  if rowSendBit.matches w then .ok (.sendBit ((mopnd w).extractLsb' 0 1))
  else if rowReadBit.matches w then .ok .readBit
  else if rowSendByte.matches w then .ok (.sendByte (mopnd w))
  else if rowReadByte.matches w then .ok .readByte
  else .error (.illegalMicroWord w)

/-- The decoder of both kinds of code. -/
def decode : Code → Decoded
  | .op v => decodeOp v
  | .micro w => decodeMicro w

/-- The micro-operation word `MCODE ++ MOPND` (30_encoding.md R94). -/
def microWord (mcode : BitVec 2) (operand : Byte) : MicroWord := mcode ++ operand

/-- The code of an instruction (30_encoding.md R92, R94). -/
def encode : Instr → Code
  | .sendCommand => .op 0x01
  | .receivePacket => .op 0x02
  | .readStatus => .op 0x03
  | .initDefaults => .op 0x04
  | .sendBit b => .micro (microWord 0b00 (b.zeroExtend 8))
  | .readBit => .micro (microWord 0b01 0x00)
  | .sendByte v => .micro (microWord 0b10 v)
  | .readByte => .micro (microWord 0b11 0x00)

/-- The code a row of the opcode table's width stands for: 8 bits for an OP byte, 10 bits (two whole
bytes) for a micro-operation word; a wider number is no word of either kind. -/
def tableCode (nbits w : Nat) : Option Code :=
  if nbits ≤ 8 then
    if w < 2 ^ 8 then some (.op (BitVec.ofNat 8 w)) else none
  else
    if w < 2 ^ 10 then some (.micro (BitVec.ofNat 10 w)) else none

/-- The instruction the decoder reads from a row's word. -/
def decodeTableWord (nbits w : Nat) : Option Instr :=
  match tableCode nbits w with
  | none => none
  | some c =>
    match decode c with
    | .ok i => some i
    | .error _ => none

/-- The address of a register slot (10_state.md R23). -/
def HostReg.addr : HostReg → HostAddr
  | .op => 0x0 | .status => 0x1 | .result => 0x2 | .cmd1 => 0x3 | .cmd2 => 0x4
  | .reserved5 => 0x5 | .pkt0 => 0x6 | .pkt1 => 0x7 | .timeout0 => 0x8 | .timeout1 => 0x9
  | .timeout2 => 0xA | .timeout3 => 0xB | .sw0 => 0xC | .sw1 => 0xD | .lines => 0xE
  | .reservedF => 0xF

/-- The register slot an address decodes to: every address has exactly one (10_state.md R23,
20_memory.md R61). -/
def HostReg.ofAddr (a : HostAddr) : HostReg :=
  match a.toNat with
  | 0 => .op | 1 => .status | 2 => .result | 3 => .cmd1 | 4 => .cmd2 | 5 => .reserved5
  | 6 => .pkt0 | 7 => .pkt1 | 8 => .timeout0 | 9 => .timeout1 | 10 => .timeout2 | 11 => .timeout3
  | 12 => .sw0 | 13 => .sw1 | 14 => .lines | _ => .reservedF

/-- `WR <reg>, <v>` (30_encoding.md R102). -/
def wr (r : HostReg) (v : Byte) : Input := .write r.addr v

/-- `RD <reg>` (30_encoding.md R102). -/
def rd (r : HostReg) : Input := .read r.addr

/-- The expansions of 30_encoding.md R102. -/
def Pseudo.expand : Pseudo → List Input
  | .wr r v => [Sys2Proof.wr r v]
  | .rd r => [Sys2Proof.rd r]
  | .sendCommand c1 c2 => [Sys2Proof.wr .cmd1 c1, Sys2Proof.wr .cmd2 c2, Sys2Proof.wr .op 0x01]
  | .receivePacket t =>
    [Sys2Proof.wr .timeout0 (t.extractLsb' 0 8), Sys2Proof.wr .timeout1 (t.extractLsb' 8 8),
     Sys2Proof.wr .timeout2 (t.extractLsb' 16 8), Sys2Proof.wr .timeout3 (t.extractLsb' 24 8),
     Sys2Proof.wr .op 0x02]
  | .readStatus => [Sys2Proof.wr .op 0x03]
  | .initDefaults => [Sys2Proof.wr .op 0x04]
  | .waitIdle => [.waitIdle]
  | .clrErr => [Sys2Proof.wr .status 0x0C]

/-- A host program as the list of its accesses (30_encoding.md R102). -/
def assemble (p : List Pseudo) : List Input := p.flatMap Pseudo.expand

end Sys2Proof
end

