-- ==== Sys2Proof/Machine/Memory.lean ====
section
/-! DEFINITION. The configuration table space (20_memory.md R60, R63): bytes held as cells
(address, byte) in one canonical form, and the entry layout of 30_encoding.md R99. No step of the
engine writes it (R63); `Memory.write` only lays a table out. -/

namespace Sys2Proof.Machine

/-- A byte-addressed store as its cells. -/
abbrev Memory := List Host.Cell

/-- What an address with no cell reads as. Every table has a form under this convention, so it
fixes no byte of the table (log entry 10). -/
def Memory.unlisted : Byte := 0x00

/-- The byte at an address. -/
def Memory.read : Memory → Nat → Byte
  | [], _ => Memory.unlisted
  | (b, v) :: m, a => if b = a then v else Memory.read m a

/-- Every address of the store lies above `lo`, addresses rise strictly, no cell holds the byte an
unlisted address reads as. -/
def Memory.wfFrom : Nat → Memory → Bool
  | _, [] => true
  | lo, (a, v) :: m => lo ≤ a && v != Memory.unlisted && Memory.wfFrom (a + 1) m

/-- The canonical form. -/
def Memory.wf (m : Memory) : Bool := Memory.wfFrom 0 m

/-- Store a byte and keep the canonical form: the byte an unlisted address reads as removes the cell. -/
def Memory.write : Memory → Nat → Byte → Memory
  | [], a, v => if v = Memory.unlisted then [] else [(a, v)]
  | (b, u) :: m, a, v =>
    if b < a then (b, u) :: Memory.write m a v
    else
      let rest := if b = a then m else (b, u) :: m
      if v = Memory.unlisted then rest else (a, v) :: rest

/-- Lay bytes out from address `a` upwards. -/
def Memory.writeBytes (m : Memory) (a : Nat) : List Byte → Memory
  | [] => m
  | v :: vs => Memory.writeBytes (Memory.write m a v) (a + 1) vs

/-- The four bytes of an entry (30_encoding.md R99): cmd1, cmd2, delay low, delay high. -/
def entryBytes (e : CfgEntry) : List Byte :=
  [e.cmd1, e.cmd2, e.delayAfterUs.extractLsb' 0 8, e.delayAfterUs.extractLsb' 8 8]

/-- The entries a build holds: at most 255 (00_scope.md R8). -/
def builtTable (t : List CfgEntry) : List CfgEntry := t.take Config.maxCfg

/-- The table space of a table: entry k at offsets 4k .. 4k+3 (30_encoding.md R99). -/
def tableImage (t : List CfgEntry) : Memory :=
  Memory.writeBytes [] 0 ((builtTable t).flatMap entryBytes)

/-- `N_CFG` of a table, in eight bits. -/
def tableCount (t : List CfgEntry) : Byte := BitVec.ofNat 8 (builtTable t).length

end Sys2Proof.Machine
end

