-- ==== Sys2Proof/Machine/State.lean ====
section
/-! DEFINITION. The state of the engine as plain data (10_state.md): output lines, host registers,
datapath registers, the sequencer position, the configuration table and the trace; and, as data the
step reads, what the other agents of 00_scope.md R14 are about to do. -/

namespace Sys2Proof.Machine

/-- The four output lines (10_state.md R20). -/
inductive OutLine
  | sel | sck | sdo | ffs
deriving DecidableEq, Repr

/-- The two input lines (10_state.md R21). -/
inductive InLine
  | sdi | irq
deriving DecidableEq, Repr

/-- The levels of the output lines (10_state.md R20). -/
structure Lines where
  sel : Level
  sck : Level
  sdo : Level
  ffs : Level
deriving DecidableEq, Repr

/-- An entry of the trace (20_memory.md R73). -/
inductive Event
  /-- `drv(L, v)`. -/
  | drv (l : OutLine) (v : Level)
  /-- `wait(n)`: at least n microseconds. -/
  | wait (n : Nat)
  /-- `smp(L, v)`. -/
  | smp (l : InLine) (v : Level)
  /-- `begin(c)`, a marker. -/
  | opBegin (c : Byte)
  /-- `end(c)`, a marker. -/
  | opEnd (c : Byte)
deriving DecidableEq, Repr

/-- One primitive of the pseudocode, as one sequencer step performs it (10_state.md R40, 00_scope.md
R10): a `Drive`, a `WaitMin`, a `Sample`, a register write, a table read or the evaluation of a
condition. An argument is a value the pseudocode holds in a local name. Log entry 1. -/
inductive Prim
  | drive (l : OutLine) (v : Level)
  | waitMin (n : Nat)
  /-- `WaitMin(r.L_DELAY)`. -/
  | waitDelay
  /-- `r.RXBIT <- Sample(SDI)`. -/
  | sampleSdi
  /-- `lvl <- Sample(IRQ)`. -/
  | sampleIrq
  /-- `if lvl == IRQ_ACTIVE_LEVEL: break`. -/
  | ifReady (lvl : Level)
  /-- `if Expired(r.T_START, r.L_TIMEOUT): ... return`. -/
  | ifExpired
  /-- `if lck == rxck`. -/
  | ifChecksum
  /-- `if r.L_DELAY != 0`. -/
  | ifDelay
  /-- The test of `for k in 0 .. N_CFG - 1`. -/
  | cfgFor (k : Nat)
  /-- `e <- MemRead(4k, 4)`. -/
  | memRead (k : Nat)
  /-- `r.BITCNT <- 0`. -/
  | clearBitCnt
  /-- `r.BITCNT <- (r.BITCNT + 1) mod 16`. -/
  | incBitCnt
  /-- `r.TXBYTE <- v`. -/
  | setTxByte (v : Byte)
  /-- `r.ACC <- 0`. -/
  | clearAcc
  /-- `r.ACC <- (r.ACC * 2 + bit) mod 256`, the bit being the one in `r.RXBIT`. -/
  | shiftAcc
  /-- `r.BYTE1 <-` the byte READ_BYTE returned. -/
  | setByte1
  /-- `r.BYTE2 <-` the byte READ_BYTE returned. -/
  | setByte2
  /-- `r.SWBUF0 <- r.ACC`. -/
  | setSwBuf0
  /-- `r.SWBUF1 <- r.ACC`. -/
  | setSwBuf1
  /-- `r.T_START <- r.NOW_MS`. -/
  | setTStart
  /-- `x[PKT0] <- 0x00`. -/
  | zeroPkt0
  /-- `x[PKT1] <- 0x00`. -/
  | zeroPkt1
  /-- `x[PKT0] <- zext_8(label)`. -/
  | setPkt0
  /-- `x[PKT1] <- r.BYTE2`. -/
  | setPkt1
  /-- `x[RESULT] <- c`. -/
  | setResult (c : BitVec 2)
  /-- `x[SW0] <- r.SWBUF0 ; x[SW1] <- r.SWBUF1`, written together (43_status_reader.md R182). -/
  | publishStatus
  /-- `r.CFG_IDX <- k`. -/
  | setCfgIdx (k : Nat)
  /-- `r.L_CMD1 <- e.byte(0)`. -/
  | setLCmd1 (v : Byte)
  /-- `r.L_CMD2 <- e.byte(1)`. -/
  | setLCmd2 (v : Byte)
  /-- `r.L_DELAY <- e.byte(3) ++ e.byte(2)`. -/
  | setLDelay (v : Half)
deriving DecidableEq, Repr

/-- A place in the pseudocode that performs a micro-operation; the micro-operation word is formed
there from the registers (30_encoding.md R94, R100). -/
inductive CallSite
  /-- `SEND_BYTE(c1)` of FRAME, c1 in `r.L_CMD1`. -/
  | sendCmd1
  /-- `SEND_BYTE(c2)` of FRAME, c2 in `r.L_CMD2`. -/
  | sendCmd2
  /-- `SEND_BIT(r.TXBYTE[7 - j])`. -/
  | sendTxBit (j : Nat)
  /-- `READ_BIT()`. -/
  | readBit
  /-- `READ_BYTE()`. -/
  | readByte
  /-- A micro-operation word given as data. -/
  | word (w : MicroWord)
deriving DecidableEq, Repr

/-- A statement of the pseudocode. -/
inductive Stmt
  | prim (p : Prim)
  | call (c : CallSite)
  /-- `pc <- IDLE ; STATUS.DONE <- 1`, done in the step that performs the statement before it
  (10_state.md R40). -/
  | complete
deriving DecidableEq, Repr

/-- The values an outside agent supplies, in order: first those of `script`, then `hold` for ever if
it is given, else free values of Config numbered by `drawn`. A claim about every state is a claim
about every such supply. Log entry 3. -/
structure Draws (α : Type) where
  script : List α
  hold : Option α
  drawn : Nat
deriving DecidableEq, Repr

/-- A supply of which nothing is known. -/
def Draws.free {α : Type} : Draws α := ⟨[], none, 0⟩

/-- What the other agents are about to do (00_scope.md R14); the model's own fields. -/
structure Env where
  /-- Levels of `SDI` at the coming samples. -/
  sdi : Draws Level
  /-- Levels of `IRQ` at the coming poll samples. -/
  irq : Draws Level
  /-- Levels `IRQ ++ SDI` at the coming reads of LINES. -/
  linesIn : Draws (BitVec 2)
  /-- Bytes drawn by coming reads of a result register while an operation runs. -/
  busyReads : Draws Byte
  /-- Milliseconds that pass before the coming steps. -/
  ticks : Draws Nat
  /-- How often the coming polls may find the timeout not expired. -/
  patienceDraws : Draws Nat
  /-- How often the running poll may still find it not expired. -/
  patience : Nat
  /-- How many host accesses may fall before the coming sequencer steps. -/
  turnDraws : Draws Nat
  /-- How many may still fall before the next one. -/
  turnsLeft : Nat
deriving DecidableEq, Repr

/-- The stored part of the host registers (10_state.md R23 to R33): OP, LINES and the reserved slots
hold nothing, and `STATUS.BUSY` is the sequencer's (R41). -/
structure HostRegs where
  done : Level
  errIllegal : Level
  errOverlap : Level
  result : BitVec 2
  cmd1 : Byte
  cmd2 : Byte
  pkt0 : Byte
  pkt1 : Byte
  timeout0 : Byte
  timeout1 : Byte
  timeout2 : Byte
  timeout3 : Byte
  sw0 : Byte
  sw1 : Byte
deriving DecidableEq, Repr

/-- The datapath registers (10_state.md R36). -/
structure Datapath where
  curOp : Byte
  lCmd1 : Byte
  lCmd2 : Byte
  lTimeout : Word
  tStart : Word
  nowMs : Word
  txByte : Byte
  rxBit : Level
  acc : Byte
  bitCnt : Nibble
  byte1 : Byte
  byte2 : Byte
  swBuf0 : Byte
  swBuf1 : Byte
  cfgIdx : Byte
  lDelay : Half
deriving DecidableEq, Repr

/-- What a host read returned (20_memory.md R66); the model's own record of the bus. -/
structure HostReply where
  addr : HostAddr
  value : Byte
deriving DecidableEq, Repr

/-- The engine (10_state.md) and its surroundings. -/
structure State where
  lines : Lines
  x : HostRegs
  r : Datapath
  /-- The sequencer (R40): the statements of the running operation still to be performed, the next
  one first; none is `IDLE`. -/
  pc : List Stmt
  /-- The configuration table space (20_memory.md R63). -/
  cfg : Memory
  /-- `N_CFG` (00_scope.md R8). -/
  nCfg : Byte
  /-- The trace, oldest entry first (20_memory.md R73). -/
  trace : List Event
  /-- Host accesses and resets still to come, oldest first. -/
  inputs : List Input
  /-- What host reads returned, oldest first. -/
  hostLog : List HostReply
  env : Env
deriving DecidableEq, Repr

/-- Why the machine stops. Only a state that no run reaches can raise one. -/
inductive Fault
  /-- Raised by `MemRead` at an offset outside 0 .. 4·N_CFG − 1 (20_memory.md R64,
  93_implementation_defined.md U12: never made by any rule). Safe: the model stops. -/
  | cfgReadOutside (addr : Nat)
deriving DecidableEq, Repr

/-- Why the model gives an instruction no meaning. -/
inductive Refusal
  /-- Raised by an arm of `exec` whose instruction has no meaning yet. Safe: the model stops. -/
  | notModelled (mnemonic : String)
  /-- Raised by the sequencer at a micro-operation word with a bit set that 30_encoding.md R94 marks
  as zero ("a model that represents micro-operations as data should refuse such a word"). Safe: the
  model stops, and no rule builds such a word. -/
  | illegalMicroWord (w : MicroWord)
deriving DecidableEq, Repr

/-- The three outcomes of a step of this machine. -/
abbrev Result := Host.Outcome State Fault Refusal

/-- The levels reset drives (10_state.md R20, 70_reset_and_hazards.md R230). -/
def Lines.reset : Lines := ⟨1, 0, 0, 1⟩

/-- Every host register 0x00 (70_reset_and_hazards.md R232). -/
def HostRegs.reset : HostRegs :=
  { done := 0, errIllegal := 0, errOverlap := 0, result := 0, cmd1 := 0, cmd2 := 0, pkt0 := 0
    pkt1 := 0, timeout0 := 0, timeout1 := 0, timeout2 := 0, timeout3 := 0, sw0 := 0, sw1 := 0 }

/-- Every datapath register 0 (70_reset_and_hazards.md R232). -/
def Datapath.reset : Datapath :=
  { curOp := 0, lCmd1 := 0, lCmd2 := 0, lTimeout := 0, tStart := 0, nowMs := 0, txByte := 0
    rxBit := 0, acc := 0, bitCnt := 0, byte1 := 0, byte2 := 0, swBuf0 := 0, swBuf1 := 0
    cfgIdx := 0, lDelay := 0 }

/-- Surroundings of which nothing is known (log entry 16). -/
def Env.reset : Env :=
  { sdi := .free, irq := .free, linesIn := .free, busyReads := .free, ticks := .free
    patienceDraws := .free, patience := 0, turnDraws := .free, turnsLeft := 0 }

/-- The machine right after reset (70_reset_and_hazards.md R230, R232): idle, the configuration table
as built, no host access pending (log entries 2, 10, 16). -/
def State.reset : State :=
  { lines := .reset, x := .reset, r := .reset, pc := [], cfg := tableImage Config.cfgTable
    nCfg := tableCount Config.cfgTable, trace := [], inputs := [], hostLog := [], env := .reset }

end Sys2Proof.Machine
end

