-- ==== Sys2Proof/Machine/Flags.lean ====
section
/-! DEFINITION. The flags (10_state.md R43): STATUS and RESULT as the host reads them, the
write-1-to-clear of STATUS and the raising of an error flag. -/

namespace Sys2Proof.Machine

/-- The two sticky error flags (60_exceptions.md R201). -/
inductive ErrFlag
  | illegal | overlap
deriving DecidableEq, Repr

/-- `STATUS.BUSY = 1` as a Boolean: `pc ≠ IDLE` (10_state.md R41). -/
def State.busy (s : State) : Bool := !s.pc.isEmpty

/-- The bit `BUSY` (10_state.md R25). -/
def State.busyBit (s : State) : Level := if s.busy then 1 else 0

/-- STATUS as read (10_state.md R25): bits 3:0 ERR_OVERLAP, ERR_ILLEGAL, DONE, BUSY; bits 7:4 zero. -/
def State.status (s : State) : Byte :=
  (0 : BitVec 4) ++ s.x.errOverlap ++ s.x.errIllegal ++ s.x.done ++ s.busyBit

/-- RESULT as read (10_state.md R26): bits 7:2 zero. -/
def State.resultByte (s : State) : Byte := s.x.result.zeroExtend 8

/-- `raise Err(NAME)` sets the flag and nothing else (60_exceptions.md R202). -/
def State.raise (s : State) (e : ErrFlag) : State :=
  match e with
  | .illegal => { s with x := { s.x with errIllegal := 1 } }
  | .overlap => { s with x := { s.x with errOverlap := 1 } }

/-- A host write of STATUS (10_state.md R25, 20_memory.md R67): a 1 in bit 2 or 3 clears that flag. -/
def State.clearErrors (s : State) (v : Byte) : State :=
  { s with x := { s.x with
      errIllegal := s.x.errIllegal &&& ~~~(v.extractLsb' 2 1)
      errOverlap := s.x.errOverlap &&& ~~~(v.extractLsb' 3 1) } }

/-- The receive status codes (10_state.md R26, 60_exceptions.md R201). -/
def resultNoData : BitVec 2 := 0
def resultValid : BitVec 2 := 1
def resultMismatch : BitVec 2 := 2

end Sys2Proof.Machine
end

