-- ==== Sys2Proof/Machine/Operands.lean ====
section
/-! DEFINITION. How every operand is formed (30_encoding.md R95 to R100). -/

namespace Sys2Proof.Machine

/-- The j-th bit SEND_BYTE sends of a byte: `v[7 - j]` (30_encoding.md R100). -/
def msbFirst (v : Byte) (j : Nat) : Level := v.extractLsb' (7 - j) 1

/-- One accumulation step, `acc*2 + bit` modulo 256 (30_encoding.md R100). -/
def shiftIn (acc : Byte) (bit : Level) : Byte := acc * 2 + bit.zeroExtend 8

/-- The command frame `F = cmd1 ++ cmd2` (30_encoding.md R95). -/
def commandFrame (c1 c2 : Byte) : Half := c1 ++ c2

/-- `TIMEOUT = x[0xB] ++ x[0xA] ++ x[0x9] ++ x[0x8]` (10_state.md R29). -/
def HostRegs.timeout (x : HostRegs) : Word := x.timeout3 ++ x.timeout2 ++ x.timeout1 ++ x.timeout0

/-- The received checksum `rxck = inByte1[7:4]` (42_packet_receiver.md R165). -/
def rxChecksum (byte1 : Byte) : Nibble := byte1.extractLsb' 4 4

/-- `label = inByte1[3:0]` (42_packet_receiver.md R165). -/
def label (byte1 : Byte) : Nibble := byte1.extractLsb' 0 4

/-- The local checksum `inByte2[7:4] ^ inByte2[3:0] ^ label` (42_packet_receiver.md R166). -/
def localChecksum (byte1 byte2 : Byte) : Nibble :=
  byte2.extractLsb' 4 4 ^^^ byte2.extractLsb' 0 4 ^^^ label byte1

/-- The check `lck == rxck` (42_packet_receiver.md R166). -/
def packetPasses (byte1 byte2 : Byte) : Bool := localChecksum byte1 byte2 == rxChecksum byte1

/-- Packet byte 0, `zext_8(label)` (42_packet_receiver.md R165). -/
def packetByte0 (byte1 : Byte) : Byte := (label byte1).zeroExtend 8

/-- The status of a packet that was read (42_packet_receiver.md R167). -/
def packetStatus (byte1 byte2 : Byte) : BitVec 2 :=
  if packetPasses byte1 byte2 then resultValid else resultMismatch

/-- The fields of a table entry from its four bytes (30_encoding.md R100). -/
def entryOfBytes (e0 e1 e2 e3 : Byte) : CfgEntry :=
  { cmd1 := e0, cmd2 := e1, delayAfterUs := e3 ++ e2 }

/-- The elapsed time `(r.NOW_MS − r.T_START) mod 2^32` (42_packet_receiver.md R162). -/
def Datapath.elapsed (r : Datapath) : Word := r.nowMs - r.tStart

/-- The timeout test `elapsed >= r.L_TIMEOUT` (42_packet_receiver.md R162). -/
def Datapath.expired (r : Datapath) : Bool := r.lTimeout ≤ r.elapsed

/-- The micro-operation word a place in the pseudocode forms (30_encoding.md R94, R100). -/
def CallSite.microWord (c : CallSite) (r : Datapath) : MicroWord :=
  match c with
  | .sendCmd1 => Sys2Proof.microWord 0b10 r.lCmd1
  | .sendCmd2 => Sys2Proof.microWord 0b10 r.lCmd2
  | .sendTxBit j => Sys2Proof.microWord 0b00 ((msbFirst r.txByte j).zeroExtend 8)
  | .readBit => Sys2Proof.microWord 0b01 0x00
  | .readByte => Sys2Proof.microWord 0b11 0x00
  | .word w => w

/-- LINES as read (10_state.md R34): bits 3:0 FFS, SDO, SCK, SEL; bits 5:4 the sampled `IRQ ++ SDI`;
bits 7:6 zero. -/
def linesByte (l : Lines) (inputs : BitVec 2) : Byte :=
  (0 : BitVec 2) ++ inputs ++ l.ffs ++ l.sdo ++ l.sck ++ l.sel

end Sys2Proof.Machine
end

