-- ==== Sys2Proof/Machine/Ops.lean ====
section
/-! DEFINITION. The named operations over the state: `Drive`, `WaitMin`, `Sample`, `MemRead`, the
draws of the other agents, completion, launch and reset. The engine takes no exception and returns
from none (60_exceptions.md R200, R206, R207); what stands in their place is `State.raise`
(Flags.lean) and the refusal of a launch here. -/

namespace Sys2Proof.Machine

/-! ### Draws -/

/-- The next value of a supply: the script's, else the held one, else the free value numbered by how
many were drawn freely (log entry 3). -/
def Draws.peek {α : Type} (free : Nat → α) (d : Draws α) : α :=
  match d.script with
  | a :: _ => a
  | [] => d.hold.getD (free d.drawn)

/-- The supply after its next value is taken. -/
def Draws.pop {α : Type} (d : Draws α) : Draws α :=
  match d.script with
  | _ :: as => { d with script := as }
  | [] => { d with drawn := d.drawn + 1 }

/-- The supply after n values are taken. -/
def Draws.popN {α : Type} : Nat → Draws α → Draws α
  | 0, d => d
  | n + 1, d => Draws.popN n d.pop

/-- The next n values, in order. -/
def Draws.peekN {α : Type} (free : Nat → α) : Nat → Draws α → List α
  | 0, _ => []
  | n + 1, d => d.peek free :: Draws.peekN free n d.pop

/-! ### Lines and trace -/

/-- The lines with one of them at a level. -/
def Lines.set (ls : Lines) (l : OutLine) (v : Level) : Lines :=
  match l with
  | .sel => { ls with sel := v }
  | .sck => { ls with sck := v }
  | .sdo => { ls with sdo := v }
  | .ffs => { ls with ffs := v }

/-- Append an entry to the trace (20_memory.md R73). -/
def State.emit (s : State) (e : Event) : State := { s with trace := s.trace ++ [e] }

/-- `Drive(L, v)` (00_scope.md R10): the line takes the level; an event even if it had it already
(20_memory.md R73). -/
def State.drive (s : State) (l : OutLine) (v : Level) : State :=
  { s with lines := s.lines.set l v, trace := s.trace ++ [.drv l v] }

/-- `WaitMin(n)` (00_scope.md R10): only its trace entry, a minimum (20_memory.md R73). -/
def State.waitMin (s : State) (n : Nat) : State := s.emit (.wait n)

/-- The level the next `Sample(SDI)` returns (93_implementation_defined.md U1). -/
def State.nextSdi (s : State) : Level := s.env.sdi.peek Config.freeSdi

/-- The level the next `Sample(IRQ)` returns (93_implementation_defined.md U2). -/
def State.nextIrq (s : State) : Level := s.env.irq.peek Config.freeIrq

/-- `r.RXBIT <- Sample(SDI)` (40_codec.md R121, 43_status_reader.md R180). -/
def State.sampleSdi (s : State) : State :=
  { s with
    r := { s.r with rxBit := s.nextSdi }
    trace := s.trace ++ [.smp .sdi s.nextSdi]
    env := { s.env with sdi := s.env.sdi.pop } }

/-- `Sample(IRQ)`: its trace entry; the level is `nextIrq` (42_packet_receiver.md R163). -/
def State.sampleIrq (s : State) : State :=
  { s with
    trace := s.trace ++ [.smp .irq s.nextIrq]
    env := { s.env with irq := s.env.irq.pop } }

/-! ### The configuration table -/

/-- The first offset past the table, 4·N_CFG (20_memory.md R60). -/
def State.cfgSize (s : State) : Nat := 4 * s.nCfg.toNat

/-- `MemRead(addr, 4)` (20_memory.md R64): the four bytes as an entry, none outside the table. -/
def State.memRead (s : State) (addr : Nat) : Option CfgEntry :=
  if addr + 4 ≤ s.cfgSize then
    some (entryOfBytes (s.cfg.read addr) (s.cfg.read (addr + 1)) (s.cfg.read (addr + 2))
      (s.cfg.read (addr + 3)))
  else none

/-! ### The timebase -/

/-- `n` milliseconds pass: `r.NOW_MS` wraps modulo 2^32 (60_exceptions.md R214). -/
def Datapath.passMs (r : Datapath) (n : Nat) : Datapath :=
  { r with nowMs := r.nowMs + BitVec.ofNat 32 n }

/-- The free passage of time before a step (log entry 4). -/
def State.tick (s : State) : State :=
  { s with
    r := s.r.passMs (s.env.ticks.peek Config.freeTicks)
    env := { s.env with ticks := s.env.ticks.pop } }

/-- Time passes until the timeout has expired, if it has not already. -/
def Datapath.waitOut (r : Datapath) : Datapath :=
  if r.expired then r else { r with nowMs := r.tStart + r.lTimeout }

/-- `r.T_START <- r.NOW_MS` (42_packet_receiver.md R161); the poll that begins may find its timeout
not expired only a free, finite number of times (R162 (c), log entry 4). -/
def State.startPoll (s : State) : State :=
  { s with
    r := { s.r with tStart := s.r.nowMs }
    env := { s.env with
      patience := s.env.patienceDraws.peek Config.freePatience
      patienceDraws := s.env.patienceDraws.pop } }

/-- The state in which `Expired` is evaluated: once the poll's patience is used up, the time until
the timeout has passed (42_packet_receiver.md R162 (c), log entry 4). -/
def State.beforeExpired (s : State) : State :=
  { s with
    r := if s.env.patience = 0 then s.r.waitOut else s.r
    env := { s.env with patience := s.env.patience - 1 } }

/-! ### Whose turn it is -/

/-- How many host accesses may fall before the sequencer's next step is drawn anew (20_memory.md R79):
at a launch, for the first step, and at every step, for the one after it. Log entry 5. -/
def Env.drawTurns (e : Env) : Env :=
  { e with turnsLeft := e.turnDraws.peek Config.freeTurns, turnDraws := e.turnDraws.pop }

/-! ### Completion, launch, reset -/

/-- `pc <- IDLE ; STATUS.DONE <- 1` and the `end` marker (10_state.md R40, 20_memory.md R73). -/
def State.complete (s : State) : State :=
  { s with pc := [], x := { s.x with done := 1 }, trace := s.trace ++ [.opEnd s.r.curOp] }

/-- When the last statement of an operation has been performed, completion happens in the same step
(10_state.md R40). -/
def State.settle (s : State) : State :=
  match s.pc with
  | .complete :: _ => s.complete
  | _ => s

/-- `settle` after a step that goes on. -/
def settleResult : Result → Result
  | .next s => .next s.settle
  | .fault f => .fault f
  | .refused f => .refused f

/-- A launch that is accepted (20_memory.md R68): the code, the latched operands `r`, DONE cleared,
`pc` at the first statement, the `begin` marker; host accesses may fall before the first step (R79). -/
def State.launched (s : State) (code : Byte) (r : Datapath) (prog : List Stmt) : State :=
  { s with
    r := { r with curOp := code }
    x := { s.x with done := 0 }
    pc := prog
    trace := s.trace ++ [.opBegin code]
    env := s.env.drawTurns }

/-- A launch (20_memory.md R68, 60_exceptions.md R204): refused with ERR_OVERLAP while an operation
runs, which is otherwise unaffected. -/
def launch (code : Byte) (r : Datapath) (prog : List Stmt) (s : State) : Result :=
  if s.busy then .next (s.raise .overlap) else .next (s.launched code r prog)

/-- RESET (70_reset_and_hazards.md R230, R231): the operation in flight is abandoned, the four lines
are driven to their reset levels, every register takes its reset value; the table is not reset and
the line events already made stay in the trace. -/
def State.applyReset (s : State) : State :=
  { s with
    pc := []
    x := .reset
    r := .reset
    lines := .reset
    trace := s.trace ++ [.drv .sel 1, .drv .sck 0, .drv .sdo 0, .drv .ffs 1] }

/-- Record what a host read returned. -/
def State.reply (s : State) (a : HostAddr) (v : Byte) : State :=
  { s with hostLog := s.hostLog ++ [⟨a, v⟩] }

end Sys2Proof.Machine
end

