-- ==== Sys2Proof/Machine/Pseudocode.lean ====
section
/-! DEFINITION. The pseudocode of the operations and micro-operations, statement for statement
(40_codec.md to 43_status_reader.md). It is fixed in the sequencer (20_memory.md R84). A loop over
fixed bounds is written out; the table loop and the poll loop are statements that put the next
iteration before what follows. -/

namespace Sys2Proof.Machine

def drv (l : OutLine) (v : Level) : Stmt := .prim (.drive l v)
def wait (n : Nat) : Stmt := .prim (.waitMin n)

/-! ### Micro-operations: the first primitive, then the rest of the body -/

/-- SEND_BIT(b) after `Drive(SDO, b)` (40_codec.md R120). -/
def sendBitRest : List Stmt := [wait 1, drv .sck 1, wait 1, drv .sck 0]

/-- READ_BIT() after `Drive(SCK, 1)` (40_codec.md R121). -/
def readBitRest : List Stmt := [wait 1, .prim .sampleSdi, drv .sck 0, wait 1]

/-- Iteration j of SEND_BYTE's loop (40_codec.md R122). -/
def sendByteIter (j : Nat) : List Stmt := [.call (.sendTxBit j), .prim .incBitCnt]

/-- SEND_BYTE(v) after `r.TXBYTE <- v` (40_codec.md R122). -/
def sendByteRest : List Stmt := (List.range 8).flatMap sendByteIter

/-- One iteration of READ_BYTE's loop (40_codec.md R123). -/
def readByteIter : List Stmt := [.call .readBit, .prim .shiftAcc, .prim .incBitCnt]

/-- READ_BYTE() after `Drive(FFS, 0)` (40_codec.md R123). -/
def readByteRest : List Stmt :=
  [.prim .clearAcc] ++ (List.replicate 8 readByteIter).flatten ++ [drv .ffs 1]

/-! ### Command Transmitter -/

/-- FRAME(r.L_CMD1, r.L_CMD2) (41_command.md R140). -/
def frame : List Stmt :=
  [.prim .clearBitCnt, drv .sel 0, wait 1, .call .sendCmd1, .call .sendCmd2,
   drv .sel 1, drv .sdo 0, drv .sck 0, wait 1]

/-- SEND_COMMAND (41_command.md R142). -/
def sendCommandCode : List Stmt := frame ++ [.complete]

/-- INIT_DEFAULTS (41_command.md R146). -/
def initDefaultsCode : List Stmt := [.prim (.cfgFor 0), .complete]

/-- The first statements of the table loop's body (41_command.md R146). -/
def cfgBody (k : Nat) : List Stmt := [.prim (.setCfgIdx k), .prim (.memRead k)]

/-- The body after `e <- MemRead(4k, 4)`: the registers, the frame, the delay, the next test. -/
def cfgSend (k : Nat) (e : CfgEntry) : List Stmt :=
  [.prim (.setLCmd1 e.cmd1), .prim (.setLCmd2 e.cmd2), .prim (.setLDelay e.delayAfterUs)]
    ++ frame ++ [.prim .ifDelay, .prim (.cfgFor (k + 1))]

/-! ### Packet Receiver -/

/-- RECEIVE_PACKET after the poll loop: steps 5 to 8 (42_packet_receiver.md R160). -/
def receiveReady : List Stmt :=
  [.prim .clearBitCnt, .call .readByte, .prim .setByte1, .call .readByte, .prim .setByte2,
   .prim .setPkt0, .prim .setPkt1, .prim .ifChecksum, .complete]

/-- RECEIVE_PACKET (42_packet_receiver.md R160). -/
def receivePacketCode : List Stmt :=
  [.prim .zeroPkt0, .prim .zeroPkt1, drv .sel 1, .prim .setTStart, .prim .sampleIrq] ++ receiveReady

/-- The statements of the expired branch: NoData and the return (42_packet_receiver.md R168). -/
def receiveTimedOut : List Stmt := [.prim (.setResult resultNoData), .complete]

/-! ### Status Reader -/

/-- One inline bit step of READ_STATUS (43_status_reader.md R180, R181). -/
def statusBitStep : List Stmt :=
  [drv .sck 1, wait 1, .prim .sampleSdi, drv .sck 0, wait 1, .prim .shiftAcc, .prim .incBitCnt]

/-- The loop body for one byte (43_status_reader.md R180). That the body's `if k == 0`, which chooses
`store`, takes no step of its own, as the loop is written out, is the model's, DEDUCED (log entry 1). -/
def statusByte (store : Prim) : List Stmt :=
  [.prim .clearAcc] ++ (List.replicate 8 statusBitStep).flatten ++ [.prim store]

/-- READ_STATUS (43_status_reader.md R180). -/
def readStatusCode : List Stmt :=
  [.prim .clearBitCnt, drv .sel 0, wait 1, drv .sdo 0, wait 1]
    ++ statusByte .setSwBuf0 ++ statusByte .setSwBuf1
    ++ [drv .sel 1, drv .sdo 0, .prim .publishStatus, .complete]

end Sys2Proof.Machine
end

