-- ==== Sys2Proof/Machine/Primitives.lean ====
section
/-! DEFINITION. What one primitive does (00_scope.md R10, 10_state.md R40). When `perform` runs,
`pc` already stands at the following statement; a condition moves it as the pseudocode says. -/

namespace Sys2Proof.Machine

/-- Put statements before what follows. -/
def State.push (s : State) (p : List Stmt) : State := { s with pc := p ++ s.pc }

/-- One primitive performed. -/
def perform (p : Prim) (s : State) : Result :=
  match p with
  | .drive l v => .next (s.drive l v)
  | .waitMin n => .next (s.waitMin n)
  | .waitDelay => .next (s.waitMin s.r.lDelay.toNat)
  | .sampleSdi => .next s.sampleSdi
  | .sampleIrq => .next (s.sampleIrq.push [.prim (.ifReady s.nextIrq)])
  | .ifReady lvl =>
    .next (if lvl = Config.irqActiveLevel then s else s.push [.prim .ifExpired])
  | .ifExpired =>
    let t := s.beforeExpired
    .next (if t.r.expired then { t with pc := receiveTimedOut } else t.push [.prim .sampleIrq])
  | .ifChecksum => .next (s.push [.prim (.setResult (packetStatus s.r.byte1 s.r.byte2))])
  | .ifDelay => .next (if s.r.lDelay = 0 then s else s.push [.prim .waitDelay])
  | .cfgFor k => .next (if k < s.nCfg.toNat then s.push (cfgBody k) else s)
  | .memRead k =>
    match s.memRead (4 * k) with
    | some e => .next (s.push (cfgSend k e))
    | none => .fault (.cfgReadOutside (4 * k))
  | .clearBitCnt => .next { s with r := { s.r with bitCnt := 0 } }
  | .incBitCnt => .next { s with r := { s.r with bitCnt := s.r.bitCnt + 1 } }
  | .setTxByte v => .next { s with r := { s.r with txByte := v } }
  | .clearAcc => .next { s with r := { s.r with acc := 0 } }
  | .shiftAcc => .next { s with r := { s.r with acc := shiftIn s.r.acc s.r.rxBit } }
  | .setByte1 => .next { s with r := { s.r with byte1 := s.r.acc } }
  | .setByte2 => .next { s with r := { s.r with byte2 := s.r.acc } }
  | .setSwBuf0 => .next { s with r := { s.r with swBuf0 := s.r.acc } }
  | .setSwBuf1 => .next { s with r := { s.r with swBuf1 := s.r.acc } }
  | .setTStart => .next s.startPoll
  | .zeroPkt0 => .next { s with x := { s.x with pkt0 := 0x00 } }
  | .zeroPkt1 => .next { s with x := { s.x with pkt1 := 0x00 } }
  | .setPkt0 => .next { s with x := { s.x with pkt0 := packetByte0 s.r.byte1 } }
  | .setPkt1 => .next { s with x := { s.x with pkt1 := s.r.byte2 } }
  | .setResult c => .next { s with x := { s.x with result := c } }
  | .publishStatus => .next { s with x := { s.x with sw0 := s.r.swBuf0, sw1 := s.r.swBuf1 } }
  | .setCfgIdx k => .next { s with r := { s.r with cfgIdx := BitVec.ofNat 8 k } }
  | .setLCmd1 v => .next { s with r := { s.r with lCmd1 := v } }
  | .setLCmd2 v => .next { s with r := { s.r with lCmd2 := v } }
  | .setLDelay v => .next { s with r := { s.r with lDelay := v } }

/-- The step that enters a micro-operation: its first primitive is performed, with `pc` at the rest
of its body (10_state.md R40: a step performs exactly one primitive; log entry 12). -/
def enter (first : Prim) (rest : List Stmt) (s : State) : Result :=
  perform first (s.push rest)

end Sys2Proof.Machine
end

