-- ==== Sys2Proof/Machine/Codec.lean ====
section
/-! DEFINITION. The meanings of the four micro-operations (40_codec.md). Each performs the first
primitive of its body and leaves `pc` at the rest of it (10_state.md R40). -/

namespace Sys2Proof.Machine

/-- SEND_BIT b (40_codec.md R120). -/
def execSendBit (b : Level) (s : State) : Result := enter (.drive .sdo b) sendBitRest s

/-- READ_BIT (40_codec.md R121). -/
def execReadBit (s : State) : Result := enter (.drive .sck 1) readBitRest s

/-- SEND_BYTE v (40_codec.md R122). -/
def execSendByte (v : Byte) (s : State) : Result := enter (.setTxByte v) sendByteRest s

/-- READ_BYTE (40_codec.md R123). -/
def execReadByte (s : State) : Result := enter (.drive .ffs 0) readByteRest s

end Sys2Proof.Machine
end

