-- ==== Sys2Proof/Machine/Command.lean ====
section
/-! DEFINITION. The meanings of the Command Transmitter's operations (41_command.md): each is the
launching step of 20_memory.md R68, R69, after which the sequencer runs the pseudocode. -/

namespace Sys2Proof.Machine

/-- The operands SEND_COMMAND latches (20_memory.md R69). -/
def State.latchCommand (s : State) : Datapath :=
  { s.r with lCmd1 := s.x.cmd1, lCmd2 := s.x.cmd2 }

/-- SEND_COMMAND (41_command.md R142). -/
def execSendCommand (s : State) : Result := launch 0x01 s.latchCommand sendCommandCode s

/-- INIT_DEFAULTS (41_command.md R146): it latches nothing. -/
def execInitDefaults (s : State) : Result := launch 0x04 s.r initDefaultsCode s

end Sys2Proof.Machine
end

