-- ==== Sys2Proof/Machine/Receiver.lean ====
section
/-! DEFINITION. The meaning of RECEIVE_PACKET (42_packet_receiver.md): the launching step of
20_memory.md R68, R69, after which the sequencer runs the pseudocode. -/

namespace Sys2Proof.Machine

/-- The operand RECEIVE_PACKET latches (20_memory.md R69). -/
def State.latchTimeout (s : State) : Datapath := { s.r with lTimeout := s.x.timeout }

/-- RECEIVE_PACKET (42_packet_receiver.md R160). -/
def execReceivePacket (s : State) : Result := launch 0x02 s.latchTimeout receivePacketCode s

end Sys2Proof.Machine
end

