-- ==== Sys2Proof/Machine/StatusReader.lean ====
section
/-! DEFINITION. The meaning of READ_STATUS (43_status_reader.md): the launching step of 20_memory.md
R68, after which the sequencer runs the pseudocode. -/

namespace Sys2Proof.Machine

/-- READ_STATUS (43_status_reader.md R180): it latches nothing. -/
def execReadStatus (s : State) : Result := launch 0x03 s.r readStatusCode s

end Sys2Proof.Machine
end

