-- ==== Sys2Proof/Machine/Dispatch.lean ====
section
/-! DEFINITION. One arm per instruction: each calls the meaning of its own. -/

namespace Sys2Proof.Machine

def exec (i : Instr) (s : State) : Host.Outcome State Fault Refusal :=
  match i with
  | .sendCommand => Sys2Proof.Machine.execSendCommand s
  | .receivePacket => Sys2Proof.Machine.execReceivePacket s
  | .readStatus => Sys2Proof.Machine.execReadStatus s
  | .initDefaults => Sys2Proof.Machine.execInitDefaults s
  | .sendBit b => Sys2Proof.Machine.execSendBit b s
  | .readBit => Sys2Proof.Machine.execReadBit s
  | .sendByte v => Sys2Proof.Machine.execSendByte v s
  | .readByte => Sys2Proof.Machine.execReadByte s

end Sys2Proof.Machine
end

