-- ==== Sys2Proof/Machine/HostPort.lean ====
section
/-! DEFINITION. The host port (20_memory.md R66 to R69): one access, performed in one step between
two sequencer steps. -/

namespace Sys2Proof.Machine

/-- RECEIVE_PACKET is in flight (10_state.md R41). -/
def State.receiving (s : State) : Bool := s.busy && s.r.curOp == 0x02

/-- The content of a register as the host sees it with no operation running (20_memory.md R66); LINES
with the input levels given. -/
def State.content (s : State) (a : HostReg) (inputs : BitVec 2) : Byte :=
  match a with
  | .op => 0x00
  | .status => s.status
  | .result => s.resultByte
  | .cmd1 => s.x.cmd1
  | .cmd2 => s.x.cmd2
  | .reserved5 => 0x00
  | .pkt0 => s.x.pkt0
  | .pkt1 => s.x.pkt1
  | .timeout0 => s.x.timeout0
  | .timeout1 => s.x.timeout1
  | .timeout2 => s.x.timeout2
  | .timeout3 => s.x.timeout3
  | .sw0 => s.x.sw0
  | .sw1 => s.x.sw1
  | .lines => linesByte s.lines inputs
  | .reservedF => 0x00

/-- The byte `v` is one the register holds at some step of the running operation (20_memory.md R81,
93_implementation_defined.md U5): while RECEIVE_PACKET runs, PKT0 holds a byte with a zero high half
(10_state.md R30) and PKT1 any byte; RESULT, SW0 and SW1 are written only by the completing step.
Log entry 7. -/
def State.mayHold (s : State) (a : HostReg) (v : Byte) : Bool :=
  match a with
  | .pkt0 => s.receiving && v.extractLsb' 4 4 == 0
  | .pkt1 => s.receiving
  | _ => false

/-- The levels `IRQ ++ SDI` a read of LINES would sample (10_state.md R34). -/
def State.nextLinesIn (s : State) : BitVec 2 := s.env.linesIn.peek Config.freeLines

/-- The byte a read of a result register would draw while an operation runs. -/
def State.nextBusyRead (s : State) : Byte := s.env.busyReads.peek Config.freeBusyRead

/-- The byte `HostRead` returns (20_memory.md R66, R81). -/
def State.readValue (s : State) (a : HostReg) : Byte :=
  if s.mayHold a s.nextBusyRead then s.nextBusyRead else s.content a s.nextLinesIn

/-- The draws a read uses up: a read of LINES samples the inputs, a read of a packet register during
a RECEIVE_PACKET draws a byte. -/
def State.readDraws (s : State) (a : HostReg) : Env :=
  match a with
  | .lines => { s.env with linesIn := s.env.linesIn.pop }
  | .pkt0 | .pkt1 =>
    if s.receiving then { s.env with busyReads := s.env.busyReads.pop } else s.env
  | _ => s.env

/-- `HostRead(a)` (20_memory.md R66): the reply and nothing else; the draws belong to the
surroundings (R75). -/
def hostRead (a : HostAddr) (s : State) : State :=
  { s.reply a (s.readValue (HostReg.ofAddr a)) with env := s.readDraws (HostReg.ofAddr a) }

/-- A host write of OP (20_memory.md R68): while an operation runs the byte is not decoded. -/
def writeOp (v : Byte) (s : State) : Result :=
  if s.busy then .next (s.raise .overlap)
  else
    match decodeOp v with
    | .ok i => exec i s
    | .error _ => .next (s.raise .illegal)

/-- `HostWrite(a, v)` (20_memory.md R67). -/
def hostWrite (a : HostAddr) (v : Byte) (s : State) : Result :=
  match HostReg.ofAddr a with
  | .op => writeOp v s
  | .status => .next (s.clearErrors v)
  | .cmd1 => .next { s with x := { s.x with cmd1 := v } }
  | .cmd2 => .next { s with x := { s.x with cmd2 := v } }
  | .timeout0 => .next { s with x := { s.x with timeout0 := v } }
  | .timeout1 => .next { s with x := { s.x with timeout1 := v } }
  | .timeout2 => .next { s with x := { s.x with timeout2 := v } }
  | .timeout3 => .next { s with x := { s.x with timeout3 := v } }
  | .result | .pkt0 | .pkt1 | .sw0 | .sw1 | .lines | .reserved5 | .reservedF => .next s

/-- One read of the WAIT_IDLE loop (30_encoding.md R102): it comes again until bit 0 reads 0. -/
def waitIdle (s : State) : State :=
  let t := hostRead HostReg.status.addr s
  if s.status.extractLsb' 0 1 = 0 then t else { t with inputs := .waitIdle :: t.inputs }

/-- What the outside world does at the inputs. -/
def applyInput (i : Input) (s : State) : Result :=
  match i with
  | .read a => .next (hostRead a s)
  | .write a v => hostWrite a v s
  | .waitIdle => .next (waitIdle s)
  | .reset => .next s.applyReset

end Sys2Proof.Machine
end

