-- ==== Sys2Proof/Machine/Sequencer.lean ====
section
/-! DEFINITION. One step of the sequencer (10_state.md R40). -/

namespace Sys2Proof.Machine

/-- A micro-operation word is decoded and run; a word with a bit set that must be zero is refused
(30_encoding.md R94). -/
def runMicro (w : MicroWord) (s : State) : Result :=
  match decodeMicro w with
  | .ok i => exec i s
  | .error _ => .refused (.illegalMicroWord w)

/-- The next statement, with `pc` moved past it; an idle sequencer has no step (60_exceptions.md
R222). -/
def seqStep (s : State) : Result :=
  match s.pc with
  | [] => .next s
  | .prim p :: rest => settleResult (perform p { s with pc := rest })
  | .call c :: rest => runMicro (c.microWord s.r) { s with pc := rest }
  | .complete :: _ => .next s.complete

end Sys2Proof.Machine
end

