-- ==== Sys2Proof/Machine/Schedule.lean ====
section
/-! DEFINITION. Whose step it is (20_memory.md R79): a run is one total order of sequencer steps and
host accesses, the interleaving left open. How many accesses fall before the next sequencer step is a
free number, drawn at the launch for the first step and at every step for the next, so every
interleaving in which the sequencer goes on is one of the model's (log entry 5). -/

namespace Sys2Proof.Machine

/-- The outside world moves: it has something to do, and either the engine is idle or accesses may
still fall before the sequencer's next step. -/
def State.hostMoves (s : State) : Bool :=
  !s.inputs.isEmpty && (!s.busy || 0 < s.env.turnsLeft)

/-- The state in which an input is applied: time has passed, the input is taken from the list and
counted. -/
def State.beforeInput (s : State) (rest : List Input) : State :=
  { s.tick with
    inputs := rest
    env := { s.tick.env with turnsLeft := s.env.turnsLeft - 1 } }

/-- The state in which the sequencer moves: time has passed, and the number of accesses that may fall
before its following step is drawn. -/
def State.beforeSeq (s : State) : State :=
  { s.tick with env := s.tick.env.drawTurns }

/-- One step of the whole: an input or a sequencer step. -/
def cycle (s : State) : Result :=
  if s.hostMoves then
    match s.inputs with
    | [] => .next s
    | i :: rest => applyInput i (s.beforeInput rest)
  else seqStep s.beforeSeq

/-- The code placed where the machine takes its next instruction from (log entry 13): an OP byte as
the host's next access to an idle engine, a micro-operation word as the sequencer's next statement. -/
def State.place (s : State) (c : Code) : State :=
  match c with
  | .op v => { s with pc := [], inputs := wr .op v :: s.inputs }
  | .micro w => { s with pc := .call (.word w) :: s.pc, env := { s.env with turnsLeft := 0 } }

/-- `place` for a row's word; a number that is no word of either kind places nothing. -/
def State.placeTableWord (s : State) (nbits w : Nat) : State :=
  match tableCode nbits w with
  | some c => s.place c
  | none => s

end Sys2Proof.Machine
end

