-- ==== Sys2Proof/Machine/Step.lean ====
section
/-! DEFINITION. The step of the machine and where it takes its next instruction from. -/

namespace Sys2Proof.Machine

/-- One step (20_memory.md R79, 10_state.md R40). -/
def step (s : State) : Host.Outcome State Fault Refusal := cycle s

/-- The state whose very next step runs the instruction of the given opcode table word. -/
def State.withFetchWord (s : State) (nbits w : Nat) : State := s.placeTableWord nbits w

end Sys2Proof.Machine
end

