-- ==== Sys2Proof/Machine/Phase.lean ====
section
/-! DEFINITION. The source's state machine `Idle → Selected → Clocking(0..15) → Idle` as a view of
`pc` (10_state.md R42). Nothing of the machine reads it. -/

namespace Sys2Proof.Machine

/-- The phases of 10_state.md R42. -/
inductive Phase
  | idle | poll | selected
  | clocking (i : Nat)
  | epilogue
deriving DecidableEq, Repr

/-- How many frame bits a statement still has to count. -/
def Stmt.bits : Stmt → Nat
  | .prim .incBitCnt => 1
  | .call .sendCmd1 | .call .sendCmd2 | .call .readByte => 8
  | _ => 0

/-- The frame bits not yet counted at a position. -/
def bitsLeft (pc : List Stmt) : Nat := (pc.map Stmt.bits).sum

/-- A statement of RECEIVE_PACKET's poll. -/
def Stmt.polls : Stmt → Bool
  | .prim .sampleIrq | .prim (.ifReady _) | .prim .ifExpired => true
  | _ => false

/-- No frame bit of the transaction has begun: the first SEND_BYTE is still to come, a READ_BYTE is
about to assert `FFS`, BITCNT is about to be cleared, or all sixteen inline clock rises of READ_STATUS
are still to come. -/
def beforeFirstBit (pc : List Stmt) : Bool :=
  pc.contains (.call .sendCmd1) || pc.head? == some (.call .readByte)
    || pc.head? == some (.prim .clearBitCnt) || pc.count (drv .sck 1) == 16

/-- The phase of a position. The table of R42 does not place every statement; where it does not, the
place is the model's, DESIGN CHOICE (log entry 19, statement by statement). Among them: READ_BYTE's
`Drive(FFS, 1)` after byte 1 and `r.BYTE1 <-` are Clocking(8), before the second Selected, and its
`Drive(FFS, 1)` after byte 2 is epilogue; `x[RESULT] <- 0` on RECEIVE_PACKET's timeout path, after the
poll ended, is epilogue. -/
def phaseOf (pc : List Stmt) : Phase :=
  if pc.isEmpty then .idle
  else if pc.any Stmt.polls then .poll
  else if bitsLeft pc = 0 then .epilogue
  else if beforeFirstBit pc then .selected
  else .clocking (16 - bitsLeft pc)

end Sys2Proof.Machine
end

