-- ==== Sys2Proof/Safety.lean ====
section
/-! DEFINITION. The terms claims are stated in: what a run looks like from outside (the traces the
rules give, what the chip sees of them, how long they last), the invariant of the engine, and when a
host program misuses it. -/

namespace Sys2Proof.Machine

/-! ### Traces of the rules (95_test_vectors.md §0) -/

/-- `sb(b)`: one SEND_BIT (40_codec.md R120). -/
def sbTrace (b : Level) : List Event :=
  [.drv .sdo b, .wait 1, .drv .sck 1, .wait 1, .drv .sck 0]

/-- `sb*(v)`: one SEND_BYTE, most significant bit first (40_codec.md R122). -/
def sendByteTrace (v : Byte) : List Event := (List.range 8).flatMap fun j => sbTrace (msbFirst v j)

/-- `rb(b)`: one READ_BIT, or one inline bit step of READ_STATUS (40_codec.md R121,
43_status_reader.md R181). -/
def rbTrace (b : Level) : List Event :=
  [.drv .sck 1, .wait 1, .smp .sdi b, .drv .sck 0, .wait 1]

/-- One READ_BYTE of the given samples (40_codec.md R123). -/
def readByteTrace (bits : List Level) : List Event :=
  [.drv .ffs 0] ++ bits.flatMap rbTrace ++ [.drv .ffs 1]

/-- FRAME(c1, c2) (41_command.md R140). -/
def frameTrace (c1 c2 : Byte) : List Event :=
  [.drv .sel 0, .wait 1] ++ sendByteTrace c1 ++ sendByteTrace c2
    ++ [.drv .sel 1, .drv .sdo 0, .drv .sck 0, .wait 1]

/-- One table entry in INIT_DEFAULTS (41_command.md R146): a delay of 0 adds nothing. -/
def entryTrace (e : CfgEntry) : List Event :=
  frameTrace e.cmd1 e.cmd2 ++ (if e.delayAfterUs = 0 then [] else [.wait e.delayAfterUs.toNat])

/-- READ_STATUS with the given samples (43_status_reader.md R180). -/
def statusTrace (bits : List Level) : List Event :=
  [.drv .sel 0, .wait 1, .drv .sdo 0, .wait 1] ++ bits.flatMap rbTrace
    ++ [.drv .sel 1, .drv .sdo 0]

/-- The two bytes of a packet (42_packet_receiver.md R164). -/
def packetTrace (bits1 bits2 : List Level) : List Event :=
  readByteTrace bits1 ++ readByteTrace bits2

/-- The poll that sees `n` levels that are not ready (42_packet_receiver.md R163). -/
def notReadyTrace (n : Nat) : List Event :=
  List.replicate n (.smp .irq (~~~Config.irqActiveLevel))

/-! ### What the chip sees of a trace -/

/-- The levels `SDO` holds at the rises of `SCK` (41_command.md R144, 40_codec.md R125), given the two
levels before the trace. -/
def sdoAtRises : Level → Level → List Event → List Level
  | _, _, [] => []
  | _, sck, .drv .sdo v :: es => sdoAtRises v sck es
  | sdo, sck, .drv .sck v :: es =>
    if sck = 0 ∧ v = 1 then sdo :: sdoAtRises sdo v es else sdoAtRises sdo v es
  | sdo, sck, _ :: es => sdoAtRises sdo sck es

/-- The least time a trace takes, in microseconds (20_memory.md R73, 70_reset_and_hazards.md R250). -/
def minMicros : List Event → Nat
  | [] => 0
  | .wait n :: es => n + minMicros es
  | _ :: es => minMicros es

/-- An entry that drives a line. -/
def Event.isDrv : Event → Bool
  | .drv _ _ => true
  | _ => false

/-- A `wait` entry. -/
def Event.isWait : Event → Bool
  | .wait _ => true
  | _ => false

/-- A `smp` entry. -/
def Event.isSmp : Event → Bool
  | .smp _ _ => true
  | _ => false

/-- An entry that drives the given line. -/
def Event.drives (l : OutLine) : Event → Bool
  | .drv m _ => m == l
  | _ => false

/-- The byte that eight samples assemble to (30_encoding.md R100). -/
def byteOfBits (bits : List Level) : Byte := bits.foldl shiftIn 0

/-- The eight levels of a byte, most significant bit first (20_memory.md R70). -/
def bitsOfByte (v : Byte) : List Level := (List.range 8).map (msbFirst v)

/-- The next n samples of `SDI`. -/
def State.sdiBits (s : State) (n : Nat) : List Level := s.env.sdi.peekN Config.freeSdi n

/-- The samples `n .. n+7` of `SDI`, as the byte they assemble to. -/
def State.sdiByte (s : State) (n : Nat) : Byte := byteOfBits ((s.sdiBits (n + 8)).drop n)

/-- The level the j-th coming sample of `IRQ` returns. -/
def State.irqAt (s : State) (j : Nat) : Level := (s.env.irq.popN j).peek Config.freeIrq

/-! ### Runs -/

/-- `n` steps of the machine lead from `s` to `t`. -/
def Reaches (n : Nat) (s t : State) : Prop := core.run n s = .next t

/-- Entry k of the configuration table (30_encoding.md R99). -/
def State.entry (s : State) (k : Nat) : CfgEntry :=
  entryOfBytes (s.cfg.read (4 * k)) (s.cfg.read (4 * k + 1)) (s.cfg.read (4 * k + 2))
    (s.cfg.read (4 * k + 3))

/-- The table, in order. -/
def State.entries (s : State) : List CfgEntry := (List.range s.nCfg.toNat).map s.entry

/-- The levels of an idle engine (10_state.md R46). -/
def Lines.idle : Lines := ⟨1, 0, 0, 1⟩

/-- The state with what the passage of time and the drawing of turns may change left out: `r.NOW_MS`
and the model's own supplies of ticks and turns. Two states with the same `timeless` agree in
everything else. -/
def State.timeless (s : State) : State :=
  { s with
    r := { s.r with nowMs := 0 }
    env := { s.env with ticks := .free, turnDraws := .free, turnsLeft := 0 } }

/-- The lines after a trace entry: only a `drv` changes one (10_state.md R20). -/
def Lines.after (ls : Lines) : Event → Lines
  | .drv l v => ls.set l v
  | .wait _ | .smp _ _ | .opBegin _ | .opEnd _ => ls

/-- The lines after a stretch of trace. -/
def Lines.afterAll (ls : Lines) (es : List Event) : Lines := es.foldl Lines.after ls

/-- The host's registers after an access made while an operation runs (20_memory.md R66 to R68): a
write of OP sets ERR_OVERLAP, a write of STATUS clears what it writes a 1 to, a write of an operand
register stores; everything else leaves them. -/
def HostRegs.accessed (x : HostRegs) : Input → HostRegs
  | .write a v =>
    match HostReg.ofAddr a with
    | .op => { x with errOverlap := 1 }
    | .status =>
      { x with
        errIllegal := if v.getLsbD 2 then 0 else x.errIllegal
        errOverlap := if v.getLsbD 3 then 0 else x.errOverlap }
    | .cmd1 => { x with cmd1 := v }
    | .cmd2 => { x with cmd2 := v }
    | .timeout0 => { x with timeout0 := v }
    | .timeout1 => { x with timeout1 := v }
    | .timeout2 => { x with timeout2 := v }
    | .timeout3 => { x with timeout3 := v }
    | .result | .reserved5 | .pkt0 | .pkt1 | .sw0 | .sw1 | .lines | .reservedF => x
  | .read _ | .waitIdle | .reset => x

/-- The host's side of a state taken from another: the accesses to come, the replies and their draws. -/
def State.withHostSide (s u : State) : State :=
  { s with
    inputs := u.inputs
    hostLog := u.hostLog
    env := { s.env with linesIn := u.env.linesIn, busyReads := u.env.busyReads } }

/-- What the host did between two states: `used` are the accesses done with; where it had none, its side
is as it was. -/
structure HostDid (s u : State) (used : List Input) : Prop where
  inputs : s.inputs = used ++ u.inputs
  nothing : s.inputs = [] → u.hostLog = s.hostLog ∧ u.env.linesIn = s.env.linesIn ∧
    u.env.busyReads = s.env.busyReads

/-- The instruction, run from `s` to its end, appends to the trace entries of which `P` holds. -/
def Appends (i : Instr) (s : State) (P : List Event → Prop) : Prop :=
  ∃ t n u es, exec i s = .next t ∧ Reaches n t u ∧ u.pc = s.pc ∧ u.trace = s.trace ++ es ∧ P es

/-! ### The invariant of the engine -/

/-- The lines and BITCNT as far as a position in the pseudocode determines them; the level of `SDO`
is known or not. -/
structure Shadow where
  sel : Level
  sck : Level
  sdo : Option Level
  ffs : Level
  cnt : Nibble
deriving DecidableEq, Repr

/-- The levels of an idle engine (10_state.md R46), with a whole number of frames counted. -/
def Shadow.idle : Shadow := ⟨1, 0, some 0, 1, 0⟩

/-- The shadow of a state. -/
def State.shadow (s : State) : Shadow :=
  ⟨s.lines.sel, s.lines.sck, some s.lines.sdo, s.lines.ffs, s.r.bitCnt⟩

/-- The shadow after a primitive. -/
def Shadow.prim (h : Shadow) : Prim → Shadow
  | .drive .sel v => { h with sel := v }
  | .drive .sck v => { h with sck := v }
  | .drive .sdo v => { h with sdo := some v }
  | .drive .ffs v => { h with ffs := v }
  | .clearBitCnt => { h with cnt := 0 }
  | .incBitCnt => { h with cnt := h.cnt + 1 }
  | _ => h

/-- Bits come in from the chip: `FFS` is low (a packet byte, 40_codec.md R123) or `SEL` is low (the
status word, 43_status_reader.md R180). -/
def Shadow.readsBits (h : Shadow) : Bool := h.ffs == 0 || h.sel == 0

/-- A primitive may stand where it stands: a branch or a loop is taken with the lines idle, a table
read is inside the table, RESULT never takes the value 3 (10_state.md R26), `SDI` is sampled in a bit
step, while `SCK` is high (40_codec.md R121, 43_status_reader.md R181). -/
def Shadow.primOk (n : Nat) (h : Shadow) : Prim → Bool
  | .sampleSdi => h.sck == 1 && h.readsBits
  | .sampleIrq | .ifReady _ | .ifExpired | .cfgFor _ => h == .idle
  | .memRead k => h == .idle && k < n
  | .setResult c => c != 3
  | _ => true

/-- The shadow after a micro-operation. -/
def Shadow.instr (h : Shadow) : Instr → Shadow
  | .sendBit _ => { h with sdo := none }
  | .sendByte _ => { h with sdo := none, cnt := h.cnt + 8 }
  | .readByte => { h with ffs := 1, cnt := h.cnt + 8 }
  | .readBit | .sendCommand | .receivePacket | .readStatus | .initDefaults => h

/-- The micro-operation a place in the pseudocode performs, by its kind. -/
def CallSite.kind : CallSite → Decoded
  | .sendCmd1 | .sendCmd2 => .ok (.sendByte 0)
  | .sendTxBit _ => .ok (.sendBit 0)
  | .readBit => .ok .readBit
  | .readByte => .ok .readByte
  | .word w => decodeMicro w

/-- A position from which the operation in flight, run to its end, leaves the lines idle
(10_state.md R46), with `SCK` low at the start of every micro-operation (40_codec.md R126). -/
def endsIdle (n : Nat) : List Stmt → Shadow → Bool
  | [], h => h == .idle
  | .complete :: _, h => h == .idle
  | .prim p :: rest, h => h.primOk n p && endsIdle n rest (h.prim p)
  | .call c :: rest, h =>
    match c.kind with
    | .ok i => h.sck == 0 && (i != .readBit || h.readsBits) && endsIdle n rest (h.instr i)
    | .error _ => false

/-- The operations, by code, whose pseudocode has the primitive (41_command.md R140, R142, R146;
42_packet_receiver.md R160; 43_status_reader.md R180; 40_codec.md R122, R123 for the micro-operations
they call). -/
def Prim.partOf (code : Byte) : Prim → Bool
  | .sampleIrq | .ifReady _ | .ifExpired | .ifChecksum | .setTStart | .setByte1 | .setByte2
  | .zeroPkt0 | .zeroPkt1 | .setPkt0 | .setPkt1 | .setResult _ => code == 0x02
  | .sampleSdi | .clearAcc | .shiftAcc => code == 0x02 || code == 0x03
  | .setSwBuf0 | .setSwBuf1 | .publishStatus => code == 0x03
  | .waitDelay | .ifDelay | .cfgFor _ | .memRead _ | .setCfgIdx _ | .setLCmd1 _ | .setLCmd2 _
  | .setLDelay _ => code == 0x04
  | .setTxByte _ => code == 0x01 || code == 0x04
  | .drive _ _ | .waitMin _ | .clearBitCnt | .incBitCnt => true

/-- The operations whose pseudocode calls the micro-operation. -/
def microPartOf (code : Byte) : Instr → Bool
  | .sendBit _ | .sendByte _ => code == 0x01 || code == 0x04
  | .readBit | .readByte => code == 0x02
  | .sendCommand | .receivePacket | .readStatus | .initDefaults => false

/-- The operations whose pseudocode has the statement. -/
def Stmt.partOf (code : Byte) : Stmt → Bool
  | .prim p => p.partOf code
  | .call c =>
    match c.kind with
    | .ok i => microPartOf code i
    | .error _ => false
  | .complete => true

/-- The invariant of the engine. -/
structure EngineInv (s : State) : Prop where
  /-- The lines will be idle when the operation ends, and are when none runs (10_state.md R46). -/
  ends : endsIdle s.nCfg.toNat s.pc s.shadow = true
  /-- The table space is in canonical form. -/
  table : s.cfg.wf = true
  /-- PKT0's high half is zero (10_state.md R30). -/
  pkt0 : s.x.pkt0.extractLsb' 4 4 = 0
  /-- RESULT is 0, 1 or 2 (10_state.md R26). -/
  result : s.x.result ≠ 3
  /-- BUSY and DONE are never 1 together (10_state.md R25). -/
  busyDone : s.busy = true → s.x.done = 0
  /-- While an operation runs, `r.CUR_OP` is one of the four codes (10_state.md R41). -/
  code : s.busy = true → opCodeOk s.r.curOp = true
  /-- What is still to be performed belongs to the operation in `r.CUR_OP` (10_state.md R40). -/
  own : s.pc.all (Stmt.partOf s.r.curOp) = true

/-! ### Host programs -/

/-- The step about to be made is a host write of OP while an operation runs, which the host must not
make (70_reset_and_hazards.md R240). A claim about host programs treats such a program as faulted
(60_exceptions.md R204); the engine's own step is defined (log entry 9). -/
def State.overlaps (s : State) : Bool :=
  s.hostMoves && s.busy &&
    match s.inputs with
    | .write a _ :: _ => HostReg.ofAddr a == .op
    | _ => false

/-- The step about to be made is a host write of an illegal OP code to an idle engine
(60_exceptions.md R203). -/
def State.launchesIllegal (s : State) : Bool :=
  s.hostMoves && !s.busy &&
    match s.inputs with
    | .write a v :: _ => HostReg.ofAddr a == .op && !opCodeOk v
    | _ => false

/-- The step about to be made applies the reset input. -/
def State.resets (s : State) : Bool :=
  s.hostMoves &&
    match s.inputs with
    | .reset :: _ => true
    | _ => false

/-- A run of `n` steps in which the host never misuses the engine. -/
def SafeRun (n : Nat) (s : State) : Prop :=
  ∀ k, k < n → ∀ t, Reaches k s t → t.overlaps = false

end Sys2Proof.Machine
end

