-- ==== Sys2Proof/Certificates/Slice0/Obligations.lean ====
section
/-! DEFINITION. The statements for the provers, each from a numbered rule of spec/ or from rules
together. `exec` is an operation's launch or a micro-operation's first primitive; `Reaches n t u` is the
run of the machine from there, `n` being no claim of the rules (log entry 1).

The runs of the four operations hold for every list of host accesses to come but reset
(`.reset ∉ s.inputs`), wherever the accesses fall: those done with (`used`) leave their writes in the
host's registers (`HostRegs.accessed`), and the host's side of the end is its own (`withHostSide`). That
finitely many accesses fall between two steps, so that the operation ends, is the model's (log entry 5).
The runs of single micro-operations and the statements of single statements have none to come
(`inputs = []`).

`timeless` leaves out `r.NOW_MS` and the model's supplies of ticks and turns, nothing else, so an equation
between `timeless` states is a result and a frame in one. -/

open Sys2Proof Sys2Proof.Machine

/-! ### Encodings (30_encoding.md) -/

/-- R92, R94: decoding and encoding are inverse on every code word and every instruction. -/
def Obligations.DecodeInvertsEncode : Prop :=
  ∀ (c : Code) (i : Instr), decode c = .ok i ↔ encode i = c

/-- R101, R92, R93: the decoder of the OP byte is total: the four codes decode to their operations,
every other byte is illegal. R94: a micro-operation word decodes exactly when its must-be-zero bits are
zero. -/
def Obligations.ExactlyTheTabledWordsDecode : Prop :=
  decodeOp 0x01 = .ok .sendCommand ∧ decodeOp 0x02 = .ok .receivePacket ∧
  decodeOp 0x03 = .ok .readStatus ∧ decodeOp 0x04 = .ok .initDefaults ∧
  (∀ v : Byte, v ≠ 0x01 → v ≠ 0x02 → v ≠ 0x03 → v ≠ 0x04 → decodeOp v = .error (.illegalOp v)) ∧
  (∀ w : MicroWord, (∃ i, decodeMicro w = .ok i) ↔ mopndOk w = true)

/-- R92, R94: words written out from the tables decode to their instructions. -/
def Obligations.TabledWordsDecodeToTheirInstructions : Prop :=
  decodeTableWord 8 0b00000001 = some .sendCommand ∧
  decodeTableWord 8 0b00000010 = some .receivePacket ∧
  decodeTableWord 8 0b00000011 = some .readStatus ∧
  decodeTableWord 8 0b00000100 = some .initDefaults ∧
  decodeTableWord 16 0b0000000001 = some (.sendBit 1) ∧
  decodeTableWord 16 0b0100000000 = some .readBit ∧
  decodeTableWord 16 0b1010000010 = some (.sendByte 0x82) ∧
  decodeTableWord 16 0b1100000000 = some .readByte

/-- R94: a micro-operation word with a nonzero bit the table marks as zero is refused. -/
def Obligations.IllegalMicroWordIsRefused : Prop :=
  ∀ (s : State) (w : MicroWord) (rest : List Stmt), s.pc = .call (.word w) :: rest →
    s.hostMoves = false → mopndOk w = false → step s = .refused (.illegalMicroWord w)

/-! ### A step runs the decoded instruction (20_memory.md R68, 10_state.md R40) -/

/-- The next access is a write of OP to an idle engine with a byte that decodes: the step is the
instruction's. The sequencer stands at a micro-operation and the host does not move: the step is the
instruction of the word formed there. -/
def Obligations.StepRunsTheDecodedInstruction : Prop :=
  (∀ (s : State) (v : Byte) (i : Instr) (rest : List Input), s.pc = [] →
    s.inputs = wr .op v :: rest → decodeOp v = .ok i → step s = exec i (s.beforeInput rest)) ∧
  (∀ (s : State) (c : CallSite) (i : Instr) (rest : List Stmt), s.pc = .call c :: rest →
    s.hostMoves = false → decodeMicro (c.microWord s.r) = .ok i →
    step s = exec i { s.beforeSeq with pc := rest })

/-- R68, R69: an operation launched on an idle engine latches its operands, clears DONE, sets
`r.CUR_OP` and makes the `begin` marker; `pc` stands at its first statement and the number of host
accesses that may fall before it is drawn (the model's supply, log entry 5); nothing else changes. -/
def Obligations.LaunchStartsAnOperation : Prop :=
  ∀ s : State, s.pc = [] →
    exec .sendCommand s = .next { s with
      r := { s.r with curOp := 0x01, lCmd1 := s.x.cmd1, lCmd2 := s.x.cmd2 }
      x := { s.x with done := 0 }
      pc := sendCommandCode
      trace := s.trace ++ [.opBegin 0x01]
      env := s.env.drawTurns } ∧
    exec .receivePacket s = .next { s with
      r := { s.r with curOp := 0x02, lTimeout := s.x.timeout }
      x := { s.x with done := 0 }
      pc := receivePacketCode
      trace := s.trace ++ [.opBegin 0x02]
      env := s.env.drawTurns } ∧
    exec .readStatus s = .next { s with
      r := { s.r with curOp := 0x03 }
      x := { s.x with done := 0 }
      pc := readStatusCode
      trace := s.trace ++ [.opBegin 0x03]
      env := s.env.drawTurns } ∧
    exec .initDefaults s = .next { s with
      r := { s.r with curOp := 0x04 }
      x := { s.x with done := 0 }
      pc := initDefaultsCode
      trace := s.trace ++ [.opBegin 0x04]
      env := s.env.drawTurns }

/-! ### Micro-operations (40_codec.md) -/

/-- R40, R120 to R123: a micro-operation is entered with its first primitive, in every state, and that
step changes nothing else but `pc`, which stands at the rest of its body. -/
def Obligations.MicroOperationStartsWithItsFirstPrimitive : Prop :=
  ∀ (s : State) (b : Level) (v : Byte),
    exec (.sendBit b) s = .next { s with
      lines := { s.lines with sdo := b }
      pc := sendBitRest ++ s.pc
      trace := s.trace ++ [.drv .sdo b] } ∧
    exec .readBit s = .next { s with
      lines := { s.lines with sck := 1 }
      pc := readBitRest ++ s.pc
      trace := s.trace ++ [.drv .sck 1] } ∧
    exec (.sendByte v) s = .next { s with
      r := { s.r with txByte := v }
      pc := sendByteRest ++ s.pc } ∧
    exec .readByte s = .next { s with
      lines := { s.lines with ffs := 0 }
      pc := readByteRest ++ s.pc
      trace := s.trace ++ [.drv .ffs 0] }

/-- R120: SEND_BIT b puts b on `SDO`, pulses `SCK`, and changes nothing else. -/
def Obligations.SendBitDrivesOneClockedBit : Prop :=
  ∀ (s : State) (b : Level), decodeMicro (microWord 0b00 (b.zeroExtend 8)) = .ok (.sendBit b) ∧
    ∃ t, exec (.sendBit b) s = .next t ∧ (s.inputs = [] → s.pc.head? ≠ some .complete →
      ∃ n u, Reaches n t u ∧ u.timeless = ({ s with
        lines := { s.lines with sdo := b, sck := 0 }
        trace := s.trace ++ sbTrace b } : State).timeless)

/-- R121: READ_BIT clocks one bit in: `r.RXBIT` is the level sampled while `SCK` is high; `SDO` keeps
its level. -/
def Obligations.ReadBitSamplesOneClockedBit : Prop :=
  decodeMicro (microWord 0b01 0x00) = .ok .readBit ∧
  ∀ s : State, ∃ t, exec .readBit s = .next t ∧
    (s.inputs = [] → s.pc.head? ≠ some .complete → ∃ n u, Reaches n t u ∧
      u.timeless = ({ s with
        lines := { s.lines with sck := 0 }
        r := { s.r with rxBit := s.nextSdi }
        trace := s.trace ++ rbTrace s.nextSdi
        env := { s.env with sdi := s.env.sdi.pop } } : State).timeless)

/-- R122: SEND_BYTE v sends the eight bits of v, most significant first; `SDO` is left at bit 0,
`r.BITCNT` counts eight bits modulo 16. -/
def Obligations.SendByteSendsEightBitsMsbFirst : Prop :=
  ∀ (s : State) (v : Byte), decodeMicro (microWord 0b10 v) = .ok (.sendByte v) ∧
    ∃ t, exec (.sendByte v) s = .next t ∧ (s.inputs = [] → s.pc.head? ≠ some .complete →
      ∃ n u, Reaches n t u ∧ u.timeless = ({ s with
        lines := { s.lines with sdo := v.extractLsb' 0 1, sck := 0 }
        r := { s.r with txByte := v, bitCnt := s.r.bitCnt + 8 }
        trace := s.trace ++ sendByteTrace v } : State).timeless)

/-- R123: READ_BYTE assembles eight samples, the first in bit 7, whatever `r.ACC` held, between the
two edges of one low pulse of `FFS`. -/
def Obligations.ReadByteAssemblesEightSamples : Prop :=
  decodeMicro (microWord 0b11 0x00) = .ok .readByte ∧
  ∀ s : State, ∃ t, exec .readByte s = .next t ∧
    (s.inputs = [] → s.pc.head? ≠ some .complete → ∃ n u, Reaches n t u ∧
      u.timeless = ({ s with
        lines := { s.lines with sck := 0, ffs := 1 }
        r := { s.r with
          acc := s.sdiByte 0
          rxBit := (s.sdiBits 8).getLastD 0
          bitCnt := s.r.bitCnt + 8 }
        trace := s.trace ++ readByteTrace (s.sdiBits 8)
        env := { s.env with sdi := s.env.sdi.popN 8 } } : State).timeless)

/-- R125: what SEND_BYTE v puts on `SDO` at its eight clock rises, sampled back by a READ_BYTE, gives
v again. -/
def Obligations.LoopbackRoundTrip : Prop :=
  ∀ (v : Byte) (sdo : Level) (s : State), s.inputs = [] → s.pc.head? ≠ some .complete →
    s.sdiBits 8 = sdoAtRises sdo 0 (sendByteTrace v) →
    ∃ t n u, exec .readByte s = .next t ∧ Reaches n t u ∧ u.pc = s.pc ∧ u.r.acc = v

/-! ### Command Transmitter (41_command.md) -/

/-- R142, R140, R69: SEND_COMMAND latches CMD1 and CMD2, sends exactly FRAME(CMD1, CMD2), samples
nothing, leaves the lines as R143 says (`FFS` as it was) and writes no register of the host but DONE;
so it does whatever the host accesses meanwhile (R84, R204; V-CMD-4 of 95_test_vectors.md; log entry 5),
whose writes are left in the host's registers. -/
def Obligations.SendCommandSendsItsFrame : Prop :=
  decodeOp 0x01 = .ok .sendCommand ∧
  ∀ s : State, s.pc = [] → ∃ t, exec .sendCommand s = .next t ∧
    t.r.lCmd1 = s.x.cmd1 ∧ t.r.lCmd2 = s.x.cmd2 ∧ t.x = { s.x with done := 0 } ∧ t.busy = true ∧
    (.reset ∉ s.inputs → ∃ n u used, Reaches n t u ∧ HostDid s u used ∧
      u.timeless = (({ s with
        pc := []
        x := { used.foldl HostRegs.accessed s.x with done := 1 }
        lines := ⟨1, 0, 0, s.lines.ffs⟩
        r := { s.r with
          curOp := 0x01, lCmd1 := s.x.cmd1, lCmd2 := s.x.cmd2, txByte := s.x.cmd2, bitCnt := 0 }
        trace := s.trace ++ [.opBegin 0x01] ++ frameTrace s.x.cmd1 s.x.cmd2 ++ [.opEnd 0x01]
        } : State).withHostSide u).timeless)

/-- R146, R148: INIT_DEFAULTS sends the frame of every table entry in order, each followed by its
delay if that is not 0, and writes no register of the host but DONE; the datapath is left with the
last entry's values; with N_CFG = 0 it makes no line event. So it does whatever the host accesses
meanwhile (log entry 5). -/
def Obligations.InitDefaultsSendsEveryEntry : Prop :=
  decodeOp 0x04 = .ok .initDefaults ∧
  ∀ s : State, s.pc = [] → ∃ t, exec .initDefaults s = .next t ∧ t.busy = true ∧
    (.reset ∉ s.inputs → ∃ n u used, Reaches n t u ∧ HostDid s u used ∧
      u.timeless = (({ s with
        pc := []
        x := { used.foldl HostRegs.accessed s.x with done := 1 }
        lines := if s.nCfg = 0 then s.lines else ⟨1, 0, 0, s.lines.ffs⟩
        r := if s.nCfg = 0 then { s.r with curOp := 0x04 } else { s.r with
          curOp := 0x04
          cfgIdx := s.nCfg - 1
          lCmd1 := (s.entry (s.nCfg.toNat - 1)).cmd1
          lCmd2 := (s.entry (s.nCfg.toNat - 1)).cmd2
          lDelay := (s.entry (s.nCfg.toNat - 1)).delayAfterUs
          txByte := (s.entry (s.nCfg.toNat - 1)).cmd2
          bitCnt := 0 }
        trace := s.trace ++ [.opBegin 0x04] ++ s.entries.flatMap entryTrace ++ [.opEnd 0x04]
        } : State).withHostSide u).timeless)

/-- R99, R100: entry k of a table occupies the offsets 4k .. 4k+3: cmd1, cmd2, the low and the high
byte of `delay_after_us`; read back, the entries are the table. -/
def Obligations.TableLayoutReadsBack : Prop :=
  ∀ (t : List CfgEntry) (s : State), cfgTableOk t = true → s.cfg = tableImage t →
    s.nCfg = tableCount t → s.entries = t ∧
    ∀ k e, t[k]? = some e →
      s.cfg.read (4 * k) = e.cmd1 ∧ s.cfg.read (4 * k + 1) = e.cmd2 ∧
      s.cfg.read (4 * k + 2) = e.delayAfterUs.extractLsb' 0 8 ∧
      s.cfg.read (4 * k + 3) = e.delayAfterUs.extractLsb' 8 8

/-- R64, 93 U12: a table read at or past 4·N_CFG stops (the model's treatment, log entry 10); one inside
gives the entry's four bytes. -/
def Obligations.TableReadsStayInside : Prop :=
  ∀ (s : State) (k : Nat) (rest : List Stmt), s.inputs = [] → s.pc = .prim (.memRead k) :: rest →
    if k < s.nCfg.toNat then
      ∃ t, step s = .next t ∧ t.pc = cfgSend k (s.entry k) ++ rest
    else step s = .fault (.cfgReadOutside (4 * k))

/-- R144, R95: a frame makes sixteen rises of `SCK`, and at the k-th (k = 1..16) `SDO` holds frame bit
16 − k of CMD1 ++ CMD2: of FRAME's trace, and of what a SEND_COMMAND run from `SCK` low appends,
whatever the host accesses meanwhile (log entry 5). -/
def Obligations.CommandFrameOnTheWire : Prop :=
  (∀ (sdo : Level) (c1 c2 : Byte),
    (sdoAtRises sdo 0 (frameTrace c1 c2)).length = 16 ∧
    ∀ k, 1 ≤ k → k ≤ 16 →
      (sdoAtRises sdo 0 (frameTrace c1 c2))[k - 1]? =
        some ((commandFrame c1 c2).extractLsb' (16 - k) 1)) ∧
  ∀ s : State, s.pc = [] → s.lines.sck = 0 → .reset ∉ s.inputs → Appends .sendCommand s fun es =>
    (sdoAtRises s.lines.sdo s.lines.sck es).length = 16 ∧
    ∀ k, 1 ≤ k → k ≤ 16 →
      (sdoAtRises s.lines.sdo s.lines.sck es)[k - 1]? =
        some ((commandFrame s.x.cmd1 s.x.cmd2).extractLsb' (16 - k) 1)

/-- R140: the frame body is 86 trace entries: 52 drives, 34 waits, no sample; so is what a SEND_COMMAND
appends between its markers, whatever the host accesses meanwhile (log entry 5). -/
def Obligations.FrameEntryCounts : Prop :=
  (∀ c1 c2 : Byte,
    (frameTrace c1 c2).length = 86 ∧
    (frameTrace c1 c2).countP Event.isDrv = 52 ∧
    (frameTrace c1 c2).countP Event.isWait = 34 ∧
    (frameTrace c1 c2).countP Event.isSmp = 0) ∧
  ∀ s : State, s.pc = [] → .reset ∉ s.inputs → Appends .sendCommand s fun es =>
    ∃ body, es = [.opBegin 0x01] ++ body ++ [.opEnd 0x01] ∧ body.length = 86 ∧
      body.countP Event.isDrv = 52 ∧ body.countP Event.isWait = 34 ∧ body.countP Event.isSmp = 0

/-! ### Status Reader (43_status_reader.md) -/

/-- R180, R182, R183: READ_STATUS clocks sixteen samples in with `SDO` low and no `FFS` event; SW0 and
SW1 take the two bytes at completion, and no other host register but DONE changes, whatever the host
accesses meanwhile (log entry 5). -/
def Obligations.ReadStatusReadsTheStatusWord : Prop :=
  decodeOp 0x03 = .ok .readStatus ∧
  ∀ s : State, s.pc = [] → ∃ t, exec .readStatus s = .next t ∧ t.busy = true ∧
    (.reset ∉ s.inputs → ∃ n u used, Reaches n t u ∧ HostDid s u used ∧
      u.timeless = (({ s with
        pc := []
        x := { used.foldl HostRegs.accessed s.x with done := 1, sw0 := s.sdiByte 0, sw1 := s.sdiByte 8 }
        lines := ⟨1, 0, 0, s.lines.ffs⟩
        r := { s.r with
          curOp := 0x03, bitCnt := 0, acc := s.sdiByte 8, rxBit := (s.sdiBits 16).getLastD 0
          swBuf0 := s.sdiByte 0, swBuf1 := s.sdiByte 8 }
        trace := s.trace ++ [.opBegin 0x03] ++ statusTrace (s.sdiBits 16) ++ [.opEnd 0x03]
        env := { s.env with sdi := s.env.sdi.popN 16 } } : State).withHostSide u).timeless)

/-- R181, R185: READ_STATUS is 86 trace entries: 36 drives, 34 waits, 16 samples; `FFS` is never
driven and `SDO` is low at all sixteen rises of `SCK`: of its trace with any sixteen samples, and of what
a READ_STATUS run from `SCK` low appends between its markers, whatever the host accesses meanwhile
(log entry 5). -/
def Obligations.StatusEntryCounts : Prop :=
  (∀ (bits : List Level) (sdo : Level), bits.length = 16 →
    (statusTrace bits).length = 86 ∧
    (statusTrace bits).countP Event.isDrv = 36 ∧
    (statusTrace bits).countP Event.isWait = 34 ∧
    (statusTrace bits).countP Event.isSmp = 16 ∧
    (statusTrace bits).countP (Event.drives .ffs) = 0 ∧
    sdoAtRises sdo 0 (statusTrace bits) = List.replicate 16 0) ∧
  ∀ s : State, s.pc = [] → s.lines.sck = 0 → .reset ∉ s.inputs → Appends .readStatus s fun es =>
    ∃ body, es = [.opBegin 0x03] ++ body ++ [.opEnd 0x03] ∧ body.length = 86 ∧
      body.countP Event.isDrv = 36 ∧ body.countP Event.isWait = 34 ∧ body.countP Event.isSmp = 16 ∧
      body.countP (Event.drives .ffs) = 0 ∧
      sdoAtRises s.lines.sdo s.lines.sck body = List.replicate 16 0

/-! ### Packet Receiver (42_packet_receiver.md) -/

/-- R160 to R169, R172: every RECEIVE_PACKET ends, in one of two ways. Either k ≥ 1 samples of `IRQ`
were all not ready (k = 1 if TIMEOUT = 0) and it ends with NoData and the packet (0, 0), no byte read;
or k samples were not ready (k = 0 if TIMEOUT = 0) and the next was, and two bytes are read, decoded
and checked. The other host registers but DONE are unchanged, `SDO` too. So it does whatever the host
accesses meanwhile (log entry 5). That it always ends is R162 (c), by the patience of log entry 4. -/
def Obligations.ReceivePacketEndsWithItsOutcome : Prop :=
  decodeOp 0x02 = .ok .receivePacket ∧
  ∀ s : State, s.pc = [] → ∃ t, exec .receivePacket s = .next t ∧ t.busy = true ∧
    t.r.lTimeout = s.x.timeout ∧
    (.reset ∉ s.inputs → ∃ n u used k, Reaches n t u ∧ HostDid s u used ∧
      (∀ j, j < k → s.irqAt j ≠ Config.irqActiveLevel) ∧
      ((1 ≤ k ∧ (s.x.timeout = 0 → k = 1) ∧
        u.timeless = (({ s with
          pc := []
          x := { used.foldl HostRegs.accessed s.x with
            done := 1, result := 0, pkt0 := 0x00, pkt1 := 0x00 }
          lines := { s.lines with sel := 1 }
          r := { s.r with curOp := 0x02, lTimeout := s.x.timeout, tStart := u.r.tStart }
          trace := s.trace ++ [.opBegin 0x02, .drv .sel 1] ++ notReadyTrace k ++ [.opEnd 0x02]
          env := { s.env with
            irq := s.env.irq.popN k
            patience := u.env.patience
            patienceDraws := s.env.patienceDraws.pop } } : State).withHostSide u).timeless) ∨
       ((s.x.timeout = 0 → k = 0) ∧ s.irqAt k = Config.irqActiveLevel ∧
        u.timeless = (({ s with
          pc := []
          x := { used.foldl HostRegs.accessed s.x with
            done := 1
            result := if localChecksum (s.sdiByte 0) (s.sdiByte 8) = rxChecksum (s.sdiByte 0)
              then 1 else 2
            pkt0 := (label (s.sdiByte 0)).zeroExtend 8
            pkt1 := s.sdiByte 8 }
          lines := { s.lines with sel := 1, sck := 0, ffs := 1 }
          r := { s.r with
            curOp := 0x02, lTimeout := s.x.timeout, tStart := u.r.tStart, bitCnt := 0
            acc := s.sdiByte 8, rxBit := (s.sdiBits 16).getLastD 0
            byte1 := s.sdiByte 0, byte2 := s.sdiByte 8 }
          trace := s.trace ++ [.opBegin 0x02, .drv .sel 1] ++ notReadyTrace k
            ++ [.smp .irq Config.irqActiveLevel]
            ++ packetTrace ((s.sdiBits 16).take 8) ((s.sdiBits 16).drop 8) ++ [.opEnd 0x02]
          env := { s.env with
            irq := s.env.irq.popN (k + 1)
            sdi := s.env.sdi.popN 16
            patience := u.env.patience
            patienceDraws := s.env.patienceDraws.pop } } : State).withHostSide u).timeless)))

/-- R171: a RECEIVE_PACKET that reads the two bytes of a valid frame of a label and a value ends with
RESULT = 1, PKT0 = label, PKT1 = value, whatever the host accesses meanwhile (log entry 5); it does read
them if the first sample of `IRQ` is ready. That it ends is R162 (c), by the patience of log entry 4. -/
def Obligations.ValidFrameIsReceived : Prop :=
  ∀ (s : State) (l : Nibble) (v : Byte), s.pc = [] → .reset ∉ s.inputs →
    s.sdiByte 0 = (v.extractLsb' 4 4 ^^^ v.extractLsb' 0 4 ^^^ l) ++ l → s.sdiByte 8 = v →
    ∃ t n u, exec .receivePacket s = .next t ∧ Reaches n t u ∧ u.pc = [] ∧ u.x.done = 1 ∧
      (u.env.sdi = s.env.sdi.popN 16 →
        u.x.result = 1 ∧ u.x.pkt0 = l.zeroExtend 8 ∧ u.x.pkt1 = v) ∧
      (s.nextIrq = Config.irqActiveLevel → u.env.sdi = s.env.sdi.popN 16)

/-- R166, R96: the check compares the exclusive-or of three nibbles with the fourth, so it passes
exactly when the exclusive-or of the frame's four nibbles is zero. -/
def Obligations.ChecksumIsTheXorOfFourNibbles : Prop :=
  ∀ b1 b2 : Byte,
    (packetPasses b1 b2 = true ↔
      b2.extractLsb' 4 4 ^^^ b2.extractLsb' 0 4 ^^^ b1.extractLsb' 0 4 = b1.extractLsb' 4 4) ∧
    (packetPasses b1 b2 = true ↔
      b1.extractLsb' 4 4 ^^^ b1.extractLsb' 0 4 ^^^ b2.extractLsb' 4 4 ^^^ b2.extractLsb' 0 4 = 0)

/-- R170: an error pattern leaves a passing frame passing exactly when the exclusive-or of its own
nibbles is zero; so no single-bit flip passes, and of the two-bit flips exactly those 24 do that flip
the same position in two nibbles. -/
def Obligations.UndetectedFlipsAreExactlyKnown : Prop :=
  (∀ b1 b2 e1 e2 : Byte, packetPasses b1 b2 = true →
    (packetPasses (b1 ^^^ e1) (b2 ^^^ e2) = true ↔
      e1.extractLsb' 4 4 ^^^ e1.extractLsb' 0 4 ^^^ e2.extractLsb' 4 4 ^^^ e2.extractLsb' 0 4 = 0)) ∧
  (∀ (b1 b2 : Byte) (i : Nat), i < 16 → packetPasses b1 b2 = true →
    packetPasses (b1 ^^^ (1#16 <<< i).extractLsb' 8 8) (b2 ^^^ (1#16 <<< i).extractLsb' 0 8)
      = false) ∧
  (∀ (b1 b2 : Byte) (i j : Nat), i < j → j < 16 → packetPasses b1 b2 = true →
    (packetPasses (b1 ^^^ (1#16 <<< i ||| 1#16 <<< j).extractLsb' 8 8)
        (b2 ^^^ (1#16 <<< i ||| 1#16 <<< j).extractLsb' 0 8) = true ↔ i % 4 = j % 4)) ∧
  ((List.range 16).flatMap fun i =>
    ((List.range 16).filter fun j => i < j && i % 4 == j % 4)).length = 24

/-- R161: step 3 records the timebase's count as the start time. -/
def Obligations.PollStartIsTheTimebase : Prop :=
  ∀ (s : State) (p : Stmt) (rest : List Stmt), s.inputs = [] →
    s.pc = .prim .setTStart :: p :: rest → p ≠ .complete →
    ∃ t, step s = .next t ∧ t.pc = p :: rest ∧ t.r.tStart = t.r.nowMs ∧
      t.r = { s.r with nowMs := t.r.nowMs, tStart := t.r.tStart }

/-- R162, R163: an iteration of the poll samples `IRQ`; a ready level ends the loop whatever the time;
otherwise the timeout test decides: it is true when the elapsed time modulo 2^32 has reached TIMEOUT, so always
when TIMEOUT = 0, and then the operation ends with NoData; when it is false, the level is sampled
again. -/
def Obligations.PollIterationFollowsLevelThenTime : Prop :=
  (∀ (s : State) (rest : List Stmt), s.inputs = [] → s.pc = .prim .sampleIrq :: rest →
    ∃ t, step s = .next t ∧ t.x = s.x ∧ t.lines = s.lines ∧
      t.trace = s.trace ++ [.smp .irq s.nextIrq] ∧ t.pc = .prim (.ifReady s.nextIrq) :: rest) ∧
  (∀ (s : State) (lvl : Level) (p : Stmt) (rest : List Stmt), s.inputs = [] →
    s.pc = .prim (.ifReady lvl) :: p :: rest → p ≠ .complete →
    ∃ t, step s = .next t ∧ t.x = s.x ∧ t.lines = s.lines ∧ t.trace = s.trace ∧
      t.pc = if lvl = Config.irqActiveLevel then p :: rest else .prim .ifExpired :: p :: rest) ∧
  (∀ (s : State) (rest : List Stmt), s.inputs = [] → s.pc = .prim .ifExpired :: rest →
    ∃ t, step s = .next t ∧ t.x = s.x ∧ t.lines = s.lines ∧ t.trace = s.trace ∧
      t.r = { s.r with nowMs := t.r.nowMs } ∧
      (t.pc = if s.r.lTimeout ≤ t.r.nowMs - s.r.tStart
        then [.prim (.setResult 0), .complete] else .prim .sampleIrq :: rest) ∧
      (s.r.lTimeout = 0 → t.pc = [.prim (.setResult 0), .complete]))

/-! ### Durations (70_reset_and_hazards.md R250) -/

/-- R127, R149, R186: the waits of the traces add up to the rules' minimum durations, and so do those
that a run of each instruction appends, whatever the host accesses meanwhile; a RECEIVE_PACKET that reads
its two bytes waits 32 µs for them (R173), one that does not waits for nothing but the poll. That the runs
end rests on log entries 4 and 5. -/
def Obligations.MinimumDurations : Prop :=
  (∀ b : Level, minMicros (sbTrace b) = 2 ∧ minMicros (rbTrace b) = 2) ∧
  (∀ v : Byte, minMicros (sendByteTrace v) = 16) ∧
  (∀ bits : List Level, bits.length = 8 → minMicros (readByteTrace bits) = 16) ∧
  (∀ c1 c2 : Byte, minMicros (frameTrace c1 c2) = 34) ∧
  (∀ es : List CfgEntry,
    minMicros (es.flatMap entryTrace) = (es.map fun e => 34 + e.delayAfterUs.toNat).sum) ∧
  (∀ bits : List Level, bits.length = 16 → minMicros (statusTrace bits) = 34) ∧
  ∀ s : State, .reset ∉ s.inputs →
    (s.pc.head? ≠ some .complete →
      (∀ b, Appends (.sendBit b) s fun es => minMicros es = 2) ∧
      (Appends .readBit s fun es => minMicros es = 2) ∧
      (∀ v, Appends (.sendByte v) s fun es => minMicros es = 16) ∧
      Appends .readByte s fun es => minMicros es = 16) ∧
    (s.pc = [] →
      (Appends .sendCommand s fun es => minMicros es = 34) ∧
      (Appends .initDefaults s fun es =>
        minMicros es = (s.entries.map fun e => 34 + e.delayAfterUs.toNat).sum) ∧
      (Appends .readStatus s fun es => minMicros es = 34) ∧
      Appends .receivePacket s fun es =>
        (es.countP (Event.drives .ffs) = 4 ∧ minMicros es = 32) ∨
        (es.countP (Event.drives .ffs) = 0 ∧ minMicros es = 0))

/-! ### The host port (20_memory.md) -/

/-- R25, R41: the bits of STATUS. -/
def Obligations.StatusBits : Prop :=
  ∀ s : State,
    (s.status.extractLsb' 0 1 = 1 ↔ s.pc ≠ []) ∧
    s.status.extractLsb' 1 1 = s.x.done ∧
    s.status.extractLsb' 2 1 = s.x.errIllegal ∧
    s.status.extractLsb' 3 1 = s.x.errOverlap ∧
    s.status.extractLsb' 4 4 = 0

/-- R66, R24, R34, R35: what each address reads as; R81, R182: while an operation runs, RESULT, SW0
and SW1 still read their content, and PKT0 and PKT1 read a byte the register can hold (log entry 7). -/
def Obligations.HostReadsByAddress : Prop :=
  ∀ s : State,
    s.readValue (HostReg.ofAddr 0x0) = 0x00 ∧
    s.readValue (HostReg.ofAddr 0x1) = s.status ∧
    s.readValue (HostReg.ofAddr 0x2) = s.x.result.zeroExtend 8 ∧
    s.readValue (HostReg.ofAddr 0x3) = s.x.cmd1 ∧
    s.readValue (HostReg.ofAddr 0x4) = s.x.cmd2 ∧
    s.readValue (HostReg.ofAddr 0x5) = 0x00 ∧
    (s.busy = false → s.readValue (HostReg.ofAddr 0x6) = s.x.pkt0) ∧
    (s.busy = false → s.readValue (HostReg.ofAddr 0x7) = s.x.pkt1) ∧
    (s.x.pkt0.extractLsb' 4 4 = 0 → (s.readValue (HostReg.ofAddr 0x6)).extractLsb' 4 4 = 0) ∧
    s.readValue (HostReg.ofAddr 0x8) = s.x.timeout.extractLsb' 0 8 ∧
    s.readValue (HostReg.ofAddr 0x9) = s.x.timeout.extractLsb' 8 8 ∧
    s.readValue (HostReg.ofAddr 0xA) = s.x.timeout.extractLsb' 16 8 ∧
    s.readValue (HostReg.ofAddr 0xB) = s.x.timeout.extractLsb' 24 8 ∧
    s.readValue (HostReg.ofAddr 0xC) = s.x.sw0 ∧
    s.readValue (HostReg.ofAddr 0xD) = s.x.sw1 ∧
    (s.readValue (HostReg.ofAddr 0xE)).extractLsb' 0 1 = s.lines.sel ∧
    (s.readValue (HostReg.ofAddr 0xE)).extractLsb' 1 1 = s.lines.sck ∧
    (s.readValue (HostReg.ofAddr 0xE)).extractLsb' 2 1 = s.lines.sdo ∧
    (s.readValue (HostReg.ofAddr 0xE)).extractLsb' 3 1 = s.lines.ffs ∧
    (s.readValue (HostReg.ofAddr 0xE)).extractLsb' 4 2 = s.nextLinesIn ∧
    (s.readValue (HostReg.ofAddr 0xE)).extractLsb' 6 2 = 0 ∧
    s.readValue (HostReg.ofAddr 0xF) = 0x00

/-- R75, R66: a host read answers the byte its register reads as and changes nothing of the engine, its
lines or its trace. -/
def Obligations.HostReadHasNoSideEffect : Prop :=
  ∀ (s : State) (a : HostAddr) (rest : List Input), s.hostMoves = true →
    s.inputs = .read a :: rest → ∃ t, step s = .next t ∧
      t.hostLog = s.hostLog ++ [⟨a, s.readValue (HostReg.ofAddr a)⟩] ∧
      t.lines = s.lines ∧ t.x = s.x ∧ t.r = { s.r with nowMs := t.r.nowMs } ∧ t.pc = s.pc ∧
      t.cfg = s.cfg ∧ t.nCfg = s.nCfg ∧ t.trace = s.trace ∧ t.inputs = rest ∧
      t.env.sdi = s.env.sdi ∧ t.env.irq = s.env.irq

/-- R102: WAIT_IDLE reads STATUS again and again while bit 0 of the value read is 1, and is done with
the first read in which it is 0. -/
def Obligations.WaitIdleReadsStatusUntilIdle : Prop :=
  ∀ (s : State) (rest : List Input), s.hostMoves = true → s.inputs = .waitIdle :: rest →
    ∃ t, step s = .next t ∧ t.hostLog = s.hostLog ++ [⟨0x1, s.status⟩] ∧
      t.inputs = (if s.pc = [] then rest else .waitIdle :: rest) ∧
      t.pc = s.pc ∧ t.lines = s.lines ∧ t.x = s.x ∧ t.trace = s.trace

/-- R67, R69, R84: a host write of an operand register is done whether or not an operation runs; it
changes that register alone, so not the running operation. Writes of read-only and reserved addresses
change nothing. So `hostWrite`, and so the step in which the access is made. -/
def Obligations.HostWritesOfRegisters : Prop :=
  (∀ (s : State) (v : Byte),
    hostWrite 0x3 v s = .next { s with x := { s.x with cmd1 := v } } ∧
    hostWrite 0x4 v s = .next { s with x := { s.x with cmd2 := v } } ∧
    hostWrite 0x8 v s = .next { s with x := { s.x with timeout0 := v } } ∧
    hostWrite 0x9 v s = .next { s with x := { s.x with timeout1 := v } } ∧
    hostWrite 0xA v s = .next { s with x := { s.x with timeout2 := v } } ∧
    hostWrite 0xB v s = .next { s with x := { s.x with timeout3 := v } } ∧
    ∀ a, a ∈ [0x2, 0x5, 0x6, 0x7, 0xC, 0xD, 0xE, 0xF] → hostWrite a v s = .next s) ∧
  ∀ (s : State) (a : HostAddr) (v : Byte) (rest : List Input), s.hostMoves = true →
    s.inputs = .write a v :: rest → a ≠ 0x0 → a ≠ 0x1 → ∃ t, step s = .next t ∧
      t.timeless = ({ s with x := t.x, inputs := rest } : State).timeless ∧
      (a = 0x3 → t.x = { s.x with cmd1 := v }) ∧
      (a = 0x4 → t.x = { s.x with cmd2 := v }) ∧
      (a = 0x8 → t.x = { s.x with timeout0 := v }) ∧
      (a = 0x9 → t.x = { s.x with timeout1 := v }) ∧
      (a = 0xA → t.x = { s.x with timeout2 := v }) ∧
      (a = 0xB → t.x = { s.x with timeout3 := v }) ∧
      (a ∈ [0x2, 0x5, 0x6, 0x7, 0xC, 0xD, 0xE, 0xF] → t.x = s.x)

/-- R67, R25: a host write of STATUS clears an error flag where it writes a 1 and changes nothing
else. So `hostWrite`, and so the step in which the access is made. -/
def Obligations.StatusWriteOneToClear : Prop :=
  (∀ (s : State) (v : Byte), ∃ t, hostWrite 0x1 v s = .next t ∧
    t.x.errIllegal = (if v.getLsbD 2 then 0 else s.x.errIllegal) ∧
    t.x.errOverlap = (if v.getLsbD 3 then 0 else s.x.errOverlap) ∧
    t = { s with x := { s.x with errIllegal := t.x.errIllegal, errOverlap := t.x.errOverlap } }) ∧
  ∀ (s : State) (v : Byte) (rest : List Input), s.hostMoves = true →
    s.inputs = .write 0x1 v :: rest → ∃ t, step s = .next t ∧
      t.x = { s.x with
        errIllegal := if v.getLsbD 2 then 0 else s.x.errIllegal
        errOverlap := if v.getLsbD 3 then 0 else s.x.errOverlap } ∧
      t.timeless = ({ s with x := t.x, inputs := rest } : State).timeless

/-- R204, R205: a host write of OP while an operation runs, whatever its byte, sets ERR_OVERLAP and
changes nothing else; so does the step in which the access is made, and so does any of the four
operations launched then. -/
def Obligations.OverlappingLaunchOnlySetsItsFlag : Prop :=
  ∀ s : State, s.busy = true →
    (∀ v, hostWrite 0x0 v s = .next { s with x := { s.x with errOverlap := 1 } }) ∧
    (∀ i, i ∈ [Instr.sendCommand, .receivePacket, .readStatus, .initDefaults] →
      exec i s = .next { s with x := { s.x with errOverlap := 1 } }) ∧
    ∀ v rest, s.hostMoves = true → s.inputs = .write 0x0 v :: rest → ∃ t, step s = .next t ∧
      t.timeless = ({ s with
        x := { s.x with errOverlap := 1 }, inputs := rest } : State).timeless

/-- R203, R93: a host write of OP with a code other than 0x01..0x04 to an idle engine sets ERR_ILLEGAL
and changes nothing else; so does the step in which the access is made. -/
def Obligations.IllegalCodeOnlySetsItsFlag : Prop :=
  ∀ (s : State) (v : Byte), s.busy = false → v ≠ 0x01 → v ≠ 0x02 → v ≠ 0x03 → v ≠ 0x04 →
    hostWrite 0x0 v s = .next { s with x := { s.x with errIllegal := 1 } } ∧
    ∀ rest, s.inputs = .write 0x0 v :: rest → ∃ t, step s = .next t ∧
      t.timeless = ({ s with
        x := { s.x with errIllegal := 1 }, inputs := rest } : State).timeless

/-- R29, R69, R71: four byte writes of TIMEOUT, lowest address first, and a launch latch the 32-bit
number little-endian. -/
def Obligations.TimeoutIsLittleEndian : Prop :=
  ∀ (s : State) (t : Word) (rest : List Input), s.pc = [] →
    s.inputs = wr .timeout0 (t.extractLsb' 0 8) :: wr .timeout1 (t.extractLsb' 8 8) ::
      wr .timeout2 (t.extractLsb' 16 8) :: wr .timeout3 (t.extractLsb' 24 8) ::
      wr .op 0x02 :: rest →
    ∃ u, Reaches 5 s u ∧ u.r.lTimeout = t ∧ u.r.curOp = 0x02 ∧ u.busy = true ∧ u.inputs = rest

/-! ### Reset (70_reset_and_hazards.md) -/

/-- R230, R231, R232: the reset input, at any moment: idle, the lines at their reset levels, every
host and datapath register 0; the table is kept and the line events already made stay in the trace. That
the trace goes on with the four drives and no `end` marker is the model's choice (log entry 2). -/
def Obligations.ResetInputAbandonsTheOperation : Prop :=
  ∀ (s : State) (rest : List Input), s.hostMoves = true → s.inputs = .reset :: rest →
    ∃ t, step s = .next t ∧ t.pc = [] ∧ t.lines = ⟨1, 0, 0, 1⟩ ∧
      t.x = State.reset.x ∧ t.r = State.reset.r ∧ t.cfg = s.cfg ∧ t.nCfg = s.nCfg ∧
      t.trace = s.trace ++ [.drv .sel 1, .drv .sck 0, .drv .sdo 0, .drv .ffs 1] ∧
      t.inputs = rest ∧ t.hostLog = s.hostLog

/-- R232: the values after reset: every address but LINES reads 0x00, the lines are at 1, 0, 0, 1, the
engine is idle and every datapath register is 0. -/
def Obligations.ResetValues : Prop :=
  State.reset.pc = [] ∧ State.reset.lines = ⟨1, 0, 0, 1⟩ ∧
  (∀ a : HostAddr, a ≠ 0xE → State.reset.readValue (HostReg.ofAddr a) = 0x00) ∧
  (State.reset.readValue (HostReg.ofAddr 0xE)).extractLsb' 0 4 = 0b1001 ∧
  State.reset.r = ⟨0, 0, 0, 0, 0, 0, 0, 0, 0, 0, 0, 0, 0, 0, 0, 0⟩

/-! ### The whole machine -/

/-- R46, R126, R25, R26, R30, R41: the invariant of the engine is kept by every step, whoever's it is. -/
def Obligations.EngineInvariantIsKept : Prop :=
  ∀ s t : State, EngineInv s → step s = .next t → EngineInv t

/-- The invariant holds after reset, whatever the configuration table. -/
def Obligations.EngineInvariantHoldsAtReset : Prop := EngineInv State.reset

/-- R15, R200, 93 §1: from a state of the invariant no step faults or is refused. That an idle engine with
nothing pending still has a next state is the model's (log entry 18). -/
def Obligations.EngineNeverStops : Prop :=
  ∀ s : State, EngineInv s → ∃ t, step s = .next t

/-- R162 (c), 93 U24: every operation ends, whatever the chip answers and whatever host accesses fall
in between; that these are finitely many between two sequencer steps is the model's (log entry 5). -/
def Obligations.EveryOperationEnds : Prop :=
  ∀ s : State, EngineInv s → ∃ n t, Reaches n s t ∧ t.pc = [] ∧ EngineInv t

/-- R46, R126: in a state of the invariant an idle engine's lines are idle, and `SCK` is low wherever
the sequencer stands at a micro-operation. -/
def Obligations.IdleLinesAndLowClock : Prop :=
  ∀ s : State, EngineInv s →
    (s.pc = [] → s.lines = ⟨1, 0, 0, 1⟩) ∧
    (∀ c rest, s.pc = .call c :: rest → s.lines.sck = 0)

/-- R44, R63, R84: no step writes the configuration table. -/
def Obligations.TableIsNeverWritten : Prop :=
  ∀ s t : State, step s = .next t → t.cfg = s.cfg ∧ t.nCfg = s.nCfg

/-- R75, R20: a step only appends to the trace, and the lines change exactly as the entries it appends
drive them. -/
def Obligations.TraceGrowsAndTellsTheLines : Prop :=
  ∀ s t : State, step s = .next t →
    ∃ es, t.trace = s.trace ++ es ∧ t.lines = s.lines.afterAll es

/-- R65, R69, R84, R204: while an operation runs, a host access other than reset changes neither the
operation's position, the lines, the trace, the datapath nor the samples to come. -/
def Obligations.HostCannotDisturbARunningOperation : Prop :=
  ∀ s t : State, s.busy = true → s.hostMoves = true → s.resets = false → step s = .next t →
    t.pc = s.pc ∧ t.lines = s.lines ∧ t.trace = s.trace ∧
    t.r = { s.r with nowMs := t.r.nowMs } ∧ t.env.sdi = s.env.sdi ∧ t.env.irq = s.env.irq ∧
    t.x.result = s.x.result ∧ t.x.pkt0 = s.x.pkt0 ∧ t.x.pkt1 = s.x.pkt1 ∧ t.x.sw0 = s.x.sw0 ∧
    t.x.sw1 = s.x.sw1 ∧ t.x.done = s.x.done

/-- R43, R202: an error flag that is 0 becomes 1 exactly by its own misuse at the host port: an OP
write while busy, an OP write of an illegal code while idle. -/
def Obligations.ErrorFlagsRiseOnlyByMisuse : Prop :=
  ∀ s t : State, step s = .next t →
    (s.x.errOverlap = 0 → (t.x.errOverlap = 1 ↔ s.overlaps = true)) ∧
    (s.x.errIllegal = 0 → (t.x.errIllegal = 1 ↔ s.launchesIllegal = true))

/-- R43, R202: an error flag that is 1 stays 1 unless the host writes STATUS or resets the engine. -/
def Obligations.ErrorFlagsAreSticky : Prop :=
  ∀ s t : State, step s = .next t → s.resets = false →
    (s.hostMoves = true → ∀ v rest, s.inputs ≠ wr .status v :: rest) →
    (s.x.errOverlap = 1 → t.x.errOverlap = 1) ∧ (s.x.errIllegal = 1 → t.x.errIllegal = 1)

/-- R43, R25: DONE rises only in the step in which an operation ends, and falls only in the step in
which one is launched or the engine is reset. -/
def Obligations.DoneFollowsTheOperations : Prop :=
  ∀ s t : State, step s = .next t →
    (s.x.done = 0 → t.x.done = 1 → s.busy = true ∧ t.busy = false) ∧
    (s.x.done = 1 → t.x.done = 0 → s.resets = true ∨ (s.busy = false ∧ t.busy = true))

/-- R209, R65: in a state of the invariant the engine samples `IRQ` only at the poll of a running
RECEIVE_PACKET, with the lines idle, and `SDI` only in a bit step (R121, R181): at its sample, in a running
RECEIVE_PACKET or READ_STATUS, with `SCK` high and `FFS` or `SEL` low. R209 also names host reads of LINES:
those, and nothing else, draw the levels they see from a supply of their own (log entry 8), with no trace
entry (R34). -/
def Obligations.InputLinesAreSampledOnlyWhereSaid : Prop :=
  ∀ s t : State, EngineInv s → step s = .next t →
    (t.env.irq ≠ s.env.irq → s.hostMoves = false ∧ s.pc.head? = some (.prim .sampleIrq) ∧
      s.r.curOp = 0x02 ∧ phaseOf s.pc = .poll ∧ s.lines = ⟨1, 0, 0, 1⟩) ∧
    (t.env.sdi ≠ s.env.sdi → s.hostMoves = false ∧ s.pc.head? = some (.prim .sampleSdi) ∧
      (s.r.curOp = 0x02 ∨ s.r.curOp = 0x03) ∧ s.lines.sck = 1 ∧
      (s.lines.ffs = 0 ∨ s.lines.sel = 0)) ∧
    (t.env.linesIn ≠ s.env.linesIn → s.hostMoves = true ∧ t.trace = s.trace ∧
      ∃ a rest, s.inputs = .read a :: rest ∧ HostReg.ofAddr a = .lines)

/-- R43, R182: in a state of the invariant only a step of a running RECEIVE_PACKET writes RESULT and the
packet registers, and only a step of a running READ_STATUS writes SW0 and SW1, both at once; reset
apart. -/
def Obligations.OnlyItsOperationWritesAResult : Prop :=
  ∀ s t : State, EngineInv s → step s = .next t → s.resets = false →
    (t.x.result ≠ s.x.result ∨ t.x.pkt0 ≠ s.x.pkt0 ∨ t.x.pkt1 ≠ s.x.pkt1 →
      s.busy = true ∧ s.hostMoves = false ∧ s.r.curOp = 0x02) ∧
    (t.x.sw0 ≠ s.x.sw0 ∨ t.x.sw1 ≠ s.x.sw1 →
      s.busy = true ∧ s.hostMoves = false ∧ s.r.curOp = 0x03 ∧
      t.x.sw0 = s.r.swBuf0 ∧ t.x.sw1 = s.r.swBuf1)

/-- R14, R79: host accesses may fall before every sequencer step, the first after a launch included. How
many is a number drawn at the launch and at every step (the model's supply, log entry 5); while an
operation runs the host moves exactly while some are left. So a read of STATUS may follow the launch at
once, before the first step, and reads BUSY = 1, DONE = 0, even with N_CFG = 0. -/
def Obligations.AccessesMayFallBeforeEveryStep : Prop :=
  (∀ (s : State) (i : Input) (rest : List Input), s.busy = true → s.inputs = i :: rest →
    (s.hostMoves = true ↔ 0 < s.env.turnsLeft)) ∧
  (∀ (s : State) (i : Instr), s.pc = [] →
    i ∈ [Instr.sendCommand, .receivePacket, .readStatus, .initDefaults] →
    ∃ t, exec i s = .next t ∧ t.env.turnsLeft = s.env.turnDraws.peek Config.freeTurns) ∧
  (∀ s t : State, s.hostMoves = false → step s = .next t →
    t.env.turnsLeft = s.env.turnDraws.peek Config.freeTurns) ∧
  (∀ (s : State) (v : Byte) (rest : List Input), s.pc = [] → opCodeOk v = true →
    s.inputs = wr .op v :: rd .status :: rest → 0 < s.env.turnDraws.peek Config.freeTurns →
    ∃ t u b, step s = .next t ∧ step t = .next u ∧ t.pc ≠ [] ∧ u.pc = t.pc ∧ u.inputs = rest ∧
      u.trace = s.trace ++ [.opBegin v] ∧
      u.hostLog = s.hostLog ++ [⟨0x1, b⟩] ∧ b.extractLsb' 0 2 = 0b01)
end

