-- ==== Sys2Proof/Laws/State.lean ====
section
/-! SUPPORT. One lemma per field per update of the state, true by rfl, so that no later proof
unfolds a record update. -/

namespace Sys2Proof.Machine

variable (s : State)

@[simp] theorem State.emit_lines (e : Event) : (s.emit e).lines = s.lines := rfl
@[simp] theorem State.emit_x (e : Event) : (s.emit e).x = s.x := rfl
@[simp] theorem State.emit_r (e : Event) : (s.emit e).r = s.r := rfl
@[simp] theorem State.emit_pc (e : Event) : (s.emit e).pc = s.pc := rfl
@[simp] theorem State.emit_cfg (e : Event) : (s.emit e).cfg = s.cfg := rfl
@[simp] theorem State.emit_nCfg (e : Event) : (s.emit e).nCfg = s.nCfg := rfl
@[simp] theorem State.emit_trace (e : Event) : (s.emit e).trace = s.trace ++ [e] := rfl
@[simp] theorem State.emit_inputs (e : Event) : (s.emit e).inputs = s.inputs := rfl
@[simp] theorem State.emit_hostLog (e : Event) : (s.emit e).hostLog = s.hostLog := rfl
@[simp] theorem State.emit_env (e : Event) : (s.emit e).env = s.env := rfl

@[simp] theorem State.drive_lines (l : OutLine) (v : Level) : (s.drive l v).lines =
    s.lines.set l v := rfl
@[simp] theorem State.drive_x (l : OutLine) (v : Level) : (s.drive l v).x = s.x := rfl
@[simp] theorem State.drive_r (l : OutLine) (v : Level) : (s.drive l v).r = s.r := rfl
@[simp] theorem State.drive_pc (l : OutLine) (v : Level) : (s.drive l v).pc = s.pc := rfl
@[simp] theorem State.drive_cfg (l : OutLine) (v : Level) : (s.drive l v).cfg = s.cfg := rfl
@[simp] theorem State.drive_nCfg (l : OutLine) (v : Level) : (s.drive l v).nCfg = s.nCfg := rfl
@[simp] theorem State.drive_trace (l : OutLine) (v : Level) : (s.drive l v).trace =
    s.trace ++ [.drv l v] := rfl
@[simp] theorem State.drive_inputs (l : OutLine) (v : Level) : (s.drive l v).inputs =
    s.inputs := rfl
@[simp] theorem State.drive_hostLog (l : OutLine) (v : Level) : (s.drive l v).hostLog =
    s.hostLog := rfl
@[simp] theorem State.drive_env (l : OutLine) (v : Level) : (s.drive l v).env = s.env := rfl

@[simp] theorem State.waitMin_lines (n : Nat) : (s.waitMin n).lines = s.lines := rfl
@[simp] theorem State.waitMin_x (n : Nat) : (s.waitMin n).x = s.x := rfl
@[simp] theorem State.waitMin_r (n : Nat) : (s.waitMin n).r = s.r := rfl
@[simp] theorem State.waitMin_pc (n : Nat) : (s.waitMin n).pc = s.pc := rfl
@[simp] theorem State.waitMin_cfg (n : Nat) : (s.waitMin n).cfg = s.cfg := rfl
@[simp] theorem State.waitMin_nCfg (n : Nat) : (s.waitMin n).nCfg = s.nCfg := rfl
@[simp] theorem State.waitMin_trace (n : Nat) : (s.waitMin n).trace = s.trace ++ [.wait n] := rfl
@[simp] theorem State.waitMin_inputs (n : Nat) : (s.waitMin n).inputs = s.inputs := rfl
@[simp] theorem State.waitMin_hostLog (n : Nat) : (s.waitMin n).hostLog = s.hostLog := rfl
@[simp] theorem State.waitMin_env (n : Nat) : (s.waitMin n).env = s.env := rfl

@[simp] theorem State.sampleSdi_lines : (s.sampleSdi).lines = s.lines := rfl
@[simp] theorem State.sampleSdi_x : (s.sampleSdi).x = s.x := rfl
@[simp] theorem State.sampleSdi_r : (s.sampleSdi).r = { s.r with rxBit := s.nextSdi } := rfl
@[simp] theorem State.sampleSdi_pc : (s.sampleSdi).pc = s.pc := rfl
@[simp] theorem State.sampleSdi_cfg : (s.sampleSdi).cfg = s.cfg := rfl
@[simp] theorem State.sampleSdi_nCfg : (s.sampleSdi).nCfg = s.nCfg := rfl
@[simp] theorem State.sampleSdi_trace : (s.sampleSdi).trace =
    s.trace ++ [.smp .sdi s.nextSdi] := rfl
@[simp] theorem State.sampleSdi_inputs : (s.sampleSdi).inputs = s.inputs := rfl
@[simp] theorem State.sampleSdi_hostLog : (s.sampleSdi).hostLog = s.hostLog := rfl
@[simp] theorem State.sampleSdi_env : (s.sampleSdi).env = { s.env with sdi := s.env.sdi.pop } := rfl

@[simp] theorem State.sampleIrq_lines : (s.sampleIrq).lines = s.lines := rfl
@[simp] theorem State.sampleIrq_x : (s.sampleIrq).x = s.x := rfl
@[simp] theorem State.sampleIrq_r : (s.sampleIrq).r = s.r := rfl
@[simp] theorem State.sampleIrq_pc : (s.sampleIrq).pc = s.pc := rfl
@[simp] theorem State.sampleIrq_cfg : (s.sampleIrq).cfg = s.cfg := rfl
@[simp] theorem State.sampleIrq_nCfg : (s.sampleIrq).nCfg = s.nCfg := rfl
@[simp] theorem State.sampleIrq_trace : (s.sampleIrq).trace =
    s.trace ++ [.smp .irq s.nextIrq] := rfl
@[simp] theorem State.sampleIrq_inputs : (s.sampleIrq).inputs = s.inputs := rfl
@[simp] theorem State.sampleIrq_hostLog : (s.sampleIrq).hostLog = s.hostLog := rfl
@[simp] theorem State.sampleIrq_env : (s.sampleIrq).env = { s.env with irq := s.env.irq.pop } := rfl

@[simp] theorem State.tick_lines : (s.tick).lines = s.lines := rfl
@[simp] theorem State.tick_x : (s.tick).x = s.x := rfl
@[simp] theorem State.tick_r : (s.tick).r = s.r.passMs (s.env.ticks.peek Config.freeTicks) := rfl
@[simp] theorem State.tick_pc : (s.tick).pc = s.pc := rfl
@[simp] theorem State.tick_cfg : (s.tick).cfg = s.cfg := rfl
@[simp] theorem State.tick_nCfg : (s.tick).nCfg = s.nCfg := rfl
@[simp] theorem State.tick_trace : (s.tick).trace = s.trace := rfl
@[simp] theorem State.tick_inputs : (s.tick).inputs = s.inputs := rfl
@[simp] theorem State.tick_hostLog : (s.tick).hostLog = s.hostLog := rfl
@[simp] theorem State.tick_env : (s.tick).env = { s.env with ticks := s.env.ticks.pop } := rfl

@[simp] theorem State.startPoll_lines : (s.startPoll).lines = s.lines := rfl
@[simp] theorem State.startPoll_x : (s.startPoll).x = s.x := rfl
@[simp] theorem State.startPoll_r : (s.startPoll).r = { s.r with tStart := s.r.nowMs } := rfl
@[simp] theorem State.startPoll_pc : (s.startPoll).pc = s.pc := rfl
@[simp] theorem State.startPoll_cfg : (s.startPoll).cfg = s.cfg := rfl
@[simp] theorem State.startPoll_nCfg : (s.startPoll).nCfg = s.nCfg := rfl
@[simp] theorem State.startPoll_trace : (s.startPoll).trace = s.trace := rfl
@[simp] theorem State.startPoll_inputs : (s.startPoll).inputs = s.inputs := rfl
@[simp] theorem State.startPoll_hostLog : (s.startPoll).hostLog = s.hostLog := rfl
@[simp] theorem State.startPoll_env : (s.startPoll).env =
    { s.env with patience := s.env.patienceDraws.peek Config.freePatience, patienceDraws := s.env.patienceDraws.pop } := rfl

@[simp] theorem State.beforeExpired_lines : (s.beforeExpired).lines = s.lines := rfl
@[simp] theorem State.beforeExpired_x : (s.beforeExpired).x = s.x := rfl
@[simp] theorem State.beforeExpired_r : (s.beforeExpired).r =
    if s.env.patience = 0 then s.r.waitOut else s.r := rfl
@[simp] theorem State.beforeExpired_pc : (s.beforeExpired).pc = s.pc := rfl
@[simp] theorem State.beforeExpired_cfg : (s.beforeExpired).cfg = s.cfg := rfl
@[simp] theorem State.beforeExpired_nCfg : (s.beforeExpired).nCfg = s.nCfg := rfl
@[simp] theorem State.beforeExpired_trace : (s.beforeExpired).trace = s.trace := rfl
@[simp] theorem State.beforeExpired_inputs : (s.beforeExpired).inputs = s.inputs := rfl
@[simp] theorem State.beforeExpired_hostLog : (s.beforeExpired).hostLog = s.hostLog := rfl
@[simp] theorem State.beforeExpired_env : (s.beforeExpired).env =
    { s.env with patience := s.env.patience - 1 } := rfl

@[simp] theorem State.complete_lines : (s.complete).lines = s.lines := rfl
@[simp] theorem State.complete_x : (s.complete).x = { s.x with done := 1 } := rfl
@[simp] theorem State.complete_r : (s.complete).r = s.r := rfl
@[simp] theorem State.complete_pc : (s.complete).pc = [] := rfl
@[simp] theorem State.complete_cfg : (s.complete).cfg = s.cfg := rfl
@[simp] theorem State.complete_nCfg : (s.complete).nCfg = s.nCfg := rfl
@[simp] theorem State.complete_trace : (s.complete).trace = s.trace ++ [.opEnd s.r.curOp] := rfl
@[simp] theorem State.complete_inputs : (s.complete).inputs = s.inputs := rfl
@[simp] theorem State.complete_hostLog : (s.complete).hostLog = s.hostLog := rfl
@[simp] theorem State.complete_env : (s.complete).env = s.env := rfl

@[simp] theorem State.launched_lines (c : Byte) (d : Datapath) (p : List Stmt) : (s.launched c d p).lines =
    s.lines := rfl
@[simp] theorem State.launched_x (c : Byte) (d : Datapath) (p : List Stmt) : (s.launched c d p).x =
    { s.x with done := 0 } := rfl
@[simp] theorem State.launched_r (c : Byte) (d : Datapath) (p : List Stmt) : (s.launched c d p).r =
    { d with curOp := c } := rfl
@[simp] theorem State.launched_pc (c : Byte) (d : Datapath) (p : List Stmt) : (s.launched c d p).pc =
    p := rfl
@[simp] theorem State.launched_cfg (c : Byte) (d : Datapath) (p : List Stmt) : (s.launched c d p).cfg =
    s.cfg := rfl
@[simp] theorem State.launched_nCfg (c : Byte) (d : Datapath) (p : List Stmt) : (s.launched c d p).nCfg =
    s.nCfg := rfl
@[simp] theorem State.launched_trace (c : Byte) (d : Datapath) (p : List Stmt) : (s.launched c d p).trace =
    s.trace ++ [.opBegin c] := rfl
@[simp] theorem State.launched_inputs (c : Byte) (d : Datapath) (p : List Stmt) : (s.launched c d p).inputs =
    s.inputs := rfl
@[simp] theorem State.launched_hostLog (c : Byte) (d : Datapath) (p : List Stmt) : (s.launched c d p).hostLog =
    s.hostLog := rfl
@[simp] theorem State.launched_env (c : Byte) (d : Datapath) (p : List Stmt) : (s.launched c d p).env =
    s.env.drawTurns := rfl

@[simp] theorem State.applyReset_lines : (s.applyReset).lines = .reset := rfl
@[simp] theorem State.applyReset_x : (s.applyReset).x = .reset := rfl
@[simp] theorem State.applyReset_r : (s.applyReset).r = .reset := rfl
@[simp] theorem State.applyReset_pc : (s.applyReset).pc = [] := rfl
@[simp] theorem State.applyReset_cfg : (s.applyReset).cfg = s.cfg := rfl
@[simp] theorem State.applyReset_nCfg : (s.applyReset).nCfg = s.nCfg := rfl
@[simp] theorem State.applyReset_trace : (s.applyReset).trace =
    s.trace ++ [.drv .sel 1, .drv .sck 0, .drv .sdo 0, .drv .ffs 1] := rfl
@[simp] theorem State.applyReset_inputs : (s.applyReset).inputs = s.inputs := rfl
@[simp] theorem State.applyReset_hostLog : (s.applyReset).hostLog = s.hostLog := rfl
@[simp] theorem State.applyReset_env : (s.applyReset).env = s.env := rfl

@[simp] theorem State.reply_lines (a : HostAddr) (v : Byte) : (s.reply a v).lines = s.lines := rfl
@[simp] theorem State.reply_x (a : HostAddr) (v : Byte) : (s.reply a v).x = s.x := rfl
@[simp] theorem State.reply_r (a : HostAddr) (v : Byte) : (s.reply a v).r = s.r := rfl
@[simp] theorem State.reply_pc (a : HostAddr) (v : Byte) : (s.reply a v).pc = s.pc := rfl
@[simp] theorem State.reply_cfg (a : HostAddr) (v : Byte) : (s.reply a v).cfg = s.cfg := rfl
@[simp] theorem State.reply_nCfg (a : HostAddr) (v : Byte) : (s.reply a v).nCfg = s.nCfg := rfl
@[simp] theorem State.reply_trace (a : HostAddr) (v : Byte) : (s.reply a v).trace = s.trace := rfl
@[simp] theorem State.reply_inputs (a : HostAddr) (v : Byte) : (s.reply a v).inputs =
    s.inputs := rfl
@[simp] theorem State.reply_hostLog (a : HostAddr) (v : Byte) : (s.reply a v).hostLog =
    s.hostLog ++ [⟨a, v⟩] := rfl
@[simp] theorem State.reply_env (a : HostAddr) (v : Byte) : (s.reply a v).env = s.env := rfl

@[simp] theorem State.push_lines (p : List Stmt) : (s.push p).lines = s.lines := rfl
@[simp] theorem State.push_x (p : List Stmt) : (s.push p).x = s.x := rfl
@[simp] theorem State.push_r (p : List Stmt) : (s.push p).r = s.r := rfl
@[simp] theorem State.push_pc (p : List Stmt) : (s.push p).pc = p ++ s.pc := rfl
@[simp] theorem State.push_cfg (p : List Stmt) : (s.push p).cfg = s.cfg := rfl
@[simp] theorem State.push_nCfg (p : List Stmt) : (s.push p).nCfg = s.nCfg := rfl
@[simp] theorem State.push_trace (p : List Stmt) : (s.push p).trace = s.trace := rfl
@[simp] theorem State.push_inputs (p : List Stmt) : (s.push p).inputs = s.inputs := rfl
@[simp] theorem State.push_hostLog (p : List Stmt) : (s.push p).hostLog = s.hostLog := rfl
@[simp] theorem State.push_env (p : List Stmt) : (s.push p).env = s.env := rfl

@[simp] theorem State.clearErrors_lines (v : Byte) : (s.clearErrors v).lines = s.lines := rfl
@[simp] theorem State.clearErrors_x (v : Byte) : (s.clearErrors v).x =
    { s.x with errIllegal := s.x.errIllegal &&& ~~~(v.extractLsb' 2 1), errOverlap := s.x.errOverlap &&& ~~~(v.extractLsb' 3 1) } := rfl
@[simp] theorem State.clearErrors_r (v : Byte) : (s.clearErrors v).r = s.r := rfl
@[simp] theorem State.clearErrors_pc (v : Byte) : (s.clearErrors v).pc = s.pc := rfl
@[simp] theorem State.clearErrors_cfg (v : Byte) : (s.clearErrors v).cfg = s.cfg := rfl
@[simp] theorem State.clearErrors_nCfg (v : Byte) : (s.clearErrors v).nCfg = s.nCfg := rfl
@[simp] theorem State.clearErrors_trace (v : Byte) : (s.clearErrors v).trace = s.trace := rfl
@[simp] theorem State.clearErrors_inputs (v : Byte) : (s.clearErrors v).inputs = s.inputs := rfl
@[simp] theorem State.clearErrors_hostLog (v : Byte) : (s.clearErrors v).hostLog = s.hostLog := rfl
@[simp] theorem State.clearErrors_env (v : Byte) : (s.clearErrors v).env = s.env := rfl

@[simp] theorem State.beforeInput_lines (is : List Input) : (s.beforeInput is).lines =
    s.lines := rfl
@[simp] theorem State.beforeInput_x (is : List Input) : (s.beforeInput is).x = s.x := rfl
@[simp] theorem State.beforeInput_r (is : List Input) : (s.beforeInput is).r = s.tick.r := rfl
@[simp] theorem State.beforeInput_pc (is : List Input) : (s.beforeInput is).pc = s.pc := rfl
@[simp] theorem State.beforeInput_cfg (is : List Input) : (s.beforeInput is).cfg = s.cfg := rfl
@[simp] theorem State.beforeInput_nCfg (is : List Input) : (s.beforeInput is).nCfg = s.nCfg := rfl
@[simp] theorem State.beforeInput_trace (is : List Input) : (s.beforeInput is).trace =
    s.trace := rfl
@[simp] theorem State.beforeInput_inputs (is : List Input) : (s.beforeInput is).inputs = is := rfl
@[simp] theorem State.beforeInput_hostLog (is : List Input) : (s.beforeInput is).hostLog =
    s.hostLog := rfl
@[simp] theorem State.beforeInput_env (is : List Input) : (s.beforeInput is).env =
    { s.tick.env with turnsLeft := s.env.turnsLeft - 1 } := rfl

@[simp] theorem State.beforeSeq_lines : (s.beforeSeq).lines = s.lines := rfl
@[simp] theorem State.beforeSeq_x : (s.beforeSeq).x = s.x := rfl
@[simp] theorem State.beforeSeq_r : (s.beforeSeq).r = s.tick.r := rfl
@[simp] theorem State.beforeSeq_pc : (s.beforeSeq).pc = s.pc := rfl
@[simp] theorem State.beforeSeq_cfg : (s.beforeSeq).cfg = s.cfg := rfl
@[simp] theorem State.beforeSeq_nCfg : (s.beforeSeq).nCfg = s.nCfg := rfl
@[simp] theorem State.beforeSeq_trace : (s.beforeSeq).trace = s.trace := rfl
@[simp] theorem State.beforeSeq_inputs : (s.beforeSeq).inputs = s.inputs := rfl
@[simp] theorem State.beforeSeq_hostLog : (s.beforeSeq).hostLog = s.hostLog := rfl
@[simp] theorem State.beforeSeq_env : (s.beforeSeq).env = s.tick.env.drawTurns := rfl

/-! ### Raising a flag touches the flag only (60_exceptions.md R202) -/

@[simp] theorem State.raise_lines (e : ErrFlag) : (s.raise e).lines = s.lines := by cases e <;> rfl
@[simp] theorem State.raise_r (e : ErrFlag) : (s.raise e).r = s.r := by cases e <;> rfl
@[simp] theorem State.raise_pc (e : ErrFlag) : (s.raise e).pc = s.pc := by cases e <;> rfl
@[simp] theorem State.raise_cfg (e : ErrFlag) : (s.raise e).cfg = s.cfg := by cases e <;> rfl
@[simp] theorem State.raise_nCfg (e : ErrFlag) : (s.raise e).nCfg = s.nCfg := by cases e <;> rfl
@[simp] theorem State.raise_trace (e : ErrFlag) : (s.raise e).trace = s.trace := by cases e <;> rfl
@[simp] theorem State.raise_inputs (e : ErrFlag) : (s.raise e).inputs = s.inputs := by cases e <;> rfl
@[simp] theorem State.raise_hostLog (e : ErrFlag) : (s.raise e).hostLog = s.hostLog := by cases e <;> rfl
@[simp] theorem State.raise_env (e : ErrFlag) : (s.raise e).env = s.env := by cases e <;> rfl

@[simp] theorem State.raise_illegal_x : (s.raise .illegal).x = { s.x with errIllegal := 1 } := rfl
@[simp] theorem State.raise_overlap_x : (s.raise .overlap).x = { s.x with errOverlap := 1 } := rfl

/-! ### Derived reads -/

@[simp] theorem State.busy_iff : s.busy = true ↔ s.pc ≠ [] := by
  cases h : s.pc <;> simp [State.busy, h]

@[simp] theorem State.not_busy_iff : s.busy = false ↔ s.pc = [] := by
  cases h : s.pc <;> simp [State.busy, h]

/-- `BUSY` depends on `pc` alone (10_state.md R41). -/
theorem State.busy_congr {s t : State} (h : t.pc = s.pc) : t.busy = s.busy := by
  simp only [State.busy, h]

/-! ### Drawing turns touches the turns only (20_memory.md R79) -/

@[simp] theorem Env.drawTurns_sdi (e : Env) : e.drawTurns.sdi = e.sdi := rfl
@[simp] theorem Env.drawTurns_irq (e : Env) : e.drawTurns.irq = e.irq := rfl
@[simp] theorem Env.drawTurns_linesIn (e : Env) : e.drawTurns.linesIn = e.linesIn := rfl
@[simp] theorem Env.drawTurns_busyReads (e : Env) : e.drawTurns.busyReads = e.busyReads := rfl
@[simp] theorem Env.drawTurns_ticks (e : Env) : e.drawTurns.ticks = e.ticks := rfl
@[simp] theorem Env.drawTurns_patienceDraws (e : Env) : e.drawTurns.patienceDraws = e.patienceDraws := rfl
@[simp] theorem Env.drawTurns_patience (e : Env) : e.drawTurns.patience = e.patience := rfl
@[simp] theorem Env.drawTurns_turnDraws (e : Env) : e.drawTurns.turnDraws = e.turnDraws.pop := rfl
@[simp] theorem Env.drawTurns_turnsLeft (e : Env) : e.drawTurns.turnsLeft =
    e.turnDraws.peek Config.freeTurns := rfl

/-! ### One line is driven, the others keep their levels (10_state.md R20) -/

variable (ls : Lines) (v : Level)

@[simp] theorem Lines.set_sel_sel : (ls.set .sel v).sel = v := rfl
@[simp] theorem Lines.set_sel_sck : (ls.set .sel v).sck = ls.sck := rfl
@[simp] theorem Lines.set_sel_sdo : (ls.set .sel v).sdo = ls.sdo := rfl
@[simp] theorem Lines.set_sel_ffs : (ls.set .sel v).ffs = ls.ffs := rfl
@[simp] theorem Lines.set_sck_sel : (ls.set .sck v).sel = ls.sel := rfl
@[simp] theorem Lines.set_sck_sck : (ls.set .sck v).sck = v := rfl
@[simp] theorem Lines.set_sck_sdo : (ls.set .sck v).sdo = ls.sdo := rfl
@[simp] theorem Lines.set_sck_ffs : (ls.set .sck v).ffs = ls.ffs := rfl
@[simp] theorem Lines.set_sdo_sel : (ls.set .sdo v).sel = ls.sel := rfl
@[simp] theorem Lines.set_sdo_sck : (ls.set .sdo v).sck = ls.sck := rfl
@[simp] theorem Lines.set_sdo_sdo : (ls.set .sdo v).sdo = v := rfl
@[simp] theorem Lines.set_sdo_ffs : (ls.set .sdo v).ffs = ls.ffs := rfl
@[simp] theorem Lines.set_ffs_sel : (ls.set .ffs v).sel = ls.sel := rfl
@[simp] theorem Lines.set_ffs_sck : (ls.set .ffs v).sck = ls.sck := rfl
@[simp] theorem Lines.set_ffs_sdo : (ls.set .ffs v).sdo = ls.sdo := rfl
@[simp] theorem Lines.set_ffs_ffs : (ls.set .ffs v).ffs = v := rfl

/-! ### The passage of time touches the timebase only (60_exceptions.md R214) -/

variable (d : Datapath) (n : Nat)

@[simp] theorem Datapath.passMs_curOp : (d.passMs n).curOp = d.curOp := rfl
@[simp] theorem Datapath.passMs_lCmd1 : (d.passMs n).lCmd1 = d.lCmd1 := rfl
@[simp] theorem Datapath.passMs_lCmd2 : (d.passMs n).lCmd2 = d.lCmd2 := rfl
@[simp] theorem Datapath.passMs_lTimeout : (d.passMs n).lTimeout = d.lTimeout := rfl
@[simp] theorem Datapath.passMs_tStart : (d.passMs n).tStart = d.tStart := rfl
@[simp] theorem Datapath.passMs_txByte : (d.passMs n).txByte = d.txByte := rfl
@[simp] theorem Datapath.passMs_rxBit : (d.passMs n).rxBit = d.rxBit := rfl
@[simp] theorem Datapath.passMs_acc : (d.passMs n).acc = d.acc := rfl
@[simp] theorem Datapath.passMs_bitCnt : (d.passMs n).bitCnt = d.bitCnt := rfl
@[simp] theorem Datapath.passMs_byte1 : (d.passMs n).byte1 = d.byte1 := rfl
@[simp] theorem Datapath.passMs_byte2 : (d.passMs n).byte2 = d.byte2 := rfl
@[simp] theorem Datapath.passMs_swBuf0 : (d.passMs n).swBuf0 = d.swBuf0 := rfl
@[simp] theorem Datapath.passMs_swBuf1 : (d.passMs n).swBuf1 = d.swBuf1 := rfl
@[simp] theorem Datapath.passMs_cfgIdx : (d.passMs n).cfgIdx = d.cfgIdx := rfl
@[simp] theorem Datapath.passMs_lDelay : (d.passMs n).lDelay = d.lDelay := rfl

@[simp] theorem Datapath.waitOut_curOp : d.waitOut.curOp = d.curOp := by
  unfold Datapath.waitOut; split <;> rfl
@[simp] theorem Datapath.waitOut_lCmd1 : d.waitOut.lCmd1 = d.lCmd1 := by
  unfold Datapath.waitOut; split <;> rfl
@[simp] theorem Datapath.waitOut_lCmd2 : d.waitOut.lCmd2 = d.lCmd2 := by
  unfold Datapath.waitOut; split <;> rfl
@[simp] theorem Datapath.waitOut_lTimeout : d.waitOut.lTimeout = d.lTimeout := by
  unfold Datapath.waitOut; split <;> rfl
@[simp] theorem Datapath.waitOut_tStart : d.waitOut.tStart = d.tStart := by
  unfold Datapath.waitOut; split <;> rfl
@[simp] theorem Datapath.waitOut_txByte : d.waitOut.txByte = d.txByte := by
  unfold Datapath.waitOut; split <;> rfl
@[simp] theorem Datapath.waitOut_rxBit : d.waitOut.rxBit = d.rxBit := by
  unfold Datapath.waitOut; split <;> rfl
@[simp] theorem Datapath.waitOut_acc : d.waitOut.acc = d.acc := by
  unfold Datapath.waitOut; split <;> rfl
@[simp] theorem Datapath.waitOut_bitCnt : d.waitOut.bitCnt = d.bitCnt := by
  unfold Datapath.waitOut; split <;> rfl
@[simp] theorem Datapath.waitOut_byte1 : d.waitOut.byte1 = d.byte1 := by
  unfold Datapath.waitOut; split <;> rfl
@[simp] theorem Datapath.waitOut_byte2 : d.waitOut.byte2 = d.byte2 := by
  unfold Datapath.waitOut; split <;> rfl
@[simp] theorem Datapath.waitOut_swBuf0 : d.waitOut.swBuf0 = d.swBuf0 := by
  unfold Datapath.waitOut; split <;> rfl
@[simp] theorem Datapath.waitOut_swBuf1 : d.waitOut.swBuf1 = d.swBuf1 := by
  unfold Datapath.waitOut; split <;> rfl
@[simp] theorem Datapath.waitOut_cfgIdx : d.waitOut.cfgIdx = d.cfgIdx := by
  unfold Datapath.waitOut; split <;> rfl
@[simp] theorem Datapath.waitOut_lDelay : d.waitOut.lDelay = d.lDelay := by
  unfold Datapath.waitOut; split <;> rfl

end Sys2Proof.Machine
end

