-- ==== Sys2Proof/Laws/Run.lean ====
section
/-! SUPPORT. Runs of the machine put together from steps, and whose step the next one is. -/

namespace Sys2Proof.Machine

/-! ### Composition of runs -/

theorem run_next {n : Nat} {s t : State} (h : step s = .next t) : core.run (n + 1) s = core.run n t := by
  have h' : core.step s = .next t := h
  simp only [Host.Core.run, h']

theorem run_fault {n : Nat} {s : State} {f : Fault} (h : step s = .fault f) :
    core.run (n + 1) s = .fault f := by
  have h' : core.step s = .fault f := h
  simp only [Host.Core.run, h']

theorem run_refused {n : Nat} {s : State} {f : Refusal} (h : step s = .refused f) :
    core.run (n + 1) s = .refused f := by
  have h' : core.step s = .refused f := h
  simp only [Host.Core.run, h']

theorem Reaches.refl (s : State) : Reaches 0 s s := rfl

theorem Reaches.zero {s t : State} (h : Reaches 0 s t) : s = t := by
  have h' : (Host.Outcome.next s : Result) = .next t := h
  exact (Host.Outcome.next.injEq s t).mp h'

theorem Reaches.head {n : Nat} {s t u : State} (h : step s = .next t) (hr : Reaches n t u) :
    Reaches (n + 1) s u :=
  (run_next h).trans hr

theorem Reaches.one {s t : State} (h : step s = .next t) : Reaches 1 s t :=
  Reaches.head h (Reaches.refl t)

/-- A run of `n + 1` steps begins with a step. -/
theorem Reaches.cases_head {n : Nat} {s u : State} (h : Reaches (n + 1) s u) :
    ∃ t, step s = .next t ∧ Reaches n t u := by
  cases hs : step s with
  | next t => exact ⟨t, rfl, (run_next hs).symm.trans h⟩
  | fault f => exact absurd ((run_fault hs).symm.trans h) (by simp)
  | refused f => exact absurd ((run_refused hs).symm.trans h) (by simp)

theorem Reaches.trans {n m : Nat} {s t u : State} (h : Reaches n s t) (h' : Reaches m t u) :
    Reaches (n + m) s u := by
  induction n generalizing s with
  | zero => rw [Nat.zero_add, h.zero]; exact h'
  | succ n ih =>
    obtain ⟨v, hs, hv⟩ := h.cases_head
    rw [Nat.succ_add]
    exact Reaches.head hs (ih hv)

/-! ### Whose step it is -/

theorem step_seq {s : State} (h : s.hostMoves = false) : step s = seqStep s.beforeSeq := by
  simp [step, cycle, h]

theorem hostMoves_quiet {s : State} (h : s.inputs = []) : s.hostMoves = false := by
  simp [State.hostMoves, h]

/-- With no input pending, the step is the sequencer's. -/
theorem step_quiet {s : State} (h : s.inputs = []) : step s = seqStep s.beforeSeq :=
  step_seq (hostMoves_quiet h)

theorem step_host {s : State} {i : Input} {rest : List Input} (h : s.hostMoves = true)
    (hi : s.inputs = i :: rest) : step s = applyInput i (s.beforeInput rest) := by
  simp [step, cycle, h, hi]

theorem hostMoves_idle {s : State} {i : Input} {rest : List Input} (hp : s.pc = [])
    (hi : s.inputs = i :: rest) : s.hostMoves = true := by
  simp [State.hostMoves, hi, State.busy, hp]

end Sys2Proof.Machine
end

