-- ==== Sys2Proof/Laws/Ops.lean ====
section
/-! SUPPORT. For each shared operation, once, what it can do: what the engine's own steps leave alone
and how they extend the trace, when a primitive stops, what a launch and a host access answer, and the
inversion of a step. -/

namespace Sys2Proof.Machine

/-- The registers the host writes, and the error flags its misuse raises; what the engine writes is
left out. -/
def HostRegs.ofHost (x : HostRegs) : HostRegs :=
  { x with done := 0, result := 0, pkt0 := 0, pkt1 := 0, sw0 := 0, sw1 := 0 }

/-- What a step of the engine leaves alone, and that the trace it appends tells the lines
(20_memory.md R75): the table, the host's own registers, the host's side of the port. -/
structure SeqFrame (s t : State) : Prop where
  cfg : t.cfg = s.cfg
  nCfg : t.nCfg = s.nCfg
  inputs : t.inputs = s.inputs
  hostLog : t.hostLog = s.hostLog
  host : t.x.ofHost = s.x.ofHost
  linesIn : t.env.linesIn = s.env.linesIn
  busyReads : t.env.busyReads = s.env.busyReads
  grows : ∃ es, t.trace = s.trace ++ es ∧ t.lines = s.lines.afterAll es

theorem SeqFrame.refl (s : State) : SeqFrame s s :=
  ⟨rfl, rfl, rfl, rfl, rfl, rfl, rfl, [], by simp, rfl⟩

theorem SeqFrame.trans {s t u : State} (h : SeqFrame s t) (h' : SeqFrame t u) : SeqFrame s u := by
  obtain ⟨es, he, hl⟩ := h.grows
  obtain ⟨es', he', hl'⟩ := h'.grows
  exact ⟨h'.cfg.trans h.cfg, h'.nCfg.trans h.nCfg, h'.inputs.trans h.inputs,
    h'.hostLog.trans h.hostLog, h'.host.trans h.host, h'.linesIn.trans h.linesIn, h'.busyReads.trans h.busyReads,
    es ++ es', by rw [he', he, List.append_assoc],
    by rw [hl', hl]; exact (List.foldl_append ..).symm⟩

theorem SeqFrame.errIllegal {s t : State} (h : SeqFrame s t) : t.x.errIllegal = s.x.errIllegal :=
  (congrArg HostRegs.errIllegal h.host :)

theorem SeqFrame.errOverlap {s t : State} (h : SeqFrame s t) : t.x.errOverlap = s.x.errOverlap :=
  (congrArg HostRegs.errOverlap h.host :)

/-! ### Primitives -/

/-- A table read outside the table is the only primitive that stops. -/
theorem perform_stops {p : Prim} {s : State} (h : ∀ k, p = .memRead k → k < s.nCfg.toNat) :
    ∃ t, perform p s = .next t := by
  cases p with
  | memRead k =>
    have hk := h k rfl
    have : 4 * k + 4 ≤ s.cfgSize := by unfold State.cfgSize; omega
    simp only [perform, State.memRead, if_pos this]
    exact ⟨_, rfl⟩
  | _ => exact ⟨_, rfl⟩

theorem perform_frame {p : Prim} {s t : State} (h : perform p s = .next t) : SeqFrame s t := by
  cases p with
  | drive l v => cases h; exact ⟨rfl, rfl, rfl, rfl, rfl, rfl, rfl, [.drv l v], rfl, rfl⟩
  | waitMin n => cases h; exact ⟨rfl, rfl, rfl, rfl, rfl, rfl, rfl, [.wait n], rfl, rfl⟩
  | waitDelay =>
    cases h
    exact ⟨rfl, rfl, rfl, rfl, rfl, rfl, rfl, [.wait s.r.lDelay.toNat], rfl, rfl⟩
  | sampleSdi =>
    cases h
    exact ⟨rfl, rfl, rfl, rfl, rfl, rfl, rfl, [.smp .sdi s.nextSdi], rfl, rfl⟩
  | sampleIrq =>
    cases h
    exact ⟨rfl, rfl, rfl, rfl, rfl, rfl, rfl, [.smp .irq s.nextIrq], rfl, rfl⟩
  | ifReady lvl =>
    simp only [perform, Host.Outcome.next.injEq] at h
    split at h <;> subst h <;>
      exact ⟨rfl, rfl, rfl, rfl, rfl, rfl, rfl, [], by simp, rfl⟩
  | ifExpired =>
    simp only [perform, Host.Outcome.next.injEq] at h
    split at h <;> subst h <;>
      exact ⟨rfl, rfl, rfl, rfl, rfl, rfl, rfl, [], by simp, rfl⟩
  | ifDelay =>
    simp only [perform, Host.Outcome.next.injEq] at h
    split at h <;> subst h <;>
      exact ⟨rfl, rfl, rfl, rfl, rfl, rfl, rfl, [], by simp, rfl⟩
  | cfgFor k =>
    simp only [perform, Host.Outcome.next.injEq] at h
    split at h <;> subst h <;>
      exact ⟨rfl, rfl, rfl, rfl, rfl, rfl, rfl, [], by simp, rfl⟩
  | memRead k =>
    simp only [perform] at h
    split at h
    · cases h; exact ⟨rfl, rfl, rfl, rfl, rfl, rfl, rfl, [], by simp, rfl⟩
    · exact absurd h (by simp)
  | _ => cases h; exact ⟨rfl, rfl, rfl, rfl, rfl, rfl, rfl, [], by simp, rfl⟩

/-- DONE is written by completion and launch only. -/
theorem perform_done {p : Prim} {s t : State}
    (h : perform p s = .next t) : t.x.done = s.x.done := by
  cases p with
  | ifReady lvl => simp only [perform, Host.Outcome.next.injEq] at h; split at h <;> subst h <;> rfl
  | ifExpired => simp only [perform, Host.Outcome.next.injEq] at h; split at h <;> subst h <;> rfl
  | ifDelay => simp only [perform, Host.Outcome.next.injEq] at h; split at h <;> subst h <;> rfl
  | cfgFor k => simp only [perform, Host.Outcome.next.injEq] at h; split at h <;> subst h <;> rfl
  | memRead k =>
    simp only [perform] at h
    split at h
    · cases h; rfl
    · exact absurd h (by simp)
  | _ => cases h; rfl

/-- The input lines are drawn by their own primitives only. -/
theorem perform_draws {p : Prim} {s t : State} (h : perform p s = .next t) :
    (p ≠ .sampleIrq → t.env.irq = s.env.irq) ∧ (p ≠ .sampleSdi → t.env.sdi = s.env.sdi) := by
  cases p with
  | sampleIrq => cases h; exact ⟨fun h => absurd rfl h, fun _ => rfl⟩
  | sampleSdi => cases h; exact ⟨fun _ => rfl, fun h => absurd rfl h⟩
  | ifReady lvl =>
    simp only [perform, Host.Outcome.next.injEq] at h
    split at h <;> subst h <;> exact ⟨fun _ => rfl, fun _ => rfl⟩
  | ifExpired =>
    simp only [perform, Host.Outcome.next.injEq] at h
    split at h <;> subst h <;> exact ⟨fun _ => rfl, fun _ => rfl⟩
  | ifDelay =>
    simp only [perform, Host.Outcome.next.injEq] at h
    split at h <;> subst h <;> exact ⟨fun _ => rfl, fun _ => rfl⟩
  | cfgFor k =>
    simp only [perform, Host.Outcome.next.injEq] at h
    split at h <;> subst h <;> exact ⟨fun _ => rfl, fun _ => rfl⟩
  | memRead k =>
    simp only [perform] at h
    split at h
    · cases h; exact ⟨fun _ => rfl, fun _ => rfl⟩
    · exact absurd h (by simp)
  | _ => cases h; exact ⟨fun _ => rfl, fun _ => rfl⟩

/-! ### Completion and micro-operations -/

theorem complete_frame (s : State) : SeqFrame s s.complete :=
  ⟨rfl, rfl, rfl, rfl, rfl, rfl, rfl, [.opEnd s.r.curOp], rfl, rfl⟩

/-- `settle` does nothing, or completes the operation. -/
theorem settle_cases (s : State) :
    s.settle = s ∨ (s.pc.head? = some .complete ∧ s.settle = s.complete) := by
  unfold State.settle
  split
  · rename_i heq; exact .inr ⟨by simp [heq], rfl⟩
  · exact .inl rfl

theorem settle_frame (s : State) : SeqFrame s s.settle := by
  rcases settle_cases s with h | ⟨-, h⟩ <;> rw [h]
  · exact SeqFrame.refl s
  · exact complete_frame s

theorem settleResult_next {a : Result} {t : State} (h : settleResult a = .next t) :
    ∃ u, a = .next u ∧ t = u.settle := by
  cases a <;> simp_all [settleResult]

/-- A micro-operation is entered with its first primitive, in front of the rest of its body. -/
theorem exec_micro {i : Instr} {w : MicroWord} (h : decodeMicro w = .ok i) :
    (∃ b, i = .sendBit b ∧ ∀ s, exec i s = .next ((s.push sendBitRest).drive .sdo b)) ∨
    (i = .readBit ∧ ∀ s, exec i s = .next ((s.push readBitRest).drive .sck 1)) ∨
    (∃ v, i = .sendByte v ∧ ∀ s, exec i s = .next
      { s.push sendByteRest with r := { s.r with txByte := v } }) ∨
    (i = .readByte ∧ ∀ s, exec i s = .next ((s.push readByteRest).drive .ffs 0)) := by
  unfold decodeMicro at h
  repeat' split at h
  all_goals simp only [Decoded.ok.injEq, reduceCtorEq] at h
  · exact .inl ⟨_, h.symm, fun s => by subst h; rfl⟩
  · exact .inr (.inl ⟨h.symm, fun s => by subst h; rfl⟩)
  · exact .inr (.inr (.inl ⟨_, h.symm, fun s => by subst h; rfl⟩))
  · exact .inr (.inr (.inr ⟨h.symm, fun s => by subst h; rfl⟩))

/-- A micro-operation's step is its first primitive. -/
theorem runMicro_next {w : MicroWord} {s t : State} (h : runMicro w s = .next t) :
    ∃ i p rest, decodeMicro w = .ok i ∧ perform p (s.push rest) = .next t ∧
      p ≠ .sampleIrq ∧ p ≠ .sampleSdi ∧ rest ≠ [] := by
  unfold runMicro at h
  split at h
  · rename_i i hd
    rcases exec_micro hd with ⟨b, rfl, he⟩ | ⟨rfl, he⟩ | ⟨v, rfl, he⟩ | ⟨rfl, he⟩
    all_goals rw [he, Host.Outcome.next.injEq] at h
    · exact ⟨_, .drive .sdo b, sendBitRest, hd, congrArg Host.Outcome.next h, by simp, by simp, by simp [sendBitRest]⟩
    · exact ⟨_, .drive .sck 1, readBitRest, hd, congrArg Host.Outcome.next h, by simp, by simp, by simp [readBitRest]⟩
    · exact ⟨_, .setTxByte v, sendByteRest, hd, congrArg Host.Outcome.next h, by simp, by simp,
        by simp [sendByteRest, List.range, List.range.loop, sendByteIter]⟩
    · exact ⟨_, .drive .ffs 0, readByteRest, hd, congrArg Host.Outcome.next h, by simp, by simp, by simp [readByteRest]⟩
  · exact absurd h (by simp)

theorem push_frame (s : State) (p : List Stmt) : SeqFrame s (s.push p) :=
  ⟨rfl, rfl, rfl, rfl, rfl, rfl, rfl, [], by simp, rfl⟩

/-! ### A step of the sequencer -/

/-- Whatever the sequencer does, it leaves alone what `SeqFrame` says. -/
theorem seqStep_frame {s t : State} (h : seqStep s = .next t) : SeqFrame s t := by
  have hpc : ∀ p, SeqFrame s { s with pc := p } := fun p =>
    ⟨rfl, rfl, rfl, rfl, rfl, rfl, rfl, [], by simp, rfl⟩
  unfold seqStep at h
  split at h
  · cases h; exact SeqFrame.refl s
  · obtain ⟨u, hu, rfl⟩ := settleResult_next h
    exact ((hpc _).trans (perform_frame hu)).trans (settle_frame u)
  · obtain ⟨i, p, rest, -, hp, -⟩ := runMicro_next h
    exact ((hpc _).trans (push_frame _ _)).trans (perform_frame hp)
  · cases h; exact complete_frame s

theorem beforeSeq_frame (s : State) : SeqFrame s s.beforeSeq :=
  ⟨rfl, rfl, rfl, rfl, rfl, rfl, rfl, [], by simp, rfl⟩

/-! ### Launches and host accesses -/

theorem writeOp_ok {v : Byte} {i : Instr} {s : State} (hb : s.busy = false)
    (hd : decodeOp v = .ok i) : writeOp v s = exec i s := by
  simp [writeOp, hb, hd]

theorem launch_idle {c : Byte} {d : Datapath} {p : List Stmt} {s : State} (hb : s.busy = false) :
    launch c d p s = .next (s.launched c d p) := by
  simp [launch, hb]

/-- What a host write of OP answers (20_memory.md R68). -/
theorem writeOp_cases (v : Byte) (s : State) :
    (s.busy = true ∧ writeOp v s = .next (s.raise .overlap)) ∨
    (s.busy = false ∧ opCodeOk v = false ∧ writeOp v s = .next (s.raise .illegal)) ∨
    (s.busy = false ∧ opCodeOk v = true ∧ ∃ d prog,
      (v, d, prog) ∈ [(0x01, s.latchCommand, sendCommandCode), (0x02, s.latchTimeout, receivePacketCode),
        (0x03, s.r, readStatusCode), (0x04, s.r, initDefaultsCode)] ∧
      writeOp v s = .next (s.launched v d prog)) := by
  cases hb : s.busy with
  | true => exact .inl ⟨rfl, by simp [writeOp, hb]⟩
  | false =>
    by_cases h1 : v = 0x01
    · subst h1
      exact .inr (.inr ⟨rfl, rfl, _, _, .head _, (writeOp_ok (i := .sendCommand) hb rfl).trans
          (launch_idle hb)⟩)
    by_cases h2 : v = 0x02
    · subst h2
      exact .inr (.inr ⟨rfl, rfl, _, _, .tail _ (.head _),
        (writeOp_ok (i := .receivePacket) hb rfl).trans (launch_idle hb)⟩)
    by_cases h3 : v = 0x03
    · subst h3
      exact .inr (.inr ⟨rfl, rfl, _, _, .tail _ (.tail _ (.head _)),
        (writeOp_ok (i := .readStatus) hb rfl).trans (launch_idle hb)⟩)
    by_cases h4 : v = 0x04
    · subst h4
      exact .inr (.inr ⟨rfl, rfl, _, _, .tail _ (.tail _ (.tail _ (.head _))),
        (writeOp_ok (i := .initDefaults) hb rfl).trans (launch_idle hb)⟩)
    have he : decodeOp v = .error (.illegalOp v) := by revert v; decide
    refine .inr (.inl ⟨rfl, ?_, by simp [writeOp, hb, he]⟩)
    clear he
    revert v; decide

/-- A host write of another address than OP and STATUS writes its register alone; there is no state in
which it stops (20_memory.md R67). -/
theorem hostWrite_cases (a : HostAddr) (v : Byte) (s : State) :
    (HostReg.ofAddr a = .op ∧ hostWrite a v s = writeOp v s) ∨
    (HostReg.ofAddr a = .status ∧ hostWrite a v s = .next (s.clearErrors v)) ∨
    (HostReg.ofAddr a ≠ .op ∧ HostReg.ofAddr a ≠ .status ∧ ∃ x : HostRegs,
      hostWrite a v s = .next { s with x := x } ∧
      x.done = s.x.done ∧ x.errIllegal = s.x.errIllegal ∧ x.errOverlap = s.x.errOverlap ∧
      x.result = s.x.result ∧ x.pkt0 = s.x.pkt0 ∧ x.pkt1 = s.x.pkt1 ∧ x.sw0 = s.x.sw0 ∧
      x.sw1 = s.x.sw1) := by
  unfold hostWrite
  cases HostReg.ofAddr a
  case op => exact .inl ⟨rfl, rfl⟩
  case status => exact .inr (.inl ⟨rfl, rfl⟩)
  all_goals
    refine .inr (.inr ⟨by simp, by simp, ?_⟩)
    first
      | exact ⟨s.x, rfl, rfl, rfl, rfl, rfl, rfl, rfl, rfl, rfl⟩
      | exact ⟨_, rfl, rfl, rfl, rfl, rfl, rfl, rfl, rfl, rfl⟩

/-- A step is an input applied or a step of the sequencer. -/
theorem step_cases (s : State) :
    (∃ i rest, s.hostMoves = true ∧ s.inputs = i :: rest ∧ step s = applyInput i
      (s.beforeInput rest)) ∨
    (s.hostMoves = false ∧ step s = seqStep s.beforeSeq) := by
  cases h : s.hostMoves with
  | false => exact .inr ⟨rfl, step_seq h⟩
  | true =>
    match hi : s.inputs with
    | [] => simp [State.hostMoves, hi] at h
    | i :: rest => exact .inl ⟨i, rest, rfl, rfl, step_host h hi⟩

end Sys2Proof.Machine
end

