-- ==== Sys2Proof/Laws/Among.lean ====
section
/-! SUPPORT. Host accesses beside a running operation (20_memory.md R79): the engine's side of a state,
on which a host access has no effect while an operation runs, and the host's side, on which a step of the
engine has none. -/

namespace Sys2Proof.Machine

/-! ### The two sides -/

/-- The host registers the engine writes. -/
def HostRegs.ofEngine (x : HostRegs) : HostRegs :=
  { x with
    errIllegal := 0, errOverlap := 0, cmd1 := 0, cmd2 := 0
    timeout0 := 0, timeout1 := 0, timeout2 := 0, timeout3 := 0 }

/-- The engine's side of a state: the passage of time, the host's registers, its accesses to come, its
replies and their draws are left out. -/
def State.engine (s : State) : State :=
  { s.timeless with
    x := s.x.ofEngine
    inputs := []
    hostLog := []
    env := { s.timeless.env with linesIn := .free, busyReads := .free } }

@[simp] theorem HostRegs.ofEngine_ofEngine (x : HostRegs) : x.ofEngine.ofEngine = x.ofEngine := rfl
@[simp] theorem State.engine_engine (s : State) : s.engine.engine = s.engine := rfl
@[simp] theorem State.engine_beforeSeq (s : State) : s.beforeSeq.engine = s.engine := rfl
@[simp] theorem State.engine_beforeInput (s : State) (rest : List Input) :
    (s.beforeInput rest).engine = s.engine := rfl

/-- The two parts of the host registers are all of them. -/
theorem HostRegs.ext_parts {x y : HostRegs} (h : x.ofEngine = y.ofEngine) (h' : x.ofHost = y.ofHost) :
    x = y := by
  cases x; cases y
  simp only [HostRegs.ofEngine, HostRegs.ofHost, HostRegs.mk.injEq] at *
  simp only [h, h', and_self]

/-- A state that agrees with another but for the time and the host's side, and in the host registers, is
that other with its own host's side. -/
theorem State.timeless_withHostSide {u v : State} (h : u.engine = v.engine) (hx : u.x = v.x) :
    u.timeless = (v.withHostSide u).timeless := by
  have key : ∀ w : State, w.timeless = { w.engine with
      x := w.x, inputs := w.inputs, hostLog := w.hostLog
      env := { w.engine.env with linesIn := w.env.linesIn, busyReads := w.env.busyReads } } :=
    fun _ => rfl
  rw [key u, h, hx]
  rfl

/-- The registers the engine writes from one, those the host writes from the other. -/
def HostRegs.withHost (x y : HostRegs) : HostRegs :=
  { y with
    done := x.done, result := x.result, pkt0 := x.pkt0, pkt1 := x.pkt1, sw0 := x.sw0, sw1 := x.sw1 }

/-! ### A host access -/

theorem HostRegs.accessed_ofHost (x : HostRegs) (i : Input) :
    (x.accessed i).ofHost = x.ofHost.accessed i := by
  cases i with
  | write a v => simp only [HostRegs.accessed]; cases HostReg.ofAddr a <;> rfl
  | _ => rfl

theorem HostRegs.accessed_ofEngine (x : HostRegs) (i : Input) :
    (x.accessed i).ofEngine = x.ofEngine := by
  cases i with
  | write a v => simp only [HostRegs.accessed]; cases HostReg.ofAddr a <;> rfl
  | _ => rfl

theorem HostRegs.foldl_accessed_ofHost (is : List Input) {x y : HostRegs} (h : x.ofHost = y.ofHost) :
    (is.foldl HostRegs.accessed x).ofHost = (is.foldl HostRegs.accessed y).ofHost := by
  induction is generalizing x y with
  | nil => exact h
  | cons i is ih =>
    exact ih (by rw [HostRegs.accessed_ofHost, HostRegs.accessed_ofHost, h])

theorem HostRegs.foldl_accessed_ofEngine (is : List Input) (x : HostRegs) :
    (is.foldl HostRegs.accessed x).ofEngine = x.ofEngine := by
  induction is generalizing x with
  | nil => rfl
  | cons i is ih => exact (ih _).trans (x.accessed_ofEngine i)

/-! What the engine writes, no access of the host changes. -/

section
variable (is : List Input) (x : HostRegs)

@[simp] theorem HostRegs.foldl_accessed_done : (is.foldl HostRegs.accessed x).done = x.done :=
  (congrArg HostRegs.done (HostRegs.foldl_accessed_ofEngine is x) :)
@[simp] theorem HostRegs.foldl_accessed_result : (is.foldl HostRegs.accessed x).result = x.result :=
  (congrArg HostRegs.result (HostRegs.foldl_accessed_ofEngine is x) :)
@[simp] theorem HostRegs.foldl_accessed_pkt0 : (is.foldl HostRegs.accessed x).pkt0 = x.pkt0 :=
  (congrArg HostRegs.pkt0 (HostRegs.foldl_accessed_ofEngine is x) :)
@[simp] theorem HostRegs.foldl_accessed_pkt1 : (is.foldl HostRegs.accessed x).pkt1 = x.pkt1 :=
  (congrArg HostRegs.pkt1 (HostRegs.foldl_accessed_ofEngine is x) :)
@[simp] theorem HostRegs.foldl_accessed_sw0 : (is.foldl HostRegs.accessed x).sw0 = x.sw0 :=
  (congrArg HostRegs.sw0 (HostRegs.foldl_accessed_ofEngine is x) :)
@[simp] theorem HostRegs.foldl_accessed_sw1 : (is.foldl HostRegs.accessed x).sw1 = x.sw1 :=
  (congrArg HostRegs.sw1 (HostRegs.foldl_accessed_ofEngine is x) :)

end

/-- Accesses done on all the registers leave the engine's as they are. -/
@[simp] theorem HostRegs.withHost_foldl_accessed (is : List Input) (x : HostRegs) :
    x.withHost (is.foldl HostRegs.accessed x) = is.foldl HostRegs.accessed x :=
  HostRegs.ext_parts (HostRegs.foldl_accessed_ofEngine is x).symm rfl

/-- Clearing a flag where a 1 is written (10_state.md R25). -/
theorem clear_flag (f : Level) (v : Byte) (k : Nat) :
    f &&& ~~~(v.extractLsb' k 1) = if v.getLsbD k then 0 else f := by
  have h : v.extractLsb' k 1 = if v.getLsbD k then 1 else 0 := by
    ext i hi
    have : i = 0 := by omega
    subst this
    cases hb : v.getLsbD k <;> simp [hb]
  rw [h]
  split <;> (revert f; decide)

/-- A read or a write made while an operation runs: the engine's side is as before, the host's as
`accessed` says. -/
theorem applyInput_busy {s t : State} {i : Input} (hb : s.busy = true) (hr : i ≠ .reset)
    (h : applyInput i s = .next t) :
    t.engine = s.engine ∧ t.x = s.x.accessed i ∧ t.env.turnsLeft = s.env.turnsLeft ∧
      (t.inputs = s.inputs ∨ (i = .waitIdle ∧ t.inputs = i :: s.inputs)) := by
  have read : ∀ a, (hostRead a s).engine = s.engine ∧ (hostRead a s).env.turnsLeft = s.env.turnsLeft := by
    intro a
    simp only [hostRead, State.engine]
    unfold State.readDraws
    split <;> (try split) <;> exact ⟨rfl, rfl⟩
  cases i with
  | read a => cases h; exact ⟨(read a).1, rfl, (read a).2, .inl rfl⟩
  | write a v =>
    simp only [applyInput, hostWrite] at h
    cases ha : HostReg.ofAddr a <;> rw [ha] at h
    case op =>
      simp only [writeOp, hb, if_true, Host.Outcome.next.injEq] at h
      subst h
      exact ⟨rfl, by simp only [HostRegs.accessed, ha, State.raise], rfl, .inl rfl⟩
    case status =>
      cases h
      refine ⟨rfl, ?_, rfl, .inl rfl⟩
      simp only [HostRegs.accessed, ha, State.clearErrors, clear_flag]
    all_goals
      cases h
      exact ⟨rfl, by simp only [HostRegs.accessed, ha], rfl, .inl rfl⟩
  | waitIdle =>
    simp only [applyInput, waitIdle] at h
    split at h <;> cases h
    · exact ⟨(read _).1, rfl, (read _).2, .inl rfl⟩
    · exact ⟨(read _).1, rfl, (read _).2, .inr ⟨rfl, rfl⟩⟩
  | reset => exact absurd rfl hr

/-- No step of a running operation stops at a host access. -/
theorem applyInput_goes (i : Input) (s : State) : ∃ t, applyInput i s = .next t := by
  cases i with
  | write a v =>
    rcases hostWrite_cases a v s with ⟨-, h⟩ | ⟨-, h⟩ | ⟨-, -, x, h, -⟩
    · rcases writeOp_cases v s with ⟨-, h'⟩ | ⟨-, -, h'⟩ | ⟨-, -, d, p, -, h'⟩ <;>
        exact ⟨_, h.trans h'⟩
    all_goals exact ⟨_, h⟩
  | _ => exact ⟨_, rfl⟩

/-! ### Runs with host accesses in between -/

/-- A run in which the host makes accesses (no reset) beside a running operation: they leave its own side
as `accessed` says. -/
def Leads (s t : State) : Prop :=
  ∃ m used, Reaches m s t ∧ HostDid s t used ∧ t.x.ofHost = (used.foldl HostRegs.accessed s.x).ofHost

theorem HostDid.none (s : State) : HostDid s s [] := ⟨rfl, fun _ => ⟨rfl, rfl, rfl⟩⟩

theorem HostDid.trans {s t u : State} {is js : List Input} (h : HostDid s t is) (h' : HostDid t u js) :
    HostDid s u (is ++ js) := by
  refine ⟨by rw [h.inputs, h'.inputs, List.append_assoc], fun hs => ?_⟩
  have ht : t.inputs = [] := (List.append_eq_nil_iff.mp (h.inputs.symm.trans hs)).2
  obtain ⟨a, b, c⟩ := h.nothing hs
  obtain ⟨a', b', c'⟩ := h'.nothing ht
  exact ⟨a'.trans a, b'.trans b, c'.trans c⟩

theorem Leads.refl (s : State) : Leads s s := ⟨0, [], Reaches.refl s, HostDid.none s, rfl⟩

theorem Leads.trans {s t u : State} (h : Leads s t) (h' : Leads t u) : Leads s u := by
  obtain ⟨m, is, hr, hd, hx⟩ := h
  obtain ⟨m', js, hr', hd', hx'⟩ := h'
  refine ⟨m + m', is ++ js, hr.trans hr', hd.trans hd', ?_⟩
  rw [hx', List.foldl_append]
  exact HostRegs.foldl_accessed_ofHost js hx

/-- No reset comes up that was not to come before. -/
theorem Leads.noReset {s t : State} (h : Leads s t) (hr : Input.reset ∉ s.inputs) :
    Input.reset ∉ t.inputs := by
  obtain ⟨m, used, -, hd, -⟩ := h
  exact fun e => hr (by rw [hd.inputs]; simp [e])

/-- A run's end written out. -/
theorem Leads.ends {a u v : State} (h : Leads a v) (e : v.engine = u.engine) {y : HostRegs}
    (hy : y.ofHost = a.x.ofHost) :
    ∃ n v used, Reaches n a v ∧ HostDid a v used ∧
      v.timeless = (({ u with x := u.x.withHost (used.foldl HostRegs.accessed y) } : State).withHostSide
        v).timeless := by
  obtain ⟨n, used, hr, hd, hx⟩ := h
  refine ⟨n, v, used, hr, hd, State.timeless_withHostSide (e.trans rfl) ?_⟩
  exact HostRegs.ext_parts (congrArg State.x e :)
    (hx.trans (HostRegs.foldl_accessed_ofHost used hy.symm))

/-- A step of the sequencer. -/
theorem Leads.seq {s t : State} (hm : s.hostMoves = false) (h : step s = .next t) : Leads s t := by
  have hf := (beforeSeq_frame s).trans (seqStep_frame ((step_seq hm).symm.trans h))
  exact ⟨1, [], Reaches.one h, ⟨hf.inputs.symm, fun _ => ⟨hf.hostLog, hf.linesIn, hf.busyReads⟩⟩, hf.host⟩

/-- Before the next step of a running operation the host makes a finite number of accesses, none if it
has none (log entry 5); the engine's side stays. -/
theorem leads_to_turn (n : Nat) : ∀ s : State, s.env.turnsLeft ≤ n → s.pc ≠ [] →
    Input.reset ∉ s.inputs → ∃ t, Leads s t ∧ t.engine = s.engine ∧ t.hostMoves = false := by
  induction n with
  | zero =>
    intro s hn hp hr
    refine ⟨s, Leads.refl s, rfl, ?_⟩
    simp [State.hostMoves, State.busy, hp, Nat.le_zero.mp hn]
  | succ n ih =>
    intro s hn hp hr
    rcases step_cases s with ⟨i, rest, hm, hi, he⟩ | ⟨hm, -⟩
    · obtain ⟨t, ht⟩ := applyInput_goes i (s.beforeInput rest)
      have hb : (s.beforeInput rest).busy = true := by simpa [State.busy] using hp
      have hir : i ≠ .reset := by rintro rfl; exact hr (by simp [hi])
      obtain ⟨k1, k2, k3, k4⟩ := applyInput_busy hb hir ht
      have hlt : 0 < s.env.turnsLeft := by
        have := hm
        simp only [State.hostMoves, State.busy, Bool.and_eq_true, Bool.or_eq_true] at this
        rcases this.2 with h | h
        · simp at h; exact absurd h hp
        · simpa using h
      have k3 : t.env.turnsLeft = s.env.turnsLeft - 1 := k3
      have hpc : t.pc = s.pc := (congrArg State.pc k1 :)
      have h1 : Leads s t := by
        have no : s.inputs ≠ [] := by rw [hi]; simp
        rcases k4 with k4 | ⟨rfl, k4⟩
        · exact ⟨1, [i], Reaches.one (he.trans ht), ⟨by rw [k4]; exact hi, fun e => absurd e no⟩,
            congrArg HostRegs.ofHost k2⟩
        · exact ⟨1, [], Reaches.one (he.trans ht), ⟨by rw [k4]; exact hi, fun e => absurd e no⟩,
            congrArg HostRegs.ofHost k2⟩
      obtain ⟨u, hu, eu, hm'⟩ := ih t (by omega) (by rw [hpc]; exact hp) (h1.noReset hr)
      exact ⟨u, h1.trans hu, eu.trans k1, hm'⟩
    · exact ⟨s, Leads.refl s, rfl, hm⟩

/-! ### A step of the sequencer -/

/-- A primitive that reads neither the time nor the poll's start. -/
def Prim.timeless : Prim → Bool
  | .setTStart | .ifExpired => false
  | _ => true

/-- A statement whose step reads neither. -/
def Stmt.timeless : Stmt → Bool
  | .prim p => p.timeless
  | _ => true

/-- An outcome's engine side. -/
def forgetHost : Result → Result
  | .next s => .next s.engine
  | .fault f => .fault f
  | .refused f => .refused f

/-- What a primitive does to the engine depends on the engine's side alone. -/
theorem perform_engine {p : Prim} (hp : p.timeless = true) (s : State) :
    forgetHost (perform p s) = forgetHost (perform p s.engine) := by
  cases p with
  | setTStart => simp [Prim.timeless] at hp
  | ifExpired => simp [Prim.timeless] at hp
  | ifReady lvl => simp only [perform]; split <;> rfl
  | ifDelay =>
    simp only [perform, show s.engine.r.lDelay = s.r.lDelay from rfl]; split <;> rfl
  | cfgFor k =>
    simp only [perform, show s.engine.nCfg = s.nCfg from rfl]; split <;> rfl
  | memRead k =>
    have h : s.engine.memRead (4 * k) = s.memRead (4 * k) := rfl
    simp only [perform, h]
    cases s.memRead (4 * k) <;> rfl
  | _ => rfl

theorem settle_engine (s : State) : s.settle.engine = s.engine.settle.engine := by
  have h : s.engine.pc = s.pc := rfl
  unfold State.settle
  rw [h]
  split <;> rfl

theorem forgetHost_settle {a b : Result} (h : forgetHost a = forgetHost b) :
    forgetHost (settleResult a) = forgetHost (settleResult b) := by
  cases a <;> cases b <;> simp_all [forgetHost, settleResult]
  rename_i s t
  rw [settle_engine s, settle_engine t, h]

theorem microWord_engine (c : CallSite) (s : State) :
    c.microWord s.engine.r = c.microWord s.r := by cases c <;> rfl

theorem seqStep_engine {s : State} (h : s.pc.head?.all Stmt.timeless = true) :
    forgetHost (seqStep s) = forgetHost (seqStep s.engine) := by
  have hpc : s.engine.pc = s.pc := rfl
  unfold seqStep
  rw [hpc]
  match hp : s.pc with
  | [] => rfl
  | .prim p :: rest =>
    have hp' : p.timeless = true := by simpa [hp, Stmt.timeless] using h
    apply forgetHost_settle
    rw [perform_engine hp', perform_engine hp' { s.engine with pc := rest }]
    rfl
  | .call c :: rest =>
    simp only [microWord_engine, runMicro]
    cases hd : decodeMicro (c.microWord s.r) with
    | ok i =>
      rcases exec_micro hd with ⟨b, rfl, he⟩ | ⟨rfl, he⟩ | ⟨v, rfl, he⟩ | ⟨rfl, he⟩ <;>
        simp only [he] <;> rfl
    | error e => rfl
  | .complete :: _ => rfl

/-- The next step of a running operation, up to the host's side, with the accesses made before it. -/
theorem leads_step {a u s : State} (hp : a.pc ≠ []) (ht : a.pc.head?.all Stmt.timeless = true)
    (h : seqStep a = .next u) (hs : s.engine = a.engine) (hr : Input.reset ∉ s.inputs) :
    ∃ t, Leads s t ∧ t.engine = u.engine := by
  have hpc : s.pc = a.pc := (congrArg State.pc hs :)
  obtain ⟨v, hv, ve, hm⟩ := leads_to_turn _ s (Nat.le_refl _) (by rw [hpc]; exact hp) hr
  have hve : v.engine = a.engine := ve.trans hs
  have hvp : v.beforeSeq.pc = a.pc := (congrArg State.pc hve :)
  have key : forgetHost (step v) = forgetHost (seqStep a) := by
    rw [step_seq hm, seqStep_engine (by rw [hvp]; exact ht), State.engine_beforeSeq, hve,
      ← seqStep_engine ht]
  rw [h] at key
  cases hst : step v with
  | next t => exact ⟨t, hv.trans (Leads.seq hm hst), by simpa [hst, forgetHost] using key⟩
  | fault f => simp [hst, forgetHost] at key
  | refused f => simp [hst, forgetHost] at key

end Sys2Proof.Machine
end

