-- ==== Sys2Proof/Laws/Runs.lean ====
section
/-! SUPPORT. A run of a stretch of pseudocode, proved once and composed: `Runs a u` leads from every state
with `a`'s engine side to one with `u`'s, whatever the time and whatever the host accesses in between. -/

namespace Sys2Proof.Machine

/-- From every state with the engine's side of `a` a run leads to one with that of `u`, whatever accesses
but reset the host makes in between. -/
def Runs (a u : State) : Prop :=
  ∀ s, s.engine = a.engine → Input.reset ∉ s.inputs → ∃ t, Leads s t ∧ t.engine = u.engine

theorem Runs.refl (a : State) : Runs a a := fun s h _ => ⟨s, Leads.refl s, h⟩

theorem Runs.trans {a b c : State} (h : Runs a b) (h' : Runs b c) : Runs a c := by
  intro s hs hn
  obtain ⟨t, hl, ht⟩ := h s hs hn
  obtain ⟨u, hl', hu⟩ := h' t ht (hl.noReset hn)
  exact ⟨u, hl.trans hl', hu⟩

/-- A run from the state itself, its end written out: the engine's side as `u`'s, the host registers as
the accesses done with leave them (`y` are those at the start, whatever the engine's own). -/
theorem Runs.ends {a u : State} (h : Runs a u) (hn : Input.reset ∉ a.inputs) {y : HostRegs}
    (hy : y.ofHost = a.x.ofHost) :
    ∃ n v used, Reaches n a v ∧ HostDid a v used ∧
      v.timeless = (({ u with x := u.x.withHost (used.foldl HostRegs.accessed y) } : State).withHostSide
        v).timeless := by
  obtain ⟨v, hl, e⟩ := h a rfl hn
  exact hl.ends e hy

theorem Appends.imp {i : Instr} {s : State} {P Q : List Event → Prop} (h : Appends i s P)
    (hq : ∀ es, P es → Q es) : Appends i s Q := by
  obtain ⟨t, n, u, es, ht, hr, hp, he, hP⟩ := h
  exact ⟨t, n, u, es, ht, hr, hp, he, hq es hP⟩

/-- One sequencer step. -/
theorem Runs.step {a u : State} (hne : a.pc ≠ []) (ht : a.pc.head?.all Stmt.timeless = true)
    (h : seqStep a = .next u) : Runs a u :=
  fun _ hs hr => leads_step hne ht h hs hr

/-- A primitive. -/
theorem Runs.prim {a u : State} {p : Prim} {rest : List Stmt}
    (hp : a.pc = .prim p :: rest) (ht : p.timeless = true)
    (h : perform p { a with pc := rest } = .next u) : Runs a u.settle :=
  Runs.step (by simp [hp]) (by simp [hp, Stmt.timeless, ht]) (by simp [seqStep, hp, h, settleResult])

theorem State.settle_of_ne {s : State} (h : s.pc.head? ≠ some .complete) : s.settle = s := by
  unfold State.settle
  split
  · rename_i heq; simp [heq] at h
  · rfl

theorem State.settle_complete {s : State} {rest : List Stmt} (h : s.pc = .complete :: rest) :
    s.settle = s.complete := by
  simp [State.settle, h]

/-- A primitive that is not the last statement of its operation. -/
theorem Runs.primNext {a u : State} {p : Prim} {rest : List Stmt}
    (hp : a.pc = .prim p :: rest) (ht : p.timeless = true)
    (h : perform p { a with pc := rest } = .next u) (hc : u.pc.head? ≠ some .complete) :
    Runs a u := by
  have := Runs.prim hp ht h
  rwa [State.settle_of_ne hc] at this

/-- A primitive that is the last statement of its operation: completion in the same step. -/
theorem Runs.primLast {a u : State} {p : Prim} {rest more : List Stmt}
    (hp : a.pc = .prim p :: rest) (ht : p.timeless = true)
    (h : perform p { a with pc := rest } = .next u) (hc : u.pc = .complete :: more) :
    Runs a u.complete := by
  have := Runs.prim hp ht h
  rwa [State.settle_complete hc] at this

/-- A run ends in a state written another way. -/
theorem Runs.to {a u u' : State} (h : Runs a u) (e : u = u') : Runs a u' := e ▸ h

theorem Runs.from {a a' u : State} (h : Runs a u) (e : a = a') : Runs a' u := e ▸ h

/-! ### Straight stretches -/

/-- A primitive that only moves on: it does not choose where `pc` goes and reads no time. -/
def Prim.straight : Prim → Bool
  | .sampleIrq | .ifReady _ | .ifExpired | .ifChecksum | .ifDelay | .cfgFor _ | .memRead _
  | .setTStart => false
  | _ => true

/-- The effect of a straight primitive. -/
def Prim.effect (s : State) (p : Prim) : State :=
  match perform p s with
  | .next t => t
  | .fault _ | .refused _ => s

theorem Prim.straight_timeless {p : Prim} (h : p.straight = true) : p.timeless = true := by
  cases p <;> simp_all [Prim.straight, Prim.timeless]

theorem perform_straight {p : Prim} (h : p.straight = true) (s : State) (pc : List Stmt) :
    perform p { s with pc := pc } = .next { Prim.effect s p with pc := pc } := by
  cases p <;> simp only [Prim.straight, Bool.false_eq_true] at h <;> rfl

theorem effect_pc {p : Prim} (h : p.straight = true) (s : State) (pc : List Stmt) :
    Prim.effect { s with pc := pc } p = { Prim.effect s p with pc := pc } := by
  cases p <;> simp only [Prim.straight, Bool.false_eq_true] at h <;> rfl

theorem foldl_effect_pc {ps : List Prim} (hs : ps.all Prim.straight = true) (s : State)
    (pc : List Stmt) :
    ps.foldl Prim.effect { s with pc := pc } = { ps.foldl Prim.effect s with pc := pc } := by
  induction ps generalizing s with
  | nil => rfl
  | cons p ps ih =>
    simp only [List.all_cons, Bool.and_eq_true] at hs
    rw [List.foldl_cons, List.foldl_cons, effect_pc hs.1]
    exact ih hs.2 _

/-- A straight stretch, not at the end of its operation, is performed one primitive a step. -/
theorem Runs.straight (ps : List Prim) {a : State} {rest : List Stmt}
    (hs : ps.all Prim.straight = true) (hp : a.pc = ps.map .prim ++ rest)
    (hc : rest.head? ≠ some .complete) :
    Runs a { ps.foldl Prim.effect a with pc := rest } := by
  induction ps generalizing a with
  | nil => exact (Runs.refl a).to (by cases a; simp_all)
  | cons p ps ih =>
    simp only [List.all_cons, Bool.and_eq_true] at hs
    have hp' : a.pc = .prim p :: (ps.map .prim ++ rest) := by simpa using hp
    have hne : (ps.map Stmt.prim ++ rest).head? ≠ some .complete := by
      cases ps <;> simp_all
    have h1 := Runs.primNext hp' (Prim.straight_timeless hs.1) (perform_straight hs.1 a _) hne
    have h2 := ih (a := { Prim.effect a p with pc := ps.map .prim ++ rest }) hs.2 rfl
    refine (h1.trans h2).to ?_
    rw [foldl_effect_pc hs.2, List.foldl_cons]

/-- A micro-operation entered. -/
theorem Runs.call {a u : State} {c : CallSite} {i : Instr} {rest : List Stmt}
    (hp : a.pc = .call c :: rest) (hd : decodeMicro (c.microWord a.r) = .ok i)
    (h : exec i { a with pc := rest } = .next u) : Runs a u :=
  Runs.step (by simp [hp]) (by simp [hp, Stmt.timeless]) (by simp [seqStep, hp, runMicro, hd, h])

end Sys2Proof.Machine
end

