-- ==== Sys2Proof/Laws/Codec.lean ====
section
/-! SUPPORT. What each micro-operation does when it is run, from its call or from the statement after its
first primitive: the engine's side it leaves, whatever host accesses fall in between (`Runs`). -/

namespace Sys2Proof.Machine

/-! ### Draws -/

theorem Draws.peekN_length {α : Type} (f : Nat →
    α) (n : Nat) (d : Draws α) : (d.peekN f n).length = n := by
  induction n generalizing d with
  | zero => rfl
  | succ n ih => simp [Draws.peekN, ih]

theorem Draws.peekN_add {α : Type} (f : Nat → α) (n m : Nat) (d : Draws α) :
    d.peekN f (n + m) = d.peekN f n ++ (d.popN n).peekN f m := by
  induction n generalizing d with
  | zero => simp [Draws.peekN, Draws.popN]
  | succ n ih => rw [Nat.add_right_comm]; simp [Draws.peekN, Draws.popN, ih]

theorem Draws.popN_add {α : Type} (n m : Nat) (d : Draws α) : d.popN (n + m) = (d.popN n).popN m := by
  induction n generalizing d with
  | zero => simp [Draws.popN]
  | succ n ih => rw [Nat.add_right_comm]; simp [Draws.popN, ih]

/-! ### Micro-operations -/

/-- The word SEND_BYTE's loop forms decodes to the SEND_BIT it stands for. -/
theorem decode_sendBit (b : Level) :
    decodeMicro (microWord 0b00 (b.zeroExtend 8)) = .ok (.sendBit b) := by
  revert b; decide

/-- The word FRAME forms decodes to the SEND_BYTE it stands for. -/
theorem decode_sendByte (v : Byte) : decodeMicro (microWord 0b10 v) = .ok (.sendByte v) := by
  revert v; decide

/-- The rest of SEND_BIT (40_codec.md R120). -/
theorem runs_sendBitRest {a : State} {rest : List Stmt}
    (hp : a.pc = sendBitRest ++ rest) (hc : rest.head? ≠ some .complete) :
    Runs a { a with
      pc := rest, lines := { a.lines with sck := 0 }
      trace := a.trace ++ [.wait 1, .drv .sck 1, .wait 1, .drv .sck 0] } := by
  refine (Runs.straight [.waitMin 1, .drive .sck 1, .waitMin 1, .drive .sck 0] rfl hp hc).to ?_
  simp [Prim.effect, perform, State.drive, State.waitMin, State.emit, Lines.set]

/-- SEND_BIT, called. -/
theorem runs_sendBit {a : State} {c : CallSite} {b : Level} {rest : List Stmt}
    (hp : a.pc = .call c :: rest) (hd : decodeMicro (c.microWord a.r) = .ok (.sendBit b))
      (hc : rest.head? ≠ some .complete) :
    Runs a { a with
      pc := rest, lines := { a.lines with sdo := b, sck := 0 }
      trace := a.trace ++ sbTrace b } := by
  refine ((Runs.call hp hd rfl).trans
      (runs_sendBitRest
        (a := (State.push {a with pc := rest} sendBitRest).drive .sdo b) rfl hc)).to ?_
  simp [sbTrace, Lines.set]

/-- The rest of READ_BIT (40_codec.md R121). -/
theorem runs_readBitRest {a : State} {rest : List Stmt}
    (hp : a.pc = readBitRest ++ rest) (hc : rest.head? ≠ some .complete) :
    Runs a { a with
      pc := rest, lines := { a.lines with sck := 0 }
      r := { a.r with rxBit := a.nextSdi }
      trace := a.trace ++ [.wait 1, .smp .sdi a.nextSdi, .drv .sck 0, .wait 1]
      env := { a.env with sdi := a.env.sdi.pop } } := by
  refine (Runs.straight [.waitMin 1, .sampleSdi, .drive .sck 0, .waitMin 1] rfl hp hc).to ?_
  simp [Prim.effect, perform, State.drive, State.waitMin, State.emit, Lines.set, State.sampleSdi, State.nextSdi]

/-- READ_BIT, called. -/
theorem runs_readBit {a : State} {rest : List Stmt}
    (hp : a.pc = .call .readBit :: rest) (hc : rest.head? ≠ some .complete) :
    Runs a { a with
      pc := rest, lines := { a.lines with sck := 0 }
      r := { a.r with rxBit := a.nextSdi }
      trace := a.trace ++ rbTrace a.nextSdi
      env := { a.env with sdi := a.env.sdi.pop } } := by
  have hd : decodeMicro (CallSite.readBit.microWord a.r) = .ok .readBit := by
    simp only [CallSite.microWord]; decide
  refine ((Runs.call hp hd rfl).trans
      (runs_readBitRest
        (a := (State.push {a with pc := rest} readBitRest).drive .sck 1) rfl hc)).to ?_
  simp [rbTrace, Lines.set, State.nextSdi]

/-- Iterations of SEND_BYTE's loop. -/
theorem runs_txIters (js : List Nat) {a : State} {rest : List Stmt}
    (hp : a.pc = js.flatMap sendByteIter ++ rest) (hc : rest.head? ≠ some .complete) :
    Runs a { a with
      pc := rest
      lines := js.foldl (fun l j => { l with sdo := msbFirst a.r.txByte j, sck := 0 }) a.lines
      r := { a.r with bitCnt := a.r.bitCnt + BitVec.ofNat 4 js.length }
      trace := a.trace ++ js.flatMap fun j => sbTrace (msbFirst a.r.txByte j) } := by
  induction js generalizing a with
  | nil => exact (Runs.refl a).to (by cases a; simp at hp; simp [hp])
  | cons j js ih =>
    have hp' : a.pc = .call (.sendTxBit j) :: .prim .incBitCnt ::
        (js.flatMap sendByteIter ++ rest) := by
      simpa [sendByteIter] using hp
    have h1 := runs_sendBit (b := msbFirst a.r.txByte j) hp' (decode_sendBit _) (by simp)
    have hne : (js.flatMap sendByteIter ++ rest).head? ≠ some .complete := by
      cases js <;> simp_all [sendByteIter]
    have h2 := Runs.straight [.incBitCnt]
        (rest := js.flatMap sendByteIter ++ rest) rfl (a := { a with
      pc := .prim .incBitCnt ::
        (js.flatMap sendByteIter ++ rest), lines := { a.lines with sdo := msbFirst a.r.txByte j, sck := 0 }
      trace := a.trace ++ sbTrace (msbFirst a.r.txByte j) }) rfl hne
    have h3 := ih (a := { a with
      pc := (js.flatMap sendByteIter ++ rest), lines := { a.lines with sdo := msbFirst a.r.txByte j, sck := 0 }
      r := { a.r with bitCnt := a.r.bitCnt + 1 }
      trace := a.trace ++ sbTrace (msbFirst a.r.txByte j) }) rfl
    have := (h1.trans h2).trans h3
    refine this.to ?_
    have : (1#4 + BitVec.ofNat 4 js.length) = BitVec.ofNat 4 (js.length + 1) := by
      apply BitVec.eq_of_toNat_eq; simp; omega
    simp [BitVec.add_assoc, this]

/-- The rest of SEND_BYTE (40_codec.md R122). -/
theorem runs_sendByteRest {a : State} {rest : List Stmt}
    (hp : a.pc = sendByteRest ++ rest) (hc : rest.head? ≠ some .complete) :
    Runs a { a with
      pc := rest
      lines := { a.lines with sdo := a.r.txByte.extractLsb' 0 1, sck := 0 }
      r := { a.r with bitCnt := a.r.bitCnt + 8 }
      trace := a.trace ++ sendByteTrace a.r.txByte } :=
  (runs_txIters (List.range 8) hp hc).to rfl

/-- SEND_BYTE, called. -/
theorem runs_sendByte {a : State} {c : CallSite} {v : Byte} {rest : List Stmt}
    (hp : a.pc = .call c :: rest) (hd : decodeMicro (c.microWord a.r) = .ok (.sendByte v))
      (hc : rest.head? ≠ some .complete) :
    Runs a { a with
      pc := rest
      lines := { a.lines with sdo := v.extractLsb' 0 1, sck := 0 }
      r := { a.r with bitCnt := a.r.bitCnt + 8, txByte := v }
      trace := a.trace ++ sendByteTrace v } := by
  exact ((Runs.call hp hd rfl).trans
      (runs_sendByteRest
        (a := {(State.push {a with pc := rest} sendByteRest) with r := {a.r with txByte := v}}) rfl hc)).to rfl

/-- Iterations of READ_BYTE's loop. -/
theorem runs_readIters (n : Nat) {a : State} {rest : List Stmt}
    (hp : a.pc = (List.replicate n readByteIter).flatten ++ rest)
      (hc : rest.head? ≠ some .complete) :
    Runs a { a with
      pc := rest
      lines := if n = 0 then a.lines else { a.lines with sck := 0 }
      r := { a.r with
        rxBit := (a.sdiBits n).getLastD a.r.rxBit
        acc := (a.sdiBits n).foldl shiftIn a.r.acc
        bitCnt := a.r.bitCnt + BitVec.ofNat 4 n }
      trace := a.trace ++ (a.sdiBits n).flatMap rbTrace
      env := { a.env with sdi := a.env.sdi.popN n } } := by
  induction n generalizing a with
  | zero => exact (Runs.refl a).to (by cases a; simp at hp; simp [hp, State.sdiBits, Draws.peekN, Draws.popN])
  | succ n ih =>
    have hp' : a.pc = .call .readBit :: .prim .shiftAcc :: .prim .incBitCnt ::
        ((List.replicate n readByteIter).flatten ++ rest) := by
      simpa [readByteIter, List.replicate_succ] using hp
    have h1 := runs_readBit hp' (by simp)
    have hne : ((List.replicate n readByteIter).flatten ++ rest).head? ≠ some .complete := by
      cases n <;> simp_all [readByteIter, List.replicate_succ]
    have h2 := Runs.straight [.shiftAcc, .incBitCnt]
        (rest := (List.replicate n readByteIter).flatten ++ rest) rfl (a := { a with
      pc := .prim .shiftAcc :: .prim .incBitCnt ::
        ((List.replicate n readByteIter).flatten ++ rest), lines := { a.lines with sck := 0 }
      r := { a.r with rxBit := a.nextSdi }
      trace := a.trace ++ rbTrace a.nextSdi
      env := { a.env with sdi := a.env.sdi.pop } }) rfl hne
    have h3 := ih (a := { a with
      pc := (List.replicate n readByteIter).flatten ++ rest, lines := { a.lines with sck := 0 }
      r := { a.r with rxBit := a.nextSdi, acc := shiftIn a.r.acc a.nextSdi, bitCnt := a.r.bitCnt + 1 }
      trace := a.trace ++ rbTrace a.nextSdi
      env := { a.env with sdi := a.env.sdi.pop } }) rfl
    have := (h1.trans h2).trans h3
    refine this.to ?_
    have : (1#4 + BitVec.ofNat 4 n) = BitVec.ofNat 4 (n + 1) := by
      apply BitVec.eq_of_toNat_eq; simp; omega
    have hn : (a.sdiBits (n + 1)) = a.nextSdi :: Draws.peekN Config.freeSdi n a.env.sdi.pop := rfl
    rw [hn]
    cases n with
    | zero => simp [State.sdiBits, Draws.peekN, Draws.popN]
    | succ m =>
      simp [State.sdiBits, Draws.peekN, Draws.popN, BitVec.add_assoc, this, List.getLast?_cons]

/-- The rest of READ_BYTE (40_codec.md R123). -/
theorem runs_readByteRest {a : State} {rest : List Stmt}
    (hp : a.pc = readByteRest ++ rest) (hc : rest.head? ≠ some .complete) :
    Runs a { a with
      pc := rest
      lines := { a.lines with sck := 0, ffs := 1 }
      r := { a.r with
        rxBit := (a.sdiBits 8).getLastD 0
        acc := byteOfBits (a.sdiBits 8)
        bitCnt := a.r.bitCnt + 8 }
      trace := a.trace ++ (a.sdiBits 8).flatMap rbTrace ++ [.drv .ffs 1]
      env := { a.env with sdi := a.env.sdi.popN 8 } } := by
  have hp' : a.pc = [Stmt.prim .clearAcc] ++ ((List.replicate 8 readByteIter).flatten ++
      (drv .ffs 1 :: rest)) := by
    simpa [readByteRest] using hp
  have h1 := Runs.straight [.clearAcc] rfl hp' (by simp [List.replicate_succ, readByteIter])
  have h2 := runs_readIters 8
      (rest := drv .ffs 1 :: rest)
        (a := { a with pc := (List.replicate 8 readByteIter).flatten ++
          (drv .ffs 1 :: rest), r := { a.r with acc := 0 } }) rfl (by simp [drv])
  have h3 := (h1.trans h2).trans (Runs.straight [.drive .ffs 1] rfl rfl hc)
  refine h3.to ?_
  simp [Prim.effect, perform, State.drive, Lines.set, byteOfBits, State.sdiBits]
  simp [Draws.peekN]

/-- READ_BYTE, called. -/
theorem runs_readByte {a : State} {rest : List Stmt}
    (hp : a.pc = .call .readByte :: rest) (hc : rest.head? ≠ some .complete) :
    Runs a { a with
      pc := rest
      lines := { a.lines with sck := 0, ffs := 1 }
      r := { a.r with
        rxBit := (a.sdiBits 8).getLastD 0
        acc := byteOfBits (a.sdiBits 8)
        bitCnt := a.r.bitCnt + 8 }
      trace := a.trace ++ readByteTrace (a.sdiBits 8)
      env := { a.env with sdi := a.env.sdi.popN 8 } } := by
  have hd : decodeMicro (CallSite.readByte.microWord a.r) = .ok .readByte := by
    simp only [CallSite.microWord]; decide
  refine ((Runs.call hp hd rfl).trans
      (runs_readByteRest
        (a := (State.push {a with pc := rest} readByteRest).drive .ffs 0) rfl hc)).to ?_
  simp [State.drive, State.push, readByteTrace, Lines.set, State.sdiBits]

end Sys2Proof.Machine
end

