-- ==== Sys2Proof/Laws/Decode.lean ====
section
/-! SUPPORT. The opcode table's rows: every pattern lies under its mask, no word matches two rows, and
every address of the host port has its own slot. -/

namespace Sys2Proof

theorem opRows_pattern_under_mask : ∀ r ∈ opRows, r.pattern &&& r.mask = r.pattern := by decide

theorem microRows_pattern_under_mask : ∀ r ∈ microRows, r.pattern &&& r.mask = r.pattern := by decide

/-- No OP byte matches two rows. -/
theorem opRows_disjoint :
    opRows.Pairwise fun r q => ∀ v : BitVec 8, (r.matches v && q.matches v) = false := by decide

/-- No micro-operation word matches two rows: any two differ in a bit both check. -/
theorem microRows_disjoint :
    microRows.Pairwise fun r q => r.mask &&& q.mask &&& (r.pattern ^^^ q.pattern) ≠ 0 := by decide

@[simp] theorem HostReg.ofAddr_addr (r : HostReg) : HostReg.ofAddr r.addr = r := by cases r <;> rfl

@[simp] theorem HostReg.addr_ofAddr : ∀ a : HostAddr, (HostReg.ofAddr a).addr = a := by decide

end Sys2Proof
end

