-- ==== Sys2Proof/Laws/Invariant.lean ====
section
/-! SUPPORT. How the engine's invariant passes through a primitive, a completion and the entry of a
micro-operation: the lines' promise, and that an operation runs statements of its own. -/

namespace Sys2Proof.Machine

/-- The shadow of a state at least as well known: the level of `SDO` known where it was not. -/
def Shadow.Le (h h' : Shadow) : Prop :=
  h.sel = h'.sel ∧ h.sck = h'.sck ∧
    (h.sdo = none ∨ h.sdo = h'.sdo) ∧ h.ffs = h'.ffs ∧ h.cnt = h'.cnt

/-- Idle stays idle when more is known. -/
theorem Shadow.Le.idle {h h' : Shadow}
    (hl : Shadow.Le h h') (e : h = Shadow.idle) : h' = Shadow.idle := by
  subst e
  obtain ⟨a, b, c, d, f⟩ := hl
  rcases h' with ⟨a', b', c', d', f'⟩
  rcases c with c | c
  · exact absurd c (by simp [Shadow.idle])
  · simp only [Shadow.idle] at *
    subst a b c d f
    rfl

/-- Whether bits come in does not depend on `SDO`. -/
theorem Shadow.Le.readsBits {h h' : Shadow} (hl : Shadow.Le h h') : h.readsBits = h'.readsBits := by
  simp only [Shadow.readsBits, hl.1, hl.2.2.2.1]

theorem Shadow.Le.prim {h h' : Shadow}
    (hl : Shadow.Le h h') (p : Prim) : Shadow.Le (h.prim p) (h'.prim p) := by
  rcases h with ⟨a, b, c, d, f⟩
  rcases h' with ⟨a', b', c', d', f'⟩
  simp only [Shadow.Le] at *
  obtain ⟨rfl, rfl, hc, rfl, rfl⟩ := hl
  cases p with
  | drive l v => cases l <;> simp [Shadow.prim, hc]
  | _ => simp [Shadow.prim, hc]

theorem Shadow.Le.instr {h h' : Shadow}
    (hl : Shadow.Le h h') (p : Instr) : Shadow.Le (h.instr p) (h'.instr p) := by
  rcases h with ⟨a, b, c, d, f⟩
  rcases h' with ⟨a', b', c', d', f'⟩
  simp only [Shadow.Le] at *
  obtain ⟨rfl, rfl, hc, rfl, rfl⟩ := hl
  cases p <;> simp [Shadow.instr, hc]

/-- What ends idle still does when more is known. -/
theorem endsIdle_mono (n : Nat) (pc : List Stmt) : ∀ {h h' : Shadow}, Shadow.Le h h' →
    endsIdle n pc h = true → endsIdle n pc h' = true := by
  induction pc with
  | nil =>
    intro h h' hl e
    simp only [endsIdle, beq_iff_eq] at *
    exact hl.idle e
  | cons st rest ih =>
    intro h h' hl e
    cases st with
    | complete => simp only [endsIdle, beq_iff_eq] at *; exact hl.idle e
    | prim p =>
      simp only [endsIdle, Bool.and_eq_true] at *
      refine ⟨?_, ih (Shadow.Le.prim hl p) e.2⟩
      have e1 := e.1
      clear ih e
      have := hl.idle
      cases p <;> simp only [Shadow.primOk, beq_iff_eq, Bool.and_eq_true] at e1 ⊢ <;> first
        | exact hl.idle e1 | exact ⟨hl.idle e1.1, e1.2⟩
        | exact ⟨hl.2.1.symm.trans e1.1, hl.readsBits ▸ e1.2⟩ | exact e1
    | call c =>
      simp only [endsIdle] at *
      cases hk : c.kind with
      | ok i =>
        simp only [hk, Bool.and_eq_true, beq_iff_eq] at *
        exact ⟨⟨hl.2.1.symm.trans e.1.1, hl.readsBits ▸ e.1.2⟩, ih (Shadow.Le.instr hl i) e.2⟩
      | error x => simp [hk] at e

/-- A frame leads from the idle lines to the idle lines. -/
theorem endsIdle_frame (n : Nat) (rest : List Stmt) (e : endsIdle n rest Shadow.idle = true) :
    endsIdle n (frame ++ rest) Shadow.idle = true := by
  simp [frame,
    endsIdle, Shadow.primOk, Shadow.prim, drv, wait, CallSite.kind, Shadow.instr, Shadow.idle]
  exact e

theorem packetStatus_ne (a b : Byte) : packetStatus a b ≠ 3 := by
  unfold packetStatus; split <;> decide

/-- A primitive keeps the promise of ending idle. -/
theorem perform_keeps_endsIdle {p : Prim} {rest : List Stmt} {s t : State} (hp : s.pc = rest)
   (h : perform p s = .next t) (e : endsIdle s.nCfg.toNat (.prim p :: rest) s.shadow = true) :
   endsIdle t.nCfg.toNat t.pc t.shadow = true := by
  subst hp
  simp only [endsIdle, Bool.and_eq_true] at e
  obtain ⟨e1, e2⟩ := e
  cases p with
  | drive l v => cases h; cases l <;> exact e2
  | sampleIrq =>
    cases h
    simp only [State.push, endsIdle, List.cons_append, List.nil_append, Bool.and_eq_true]
    exact ⟨e1, e2⟩
  | ifReady lvl =>
    simp only [perform, Host.Outcome.next.injEq] at h
    split at h <;> subst h
    · exact e2
    · simp only [State.push, endsIdle, List.cons_append, List.nil_append, Bool.and_eq_true]
      exact ⟨e1, e2⟩
  | ifExpired =>
    simp only [perform, Host.Outcome.next.injEq] at h
    have hs : s.beforeExpired.shadow = s.shadow := by
      simp only [State.shadow, State.beforeExpired]
      split
      · simp [Datapath.waitOut]; split <;> rfl
      · rfl
    split at h <;> subst h
    · show endsIdle s.nCfg.toNat receiveTimedOut s.beforeExpired.shadow = true
      rw [hs]
      simp only [Shadow.primOk, beq_iff_eq] at e1
      simp [receiveTimedOut, endsIdle, Shadow.primOk, Shadow.prim, e1, resultNoData]
    · show endsIdle s.nCfg.toNat ([.prim .sampleIrq] ++ s.pc) s.beforeExpired.shadow = true
      rw [hs]
      simp only [endsIdle, List.cons_append, List.nil_append, Bool.and_eq_true]
      exact ⟨e1, e2⟩
  | ifDelay =>
    simp only [perform, Host.Outcome.next.injEq] at h
    split at h <;> subst h
    · exact e2
    · exact e2
  | ifChecksum =>
    cases h
    simp only [State.push, endsIdle, List.cons_append, List.nil_append, Bool.and_eq_true]
    exact ⟨bne_iff_ne.mpr (packetStatus_ne _ _), e2⟩
  | cfgFor k =>
    simp only [perform, Host.Outcome.next.injEq] at h
    split at h <;> subst h
    · simp only [State.push, cfgBody, endsIdle, List.cons_append, List.nil_append, Bool.and_eq_true]
      refine ⟨rfl, ?_, e2⟩
      simp only [Shadow.primOk, Bool.and_eq_true, decide_eq_true_eq]
      exact ⟨e1, ‹_›⟩
    · exact e2
  | memRead k =>
    simp only [perform] at h
    split at h
    · cases h
      simp only [Shadow.primOk, Bool.and_eq_true, beq_iff_eq] at e1
      show endsIdle s.nCfg.toNat (cfgSend k _ ++ s.pc) s.shadow = true
      have e2 : endsIdle s.nCfg.toNat s.pc s.shadow = true := e2
      rw [e1.1] at e2 ⊢
      simp only [cfgSend, List.cons_append, List.nil_append, List.append_assoc,
        endsIdle, Bool.and_eq_true]
      refine ⟨rfl, rfl, rfl, endsIdle_frame _ _ ?_⟩
      simp only [endsIdle, Bool.and_eq_true]
      exact ⟨rfl, rfl, e2⟩
    · exact absurd h (by simp)
  | _ => cases h; exact e2

theorem complete_keeps_endsIdle {s : State} {rest}
    (hp : s.pc = .complete :: rest) (e : endsIdle s.nCfg.toNat s.pc s.shadow = true) :
   endsIdle s.complete.nCfg.toNat s.complete.pc s.complete.shadow = true := by
  rw [hp] at e; exact e

/-- The rest of SEND_BIT, from `SCK` low. -/
theorem endsIdle_sendBitRest (n) (rest)
    (h : Shadow) (h0 : h.sck = 0) (e : endsIdle n rest h = true) :
      endsIdle n (sendBitRest ++ rest) h = true := by
  rcases h with ⟨a, b, c, d, f⟩
  subst h0
  exact e

/-- The rest of READ_BIT, after its clock rise. -/
theorem endsIdle_readBitRest (n) (rest)
    (h : Shadow) (h0 : h.sck = 0) (hr : h.readsBits = true) (e : endsIdle n rest h = true) :
      endsIdle n (readBitRest ++ rest) {h with sck := 1} = true := by
  rcases h with ⟨a, b, c, d, f⟩
  subst h0
  have hr' : (⟨a, 1, c, d, f⟩ : Shadow).readsBits = true := hr
  have : endsIdle n (readBitRest ++ rest) ⟨a, 1, c, d, f⟩ =
    ((⟨a, 1, c, d, f⟩ : Shadow).readsBits && endsIdle n rest ⟨a, 0, c, d, f⟩) := rfl
  rw [this, hr', e]
  rfl

/-- Eight increments of `r.BITCNT`. -/
theorem eight_increments : ∀ c : Nibble, c + 1 + 1 + 1 + 1 + 1 + 1 + 1 + 1 = c + 8 := by decide

/-- The rest of SEND_BYTE, whose last bit is not known. -/
theorem endsIdle_sendByteRest (n) (rest)
    (h : Shadow) (h0 : h.sck = 0) (e :
      endsIdle n rest {h with sdo := none, cnt := h.cnt + 8} = true) :
        endsIdle n (sendByteRest ++ rest) h = true := by
  rcases h with ⟨a, b, c, d, f⟩
  simp only at h0 e
  subst h0
  rw [← eight_increments] at e
  exact e

/-- The rest of READ_BYTE, after `FFS` fell. -/
theorem endsIdle_readByteRest (n) (rest)
    (h : Shadow) (h0 : h.sck = 0) (e :
      endsIdle n rest {h with ffs := 1, cnt := h.cnt + 8} = true) :
        endsIdle n (readByteRest ++ rest) {h with ffs := 0} = true := by
  rcases h with ⟨a, b, c, d, f⟩
  simp only at h0 e
  subst h0
  rw [← eight_increments] at e
  exact e

/-- The micro-operation a place performs moves the shadow as its kind says. -/
theorem kind_moves_shadow {c : CallSite} {r : Datapath} {i j : Instr} (hk : c.kind = .ok i)
    (hd : decodeMicro (c.microWord r) = .ok j) (h : Shadow) :
    h.instr j = h.instr i := by
  have e1 : ∀ v : Byte, ∃ v', decodeMicro (microWord 0b10 v) = .ok (.sendByte v') := by
    intro v; exact ⟨v, by revert v; decide⟩
  have e2 : ∀ v : Level, ∃ v', decodeMicro (microWord 0b00 (v.zeroExtend 8)) = .ok (.sendBit v') := by
    intro v; exact ⟨v, by revert v; decide⟩
  cases c with
  | sendCmd1 => obtain ⟨v', hv⟩ := e1 r.lCmd1; simp only [CallSite.microWord, hv] at hd; cases hd; cases hk; rfl
  | sendCmd2 => obtain ⟨v', hv⟩ := e1 r.lCmd2; simp only [CallSite.microWord, hv] at hd; cases hd; cases hk; rfl
  | sendTxBit j =>
    obtain ⟨v', hv⟩ := e2 (msbFirst r.txByte j)
    simp only [CallSite.microWord, hv] at hd; cases hd; cases hk; rfl
  | readBit => 
    have : decodeMicro (microWord 0b01 0) = .ok .readBit := by decide
    simp only [CallSite.microWord, this] at hd; cases hd; cases hk; rfl
  | readByte => 
    have : decodeMicro (microWord 0b11 0) = .ok .readByte := by decide
    simp only [CallSite.microWord, this] at hd; cases hd; cases hk; rfl
  | word w => simp only [CallSite.microWord] at hd; simp only [CallSite.kind] at hk; rw [hk] at hd; cases hd; rfl

/-- A place whose kind is known forms a word that decodes. -/
theorem kind_decodes {c : CallSite} {i : Instr} (r : Datapath)
    (hk : c.kind = .ok i) : ∃ j, decodeMicro (c.microWord r) = .ok j := by
  cases c with
  | sendCmd1 =>
    refine ⟨.sendByte r.lCmd1, ?_⟩
    show decodeMicro (microWord _ r.lCmd1) = _
    generalize r.lCmd1 = v
    revert v; decide
  | sendCmd2 =>
    refine ⟨.sendByte r.lCmd2, ?_⟩
    show decodeMicro (microWord _ r.lCmd2) = _
    generalize r.lCmd2 = v
    revert v; decide
  | sendTxBit j =>
    refine ⟨.sendBit (msbFirst r.txByte j), ?_⟩
    show decodeMicro (microWord _ ((msbFirst r.txByte j).zeroExtend 8)) = _
    generalize msbFirst r.txByte j = v
    revert v; decide
  | readBit => exact ⟨.readBit, by show decodeMicro (microWord _ _) = _; decide⟩
  | readByte => exact ⟨.readByte, by show decodeMicro (microWord _ _) = _; decide⟩
  | word w => exact ⟨i, hk⟩

/-- What a primitive does to r.CUR_OP, PKT0's high half and RESULT. -/
theorem perform_regs {p : Prim} {s t : State} (h : perform p s = .next t) :
    t.r.curOp = s.r.curOp ∧ (s.x.pkt0.extractLsb' 4 4 = 0 → t.x.pkt0.extractLsb' 4 4 = 0) ∧
    ((∀ c, p = .setResult c → c ≠ 3) → s.x.result ≠ 3 → t.x.result ≠ 3) := by
  have hz : ∀ v, (packetByte0 v).extractLsb' 4 4 = 0 := by decide
  cases p with
  | ifReady lvl =>
    simp only [perform, Host.Outcome.next.injEq] at h
    split at h <;> subst h <;> exact ⟨rfl, id, fun _ => id⟩
  | ifExpired =>
    simp only [perform, Host.Outcome.next.injEq] at h
    have : s.beforeExpired.r.curOp = s.r.curOp := by
      simp only [State.beforeExpired]
      split
      · simp [Datapath.waitOut]; split <;> rfl
      · rfl
    split at h <;> subst h <;> exact ⟨this, id, fun _ => id⟩
  | ifDelay =>
    simp only [perform, Host.Outcome.next.injEq] at h
    split at h <;> subst h <;> exact ⟨rfl, id, fun _ => id⟩
  | cfgFor k =>
    simp only [perform, Host.Outcome.next.injEq] at h
    split at h <;> subst h <;> exact ⟨rfl, id, fun _ => id⟩
  | memRead k =>
    simp only [perform] at h
    split at h
    · cases h; exact ⟨rfl, id, fun _ => id⟩
    · exact absurd h (by simp)
  | zeroPkt0 => cases h; exact ⟨rfl, fun _ => (by decide : (0:Byte).extractLsb' 4 4 = 0), fun _ => id⟩
  | setPkt0 => cases h; exact ⟨rfl, fun _ => hz _, fun _ => id⟩
  | setResult c => cases h; exact ⟨rfl, id, fun e _ => e c rfl⟩
  | _ => cases h; exact ⟨rfl, id, fun _ => id⟩

/-- A frame is part of the operations that send one. -/
theorem frame_partOf {code : Byte} (h : code = 0x01 ∨ code = 0x04) :
    frame.all (Stmt.partOf code) = true := by
  rcases h with rfl | rfl <;> rfl

/-- A primitive leaves the operation with statements of its own. -/
theorem perform_keeps_own {p : Prim} {s t : State} (h : perform p s = .next t)
    (e : (Stmt.prim p :: s.pc).all (Stmt.partOf s.r.curOp) = true) :
    t.pc.all (Stmt.partOf t.r.curOp) = true := by
  rw [(perform_regs h).1]
  simp only [List.all_cons, Bool.and_eq_true, Stmt.partOf] at e
  obtain ⟨e1, e2⟩ := e
  have pushed : ∀ ps : List Stmt, ps.all (Stmt.partOf s.r.curOp) = true →
      (ps ++ s.pc).all (Stmt.partOf s.r.curOp) = true := by
    intro ps hp
    rw [List.all_append, hp, e2]
    rfl
  cases p with
  | sampleIrq => cases h; exact pushed [_] (by simpa [Stmt.partOf, Prim.partOf] using e1)
  | ifReady lvl =>
    simp only [perform, Host.Outcome.next.injEq] at h
    split at h <;> subst h
    · exact e2
    · exact pushed [_] (by simpa [Stmt.partOf, Prim.partOf] using e1)
  | ifExpired =>
    simp only [perform, Host.Outcome.next.injEq] at h
    split at h <;> subst h
    · simpa [receiveTimedOut, Stmt.partOf, Prim.partOf] using e1
    · exact pushed [_] (by simpa [Stmt.partOf, Prim.partOf] using e1)
  | ifChecksum => cases h; exact pushed [_] (by simpa [Stmt.partOf, Prim.partOf] using e1)
  | ifDelay =>
    simp only [perform, Host.Outcome.next.injEq] at h
    split at h <;> subst h
    · exact e2
    · exact pushed [_] (by simpa [Stmt.partOf, Prim.partOf] using e1)
  | cfgFor k =>
    simp only [perform, Host.Outcome.next.injEq] at h
    split at h <;> subst h
    · exact pushed _ (by simpa [cfgBody, Stmt.partOf, Prim.partOf] using e1)
    · exact e2
  | memRead k =>
    simp only [perform] at h
    split at h
    · cases h
      refine pushed _ ?_
      have hc : s.r.curOp = 0x04 := by simpa [Prim.partOf] using e1
      rw [hc, cfgSend, List.all_append, List.all_append, frame_partOf (.inr rfl)]
      rfl
    · exact absurd h (by simp)
  | _ => cases h; exact e2

/-- The body of a micro-operation is part of the operations that call it. -/
theorem micro_partOf {i : Instr} {code : Byte} (h : microPartOf code i = true) :
    (∀ b, i = .sendBit b → sendBitRest.all (Stmt.partOf code) = true) ∧
    (i = .readBit → readBitRest.all (Stmt.partOf code) = true) ∧
    (∀ v, i = .sendByte v → sendByteRest.all (Stmt.partOf code) = true) ∧
    (i = .readByte → readByteRest.all (Stmt.partOf code) = true) := by
  refine ⟨?_, ?_, ?_, ?_⟩
  · rintro b -; rfl
  · rintro rfl
    have hc : code = 0x02 := by simpa [microPartOf] using h
    subst hc; rfl
  · rintro v rfl
    have hc : code = 0x01 ∨ code = 0x04 := by simpa [microPartOf] using h
    rcases hc with rfl | rfl <;> rfl
  · rintro rfl
    have hc : code = 0x02 := by simpa [microPartOf] using h
    subst hc; rfl

/-- The micro-operation a place performs is one its kind's operations call. -/
theorem kind_partOf {c : CallSite} {r : Datapath} {i j : Instr} {code : Byte} (hk : c.kind = .ok i)
    (hd : decodeMicro (c.microWord r) = .ok j) : microPartOf code j = microPartOf code i := by
  have e1 : ∀ v : Byte, decodeMicro (microWord 0b10 v) = .ok (.sendByte v) := by decide
  have e2 : ∀ b : Level, decodeMicro (microWord 0b00 (b.zeroExtend 8)) = .ok (.sendBit b) := by decide
  have e3 : decodeMicro (microWord 0b01 0) = .ok .readBit := by decide
  have e4 : decodeMicro (microWord 0b11 0) = .ok .readByte := by decide
  cases c with
  | sendCmd1 => simp only [CallSite.microWord, e1] at hd; cases hd; cases hk; rfl
  | sendCmd2 => simp only [CallSite.microWord, e1] at hd; cases hd; cases hk; rfl
  | sendTxBit j => simp only [CallSite.microWord, e2] at hd; cases hd; cases hk; rfl
  | readBit => simp only [CallSite.microWord, e3] at hd; cases hd; cases hk; rfl
  | readByte => simp only [CallSite.microWord, e4] at hd; cases hd; cases hk; rfl
  | word w =>
    simp only [CallSite.microWord] at hd
    simp only [CallSite.kind] at hk
    rw [hk] at hd; cases hd; rfl

end Sys2Proof.Machine
end

