-- ==== Sys2Proof/Laws/Memory.lean ====
section
/-! SUPPORT. The laws of the table space: read after write, every operation keeps the canonical form. -/

namespace Sys2Proof.Machine

namespace Memory

theorem wfFrom_mono {lo lo' : Nat} {m : Memory} (h : lo' ≤ lo) (hm : wfFrom lo m = true) :
    wfFrom lo' m = true := by
  cases m with
  | nil => rfl
  | cons c m =>
    obtain ⟨a, v⟩ := c
    simp only [wfFrom, Bool.and_eq_true, decide_eq_true_eq] at hm ⊢
    exact ⟨⟨by omega, hm.1.2⟩, hm.2⟩

/-- Below a store that starts at `lo`, every address is unlisted. -/
theorem read_below {lo a : Nat} {m : Memory} (hm : wfFrom lo m = true) (h : a < lo) :
    m.read a = unlisted := by
  induction m generalizing lo with
  | nil => rfl
  | cons c m ih =>
    obtain ⟨b, v⟩ := c
    simp only [wfFrom, Bool.and_eq_true, decide_eq_true_eq] at hm
    rw [read, if_neg (by omega)]
    exact ih hm.2 (by omega)

/-- A write keeps the canonical form. -/
theorem write_wfFrom {lo a : Nat} {m : Memory} (v : Byte) (hm : wfFrom lo m = true) (h : lo ≤ a) :
    wfFrom lo (m.write a v) = true := by
  induction m generalizing lo with
  | nil => unfold write; split <;> simp_all [wfFrom]
  | cons c m ih =>
    obtain ⟨b, u⟩ := c
    simp only [wfFrom, Bool.and_eq_true, decide_eq_true_eq, bne_iff_ne] at hm
    simp only [write]
    split
    · simp [wfFrom, hm.1.1, hm.1.2, ih hm.2 (by omega)]
    · by_cases hb : b = a
      · subst hb
        simp only [if_true]
        split
        · exact wfFrom_mono (by omega) hm.2
        · simp_all [wfFrom]
      · simp only [if_neg hb]
        split
        · simp [wfFrom, hm.1.1, hm.1.2, hm.2]
        · have hab : a + 1 ≤ b := by omega
          simp_all [wfFrom]

theorem write_wf {m : Memory} (a : Nat) (v : Byte) (hm : m.wf = true) : (m.write a v).wf = true :=
  write_wfFrom v hm (Nat.zero_le a)

theorem writeBytes_wf {m : Memory} (a : Nat) (vs : List Byte) (hm : m.wf = true) :
    (m.writeBytes a vs).wf = true := by
  induction vs generalizing m a with
  | nil => exact hm
  | cons v vs ih => exact ih (a + 1) (write_wf a v hm)

/-- A read after a write: the byte written at its address, the old byte everywhere else. -/
theorem read_write {lo : Nat} {m : Memory} (a b : Nat) (v : Byte) (hm : wfFrom lo m = true) :
    (m.write a v).read b = if b = a then v else m.read b := by
  induction m generalizing lo with
  | nil =>
    simp only [write]
    by_cases hv : v = unlisted
    · by_cases hab : b = a <;> simp [hv, hab, read]
    · by_cases hab : b = a
      · simp [hv, hab, read]
      · simp [hv, hab, read, Ne.symm hab]
  | cons c m ih =>
    obtain ⟨d, u⟩ := c
    simp only [wfFrom, Bool.and_eq_true, decide_eq_true_eq] at hm
    simp only [write]
    split
    · rename_i hda
      by_cases hdb : d = b
      · subst hdb
        rw [if_neg (by omega)]
        simp [read]
      · simp [read, hdb, ih hm.2]
    · rename_i hda
      by_cases hda' : d = a
      · subst hda'
        simp only [if_true]
        by_cases hv : v = unlisted
        · rw [if_pos hv]
          by_cases hab : b = d
          · subst hab
            simp [read_below hm.2 (by omega : b < b + 1), hv]
          · simp [hab, read, Ne.symm hab]
        · by_cases hab : b = d
          · simp [hv, hab, read]
          · simp [hv, hab, read, Ne.symm hab]
      · simp only [if_neg hda']
        by_cases hv : v = unlisted
        · rw [if_pos hv]
          by_cases hab : b = a
          · subst hab
            rw [if_pos rfl, hv]
            exact read_below (lo := d) (by simp [wfFrom, hm.1.2, hm.2]) (by omega)
          · simp [hab]
        · by_cases hab : b = a
          · simp [hv, hab, read]
          · simp [hv, hab, read, Ne.symm hab]

end Memory

/-- A table image is in canonical form, whatever the table. -/
theorem tableImage_wf (t : List CfgEntry) : (tableImage t).wf = true :=
  Memory.writeBytes_wf 0 _ rfl

/-- `N_CFG` of a build is the number of entries it holds. -/
theorem tableCount_toNat (t : List CfgEntry) : (tableCount t).toNat = (builtTable t).length := by
  have h : (builtTable t).length ≤ 255 := by
    simp only [builtTable, Config.maxCfg, List.length_take]; omega
  simp only [tableCount, BitVec.toNat_ofNat]
  omega

/-- A table that may be built is built whole. -/
theorem builtTable_of_ok {t : List CfgEntry} (h : cfgTableOk t = true) : builtTable t = t := by
  simp only [cfgTableOk, decide_eq_true_eq] at h
  exact List.take_of_length_le h

/-- The table space at reset is in canonical form. -/
theorem reset_table_wf : State.reset.cfg.wf = true := tableImage_wf Config.cfgTable

end Sys2Proof.Machine
end

