-- ==== Sys2Proof/Laws/Operands.lean ====
section
/-! SUPPORT. Bytes and nibbles of the operands. -/

namespace Sys2Proof.Machine

/-- The low byte of a byte string. -/
theorem low_of_append {n : Nat} (x : BitVec n) (y : Byte) : (x ++ y).extractLsb' 0 8 = y := by
  ext i hi; simp [BitVec.getLsbD_append, hi, BitVec.getLsbD_eq_getElem]

/-- The bytes above it. -/
theorem high_of_append {n : Nat} (x : BitVec n) (y : Byte) (k : Nat) : (x ++ y).extractLsb'
    (8 + k) 8 = x.extractLsb' k 8 := by
  ext i hi
  have : ¬ 8 + k + i < 8 := by omega
  simp only [BitVec.getElem_extractLsb', BitVec.getLsbD_append, this]
  rw [show 8 + k + i - 8 = k + i by omega]; simp

/-- TIMEOUT is little-endian: the byte at the lowest address is its low byte (10_state.md R29). -/
theorem timeout_bytes (x : HostRegs) :
    x.timeout.extractLsb' 0 8 = x.timeout0 ∧ x.timeout.extractLsb' 8 8 = x.timeout1 ∧
    x.timeout.extractLsb' 16 8 = x.timeout2 ∧ x.timeout.extractLsb' 24 8 = x.timeout3 := by
  refine ⟨low_of_append _ _, ?_, ?_, ?_⟩
  · exact (high_of_append _ _ 0).trans (low_of_append _ _)
  · exact (high_of_append _ _ 8).trans ((high_of_append _ _ 0).trans (low_of_append _ _))
  · refine (high_of_append _ _ 16).trans ((high_of_append _ _ 8).trans ((high_of_append _ _ 0).trans ?_))
    simp

/-- Two words with the same four bytes are equal. -/
theorem word_ext_bytes {u t : Word} (h0 : u.extractLsb' 0 8 = t.extractLsb' 0 8) (h1 :
    u.extractLsb' 8 8 = t.extractLsb' 8 8)
  (h2 : u.extractLsb' 16 8 = t.extractLsb' 16 8) (h3 : u.extractLsb' 24 8 = t.extractLsb' 24 8) :
    u = t := by
  have key : ∀ b i : Nat, i < 8 → u.extractLsb' b 8 = t.extractLsb' b 8 →
      u.getLsbD (b + i) = t.getLsbD (b + i) := by
    intro b i hi h
    have := congrArg (fun x => BitVec.getLsbD x i) h
    simpa [hi] using this
  apply BitVec.eq_of_getLsbD_eq
  intro i hi
  by_cases a : i < 8
  · simpa using key 0 i a h0
  by_cases b : i < 16
  · simpa [show 8 + (i - 8) = i by omega] using key 8 (i - 8) (by omega) h1
  by_cases c : i < 24
  · simpa [show 16 + (i - 16) = i by omega] using key 16 (i - 16) (by omega) h2
  · simpa [show 24 + (i - 24) = i by omega] using key 24 (i - 24) (by omega) h3

/-- A slice of an exclusive-or. -/
theorem extract_xor (a b : Byte) (s n : Nat) :
    (a ^^^ b).extractLsb' s n = a.extractLsb' s n ^^^ b.extractLsb' s n := by
  ext i hi; simp

/-- The two nibbles of a byte put together from them. -/
theorem nibbles_append : ∀ n l : Nibble, label (n ++ l) = l ∧ rxChecksum (n ++ l) = n := by decide

/-- A half word put together from its bytes. -/
theorem half_of_bytes (d : Half) : d.extractLsb' 8 8 ++ d.extractLsb' 0 8 = d := by
  apply BitVec.eq_of_getLsbD_eq
  intro i hi
  simp only [BitVec.getLsbD_append]
  by_cases h : i < 8
  · simp [h]
  · simp [h, show 8 + (i - 8) = i by omega]; omega

end Sys2Proof.Machine
end

