-- ==== Sys2Proof/Laws/Operations.lean ====
section
/-! SUPPORT. Runs of the operations: the command frame, a byte of READ_STATUS, a poll sample, RECEIVE_PACKET
after its poll; and SEND_COMMAND, INIT_DEFAULTS and READ_STATUS from launch to completion. -/

namespace Sys2Proof.Machine

/-- Sixteen samples are eight and eight. -/
theorem sdiBits16 (s : State) :
    s.sdiBits 16 = s.sdiBits 8 ++
      (s.env.sdi.popN 8).peekN Config.freeSdi 8 := Draws.peekN_add _ 8 8 _

theorem sdiByte8 (s : State) :
    s.sdiByte 8 = byteOfBits ((s.env.sdi.popN 8).peekN Config.freeSdi 8) := by
  simp only [State.sdiByte]
  rw [show 8 + 8 = 16 from rfl, sdiBits16, List.drop_left'
    (by simp [State.sdiBits, Draws.peekN_length])]

theorem sdiByte0 (s : State) : s.sdiByte 0 = byteOfBits (s.sdiBits 8) := rfl

theorem getLastD_append8 (s : State) : (s.sdiBits 16).getLastD 0 =
    ((s.env.sdi.popN 8).peekN Config.freeSdi 8).getLastD 0 := by
  rw [sdiBits16]
  simp [Draws.peekN]

/-- FRAME up to its last wait, which may be the operation's last statement (41_command.md R140). -/
theorem runs_frameBody {a : State} {rest : List Stmt}
    (hp : a.pc = frame ++ rest) :
    Runs a { a with
      pc := wait 1 :: rest
      lines := ⟨1, 0, 0, a.lines.ffs⟩
      r := { a.r with txByte := a.r.lCmd2, bitCnt := 0 }
      trace := a.trace ++
        ([.drv .sel 0, .wait 1] ++ sendByteTrace a.r.lCmd1 ++ sendByteTrace a.r.lCmd2
    ++ [.drv .sel 1, .drv .sdo 0, .drv .sck 0]) } := by
  have hp' : a.pc = [Prim.clearBitCnt, .drive .sel 0, .waitMin 1].map .prim ++
      (.call .sendCmd1 :: .call .sendCmd2 ::
     drv .sel 1 :: drv .sdo 0 :: drv .sck 0 :: wait 1 :: rest) := by
    simpa [frame, drv, wait] using hp
  have h1 := Runs.straight _ rfl hp' (by simp)
  have h2 := h1.trans
      (runs_sendByte (c := .sendCmd1) (v := a.r.lCmd1) rfl (decode_sendByte _) (by simp))
  have h3 := h2.trans
      (runs_sendByte (c := .sendCmd2) (v := a.r.lCmd2) rfl (decode_sendByte _) (by simp [drv]))
  have h4 := h3.trans
      (Runs.straight [.drive .sel 1, .drive .sdo 0, .drive .sck 0] rfl rfl (by simp [wait]))
  refine h4.to ?_
  simp [Prim.effect, perform, State.drive, State.waitMin, State.emit, Lines.set]

/-- FRAME, when it is not the operation's end (41_command.md R140). -/
theorem runs_frame {a : State} {rest : List Stmt}
    (hp : a.pc = frame ++ rest) (hc : rest.head? ≠ some .complete) :
    Runs a { a with
      pc := rest
      lines := ⟨1, 0, 0, a.lines.ffs⟩
      r := { a.r with txByte := a.r.lCmd2, bitCnt := 0 }
      trace := a.trace ++ frameTrace a.r.lCmd1 a.r.lCmd2 } := by
  refine ((runs_frameBody hp).trans (Runs.straight [.waitMin 1] rfl rfl hc)).to ?_
  simp [Prim.effect, perform, State.waitMin, State.emit, frameTrace]

/-- Inline bit steps of READ_STATUS (43_status_reader.md R181). -/
theorem runs_statusIters (n : Nat) {a : State} {rest : List Stmt}
    (hp : a.pc = (List.replicate n statusBitStep).flatten ++ rest)
      (hc : rest.head? ≠ some .complete) :
    Runs a { a with
      pc := rest
      lines := if n = 0 then a.lines else { a.lines with sck := 0 }
      r := { a.r with
        rxBit := (a.sdiBits n).getLastD a.r.rxBit
        acc := (a.sdiBits n).foldl shiftIn a.r.acc
        bitCnt := a.r.bitCnt + BitVec.ofNat 4 n }
      trace := a.trace ++ (a.sdiBits n).flatMap rbTrace
      env := { a.env with sdi := a.env.sdi.popN n } } := by
  induction n generalizing a with
  | zero => exact (Runs.refl a).to (by cases a; simp at hp; simp [hp, State.sdiBits, Draws.peekN, Draws.popN])
  | succ n ih =>
    have hne : ((List.replicate n statusBitStep).flatten ++ rest).head? ≠ some .complete := by
      cases n <;> simp_all [statusBitStep, List.replicate_succ, drv]
    have h2 := Runs.straight
      [.drive .sck 1, .waitMin 1, .sampleSdi, .drive .sck 0, .waitMin 1, .shiftAcc, .incBitCnt]
      (rest := (List.replicate n statusBitStep).flatten ++ rest) rfl (a := a)
      (by simpa [List.replicate_succ, statusBitStep, drv, wait] using hp) hne
    have h3 := ih (a := { a with
      pc := (List.replicate n statusBitStep).flatten ++ rest, lines := { a.lines with sck := 0 }
      r := { a.r with rxBit := a.nextSdi, acc := shiftIn a.r.acc a.nextSdi, bitCnt := a.r.bitCnt + 1 }
      trace := a.trace ++ rbTrace a.nextSdi
      env := { a.env with sdi := a.env.sdi.pop } }) rfl
    have h2' := h2.to (u' := { a with
      pc := (List.replicate n statusBitStep).flatten ++ rest, lines := { a.lines with sck := 0 }
      r := { a.r with rxBit := a.nextSdi, acc := shiftIn a.r.acc a.nextSdi, bitCnt := a.r.bitCnt + 1 }
      trace := a.trace ++ rbTrace a.nextSdi
      env := { a.env with sdi := a.env.sdi.pop } }) (by
        simp [Prim.effect, perform, State.drive, State.waitMin, State.emit, State.sampleSdi, Lines.set,
          rbTrace, State.nextSdi])
    have := h2'.trans h3
    refine this.to ?_
    have : (1#4 + BitVec.ofNat 4 n) = BitVec.ofNat 4 (n + 1) := by
      apply BitVec.eq_of_toNat_eq; simp; omega
    have hn : (a.sdiBits (n + 1)) = a.nextSdi :: Draws.peekN Config.freeSdi n a.env.sdi.pop := rfl
    rw [hn]
    cases n with
    | zero => simp [State.sdiBits, Draws.peekN, Draws.popN]
    | succ m =>
      simp [State.sdiBits, Draws.peekN, Draws.popN, BitVec.add_assoc, this, List.getLast?_cons]

/-- One byte of READ_STATUS (43_status_reader.md R180). -/
theorem runs_statusByte {p : Prim} {a : State} {rest : List Stmt}
    (hs : p = .setSwBuf0 ∨ p = .setSwBuf1)
    (hp : a.pc = statusByte p ++ rest) (hc : rest.head? ≠ some .complete) :
    Runs a { Prim.effect { a with
      lines := { a.lines with sck := 0 }
      r := { a.r with
        rxBit := (a.sdiBits 8).getLastD 0
        acc := byteOfBits (a.sdiBits 8)
        bitCnt := a.r.bitCnt + 8 }
      trace := a.trace ++ (a.sdiBits 8).flatMap rbTrace
      env := { a.env with sdi := a.env.sdi.popN 8 } } p with pc := rest } := by
  have hp' : a.pc = [Stmt.prim .clearAcc] ++ ((List.replicate 8 statusBitStep).flatten ++
      (.prim p :: rest)) := by
    simpa [statusByte] using hp
  have h1 := Runs.straight [.clearAcc] rfl hp'
      (by simp [List.replicate_succ, statusBitStep, drv])
  have h2 := runs_statusIters 8
      (rest := .prim p :: rest)
        (a := { a with pc := (List.replicate 8 statusBitStep).flatten ++
          (.prim p :: rest), r := { a.r with acc := 0 } }) rfl (by simp)
  have h3 := (h1.trans h2).trans (Runs.straight [p] (by rcases hs with rfl | rfl <;> rfl) rfl hc)
  refine h3.to ?_
  rcases hs with rfl | rfl <;> simp [Prim.effect, perform, byteOfBits, State.sdiBits, Draws.peekN]

/-- A sample of the poll and the branch on its level (42_packet_receiver.md R163). -/
theorem poll_step {a : State} {p : Stmt} {rest : List Stmt} (hc : p ≠ .complete)
    (hp : a.pc = .prim .sampleIrq :: p :: rest) :
    Runs a { a with
      pc := if a.nextIrq = Config.irqActiveLevel then p :: rest else .prim .ifExpired :: p :: rest
      trace := a.trace ++ [.smp .irq a.nextIrq]
      env := { a.env with irq := a.env.irq.pop } } := by
  have h1 := Runs.primNext (u := { a with
      pc := .prim (.ifReady a.nextIrq) :: p :: rest
      trace := a.trace ++ [.smp .irq a.nextIrq]
      env := { a.env with irq := a.env.irq.pop } }) hp rfl rfl (by simp)
  have h2 := h1.trans (Runs.primNext (u := { a with
      pc := if a.nextIrq = Config.irqActiveLevel then p :: rest else .prim .ifExpired :: p :: rest
      trace := a.trace ++ [.smp .irq a.nextIrq]
      env := { a.env with irq := a.env.irq.pop } }) rfl rfl (by
       simp only [perform]; split <;> rfl) (by simp only; split <;> simp [hc]))
  exact h2

/-- RECEIVE_PACKET from a ready level to its end (42_packet_receiver.md R164 to R167). -/
theorem runs_ready {a : State} (hp : a.pc = receiveReady) : 
    Runs a { a with
          pc := []
          x := { a.x with
            done := 1
            result := if localChecksum (a.sdiByte 0) (a.sdiByte 8) = rxChecksum
              (a.sdiByte 0) then 1 else 2
            pkt0 := (label (a.sdiByte 0)).zeroExtend 8
            pkt1 := a.sdiByte 8 }
          lines := { a.lines with sck := 0, ffs := 1 }
          r := { a.r with
            bitCnt := 0
            acc := a.sdiByte 8, rxBit := (a.sdiBits 16).getLastD 0
            byte1 := a.sdiByte 0, byte2 := a.sdiByte 8 }
          trace := a.trace
            ++ packetTrace ((a.sdiBits 16).take 8) ((a.sdiBits 16).drop 8) ++ [.opEnd a.r.curOp]
          env := { a.env with sdi := a.env.sdi.popN 16 } } := by
  have h1 := Runs.straight [.clearBitCnt] (a := a) rfl (by rw [hp]; rfl) (by simp)
  have h2 := h1.trans (runs_readByte rfl (by simp))
  have h3 := h2.trans (Runs.straight [.setByte1] rfl rfl (by simp))
  have h3' := h3.to (u' := { a with
          pc := [.call .readByte, .prim .setByte2, .prim .setPkt0, .prim .setPkt1, .prim .ifChecksum, .complete]
          lines := { a.lines with sck := 0, ffs := 1 }
          r := { a.r with
            bitCnt := 8
            acc := a.sdiByte 0, rxBit := (a.sdiBits 8).getLastD 0
            byte1 := a.sdiByte 0 }
          trace := a.trace ++ readByteTrace (a.sdiBits 8)
          env := { a.env with sdi := a.env.sdi.popN 8 } }) (by
    simp [Prim.effect, perform, State.sdiBits, sdiByte0])
  have h4 := h3'.trans (runs_readByte (a := { a with
          pc := [.call .readByte, .prim .setByte2, .prim .setPkt0, .prim .setPkt1, .prim .ifChecksum, .complete]
          lines := { a.lines with sck := 0, ffs := 1 }
          r := { a.r with
            bitCnt := 8
            acc := a.sdiByte 0, rxBit := (a.sdiBits 8).getLastD 0
            byte1 := a.sdiByte 0 }
          trace := a.trace ++ readByteTrace (a.sdiBits 8)
          env := { a.env with sdi := a.env.sdi.popN 8 } })
            (rest := [.prim .setByte2, .prim .setPkt0, .prim .setPkt1, .prim .ifChecksum, .complete]) rfl (by simp))
  have h5 := h4.to (u' := { a with
          pc := [.prim .setByte2, .prim .setPkt0, .prim .setPkt1, .prim .ifChecksum, .complete]
          lines := { a.lines with sck := 0, ffs := 1 }
          r := { a.r with
            bitCnt := 0
            acc := a.sdiByte 8, rxBit := (a.sdiBits 16).getLastD 0
            byte1 := a.sdiByte 0 }
          trace := a.trace
            ++ packetTrace ((a.sdiBits 16).take 8) ((a.sdiBits 16).drop 8)
          env := { a.env with sdi := a.env.sdi.popN 16 } }) (by
    rw [sdiByte8, sdiByte0, getLastD_append8, sdiBits16]
    have l8 : (a.sdiBits 8).length = 8 := by simp [State.sdiBits, Draws.peekN_length]
    rw [List.take_left' l8, List.drop_left' l8]
    simp [State.sdiBits, packetTrace, ← Draws.popN_add])
  have h6 := h5.trans
      (Runs.straight [.setByte2, .setPkt0, .setPkt1]
        (rest := [.prim .ifChecksum, .complete]) rfl rfl (by simp))
  have h7 := h6.to (u' := { a with
          pc := [.prim .ifChecksum, .complete]
          x := { a.x with
            pkt0 := (label (a.sdiByte 0)).zeroExtend 8
            pkt1 := a.sdiByte 8 }
          lines := { a.lines with sck := 0, ffs := 1 }
          r := { a.r with
            bitCnt := 0
            acc := a.sdiByte 8, rxBit := (a.sdiBits 16).getLastD 0
            byte1 := a.sdiByte 0, byte2 := a.sdiByte 8 }
          trace := a.trace
            ++ packetTrace ((a.sdiBits 16).take 8) ((a.sdiBits 16).drop 8)
          env := { a.env with sdi := a.env.sdi.popN 16 } }) (by
    simp [Prim.effect, perform, packetByte0])
  let c : BitVec 2 := packetStatus (a.sdiByte 0) (a.sdiByte 8)
  have h8 := h7.trans (Runs.primNext (u := { a with
          pc := [.prim (.setResult c), .complete]
          x := { a.x with
            pkt0 := (label (a.sdiByte 0)).zeroExtend 8
            pkt1 := a.sdiByte 8 }
          lines := { a.lines with sck := 0, ffs := 1 }
          r := { a.r with
            bitCnt := 0
            acc := a.sdiByte 8, rxBit := (a.sdiBits 16).getLastD 0
            byte1 := a.sdiByte 0, byte2 := a.sdiByte 8 }
          trace := a.trace
            ++ packetTrace ((a.sdiBits 16).take 8) ((a.sdiBits 16).drop 8)
          env := { a.env with sdi := a.env.sdi.popN 16 } }) (p := .ifChecksum)
            (rest := [.complete]) rfl rfl (by
           simp only [perform, State.push, c, List.cons_append, List.nil_append]) (by simp))
  have hcc : (if localChecksum (a.sdiByte 0) (a.sdiByte 8) = rxChecksum (a.sdiByte 0) then
      (1 : BitVec 2) else 2) = c := by
    simp [c, packetStatus, packetPasses, resultValid, resultMismatch]
  rw [hcc]
  have h9 := h8.trans (Runs.primLast (u := { a with
          pc := [.complete]
          x := { a.x with
            result := c
            pkt0 := (label (a.sdiByte 0)).zeroExtend 8
            pkt1 := a.sdiByte 8 }
          lines := { a.lines with sck := 0, ffs := 1 }
          r := { a.r with
            bitCnt := 0
            acc := a.sdiByte 8, rxBit := (a.sdiBits 16).getLastD 0
            byte1 := a.sdiByte 0, byte2 := a.sdiByte 8 }
          trace := a.trace
            ++ packetTrace ((a.sdiBits 16).take 8) ((a.sdiBits 16).drop 8)
          env := { a.env with sdi := a.env.sdi.popN 16 } }) (p := .setResult c)
            (rest := [.complete]) (more := []) rfl rfl (by simp only [perform]) rfl)
  exact h9

/-- The datapath after entry k's frame (41_command.md R146). -/
abbrev Datapath.sentEntry (r : Datapath) (k : Nat) (e : CfgEntry) : Datapath :=
  { r with
    lCmd1 := e.cmd1, lCmd2 := e.cmd2, lDelay := e.delayAfterUs, cfgIdx := BitVec.ofNat 8 k
    txByte := e.cmd2, bitCnt := 0 }

/-- The state at `pc` after entry k's frame, the trace longer by `es`. -/
abbrev State.sentEntry (a : State) (k : Nat) (pc : List Stmt) (es : List Event) : State :=
  { a with
    lines := ⟨1, 0, 0, a.lines.ffs⟩
    r := a.r.sentEntry k (a.entry k)
    pc := pc
    trace := a.trace ++ es }

/-- The delay after an entry's frame: one wait unless it is 0. -/
theorem runs_delay (a : State) (k : Nat) (rest : List Stmt) (hc : rest.head? ≠ some .complete) :
    Runs (a.sentEntry k (.prim .ifDelay :: rest) (frameTrace (a.entry k).cmd1 (a.entry k).cmd2))
      (a.sentEntry k rest (entryTrace (a.entry k))) := by
  by_cases hd : (a.entry k).delayAfterUs = 0
  · refine Runs.primNext rfl rfl ?_ hc
    simp [perform, entryTrace, hd]
  · have h : Runs (a.sentEntry k (.prim .ifDelay :: rest) (frameTrace (a.entry k).cmd1 (a.entry k).cmd2))
        (a.sentEntry k (.prim .waitDelay :: rest) (frameTrace (a.entry k).cmd1 (a.entry k).cmd2)) := by
      refine Runs.primNext rfl rfl ?_ (by simp)
      simp only [perform]
      rw [if_neg hd]
      rfl
    refine (h.trans (Runs.straight [.waitDelay] (rest := rest) rfl rfl hc)).to ?_
    have hd' : ¬ (a.entry k).delayAfterUs = 0#16 := hd
    simp [Prim.effect, perform, State.waitMin, State.emit, entryTrace, hd']

/-- INIT_DEFAULTS from the test of entry k, m entries before its end (41_command.md R146). -/
theorem runs_table (m : Nat) : ∀ (a : State) (k : Nat),
    a.pc = [.prim (.cfgFor k), .complete] → k + m = a.nCfg.toNat →
    ∃ u, Runs a u ∧ u = { a with
      pc := []
      x := { a.x with done := 1 }
      lines := if m = 0 then a.lines else ⟨1, 0, 0, a.lines.ffs⟩
      r := if m = 0 then a.r else a.r.sentEntry (k + m - 1) (a.entry (k + m - 1))
      trace := a.trace ++ ((List.range' k m).map a.entry).flatMap entryTrace
        ++ [.opEnd a.r.curOp] } := by
  induction m with
  | zero =>
    intro a k hp hk
    refine ⟨_, Runs.primLast (u := { a with pc := [.complete] }) (more := []) hp rfl ?_ rfl, ?_⟩
    · simp only [perform]
      rw [if_neg (by omega)]
    · simp [State.complete]
  | succ m ih =>
    intro a k hp hk
    have hlt : k < a.nCfg.toNat := by omega
    have h1 : Runs a { a with pc := cfgBody k ++ [.complete] } :=
      Runs.primNext hp rfl (by simp [perform, hlt, State.push]) (by simp [cfgBody])
    have h2 := h1.trans
      (Runs.straight [.setCfgIdx k] (rest := [.prim (.memRead k), .complete]) rfl rfl (by simp))
    have h3 : Runs
        { a with
          pc := [.prim (.memRead k), .complete]
          r := { a.r with cfgIdx := BitVec.ofNat 8 k } }
        { a with
          pc := cfgSend k (a.entry k) ++ [.complete]
          r := { a.r with cfgIdx := BitVec.ofNat 8 k } } := by
      refine Runs.primNext rfl rfl ?_ (by simp [cfgSend])
      have : 4 * k + 4 ≤ 4 * a.nCfg.toNat := by omega
      simp [perform, State.memRead, State.cfgSize, this, State.push]
      rfl
    have h4 := (h2.trans h3).trans
      (Runs.straight
        [.setLCmd1 (a.entry k).cmd1, .setLCmd2 (a.entry k).cmd2,
          .setLDelay (a.entry k).delayAfterUs]
        (rest := frame ++ [.prim .ifDelay, .prim (.cfgFor (k + 1)), .complete]) rfl
        (by simp [cfgSend]) (by simp [frame]))
    have h5 := h4.trans
      (runs_frame (rest := [.prim .ifDelay, .prim (.cfgFor (k + 1)), .complete]) rfl (by simp))
    simp [Prim.effect, perform] at h5
    have h6 := h5.trans (runs_delay a k [.prim (.cfgFor (k + 1)), .complete] (by simp))
    obtain ⟨u, hr, hu⟩ :=
      ih (a.sentEntry k [.prim (.cfgFor (k + 1)), .complete] (entryTrace (a.entry k))) (k + 1) rfl
        (by simp; omega)
    refine ⟨u, h6.trans hr, hu.trans ?_⟩
    have he : ∀ b : State, b.cfg = a.cfg → b.entry = a.entry := by
      intro b h; funext j; simp [State.entry, h]
    rw [show k + 1 + m - 1 = k + (m + 1) - 1 by omega]
    by_cases hm : m = 0
    · subst hm; simp [List.range'_succ, he]
    · simp only [if_neg hm]
      simp [List.range'_succ, he]

/-- SEND_COMMAND from its first statement (41_command.md R142). -/
theorem runs_sendCommand {a : State} (hp : a.pc = sendCommandCode) :
    Runs a { a with
      pc := []
      x := { a.x with done := 1 }
      lines := ⟨1, 0, 0, a.lines.ffs⟩
      r := { a.r with txByte := a.r.lCmd2, bitCnt := 0 }
      trace := a.trace ++ frameTrace a.r.lCmd1 a.r.lCmd2 ++ [.opEnd a.r.curOp] } := by
  refine ((runs_frameBody (rest := [.complete]) hp).trans (Runs.primLast rfl rfl rfl rfl)).to ?_
  simp [State.complete, frameTrace, State.waitMin, State.emit]

/-- READ_STATUS from its first statement (43_status_reader.md R180, R182). -/
theorem runs_readStatus {a : State} (hp : a.pc = readStatusCode) :
    Runs a { a with
      pc := []
      x := { a.x with done := 1, sw0 := a.sdiByte 0, sw1 := a.sdiByte 8 }
      lines := ⟨1, 0, 0, a.lines.ffs⟩
      r := { a.r with
        bitCnt := 0, acc := a.sdiByte 8, rxBit := (a.sdiBits 16).getLastD 0
        swBuf0 := a.sdiByte 0, swBuf1 := a.sdiByte 8 }
      trace := a.trace ++ statusTrace (a.sdiBits 16) ++ [.opEnd a.r.curOp]
      env := { a.env with sdi := a.env.sdi.popN 16 } } := by
  have h1 : Runs a _ := Runs.straight [.clearBitCnt, .drive .sel 0, .waitMin 1, .drive .sdo 0, .waitMin 1]
    (rest := statusByte .setSwBuf0 ++ (statusByte .setSwBuf1
      ++ [drv .sel 1, drv .sdo 0, .prim .publishStatus, .complete])) rfl
    (by simp [hp, readStatusCode, drv, wait]) (by simp [statusByte])
  have h2 := h1.trans (runs_statusByte (.inl rfl) rfl (by simp [statusByte]))
  have h3 := h2.trans (runs_statusByte (.inr rfl) rfl (by simp [drv]))
  have h4 := h3.trans
    (Runs.straight [.drive .sel 1, .drive .sdo 0] (rest := [.prim .publishStatus, .complete]) rfl rfl
      (by simp))
  refine (h4.trans (Runs.primLast rfl rfl rfl rfl)).to ?_
  rw [sdiByte8, sdiByte0, getLastD_append8, sdiBits16]
  simp [Prim.effect, perform, State.drive, State.waitMin, State.emit, Lines.set, State.complete,
    State.sdiBits, statusTrace, ← Draws.popN_add]

end Sys2Proof.Machine
end

