-- ==== Sys2Proof/Laws/PerInstr.lean ====
section
/-! SUPPORT. Statements made per instruction. `EncodesWellFormed`: the code of an instruction is
well-formed (30_encoding.md R92, R94). -/

namespace Sys2Proof.Laws.EncodesWellFormed

/-- The code of the instruction is well-formed. -/
def Statement (i : Instr) : Prop := (encode i).wf = true

theorem sendCommand : Statement .sendCommand := rfl
theorem receivePacket : Statement .receivePacket := rfl
theorem readStatus : Statement .readStatus := rfl
theorem initDefaults : Statement .initDefaults := rfl

theorem sendBit (b : Level) : Statement (.sendBit b) := by
  show mopndOk (microWord 0b00 (b.zeroExtend 8)) = true
  revert b; decide

theorem readBit : Statement .readBit := by
  show mopndOk (microWord 0b01 0x00) = true
  decide

theorem sendByte (v : Byte) : Statement (.sendByte v) := by
  show mopndOk (microWord 0b10 v) = true
  revert v; decide

theorem readByte : Statement .readByte := by
  show mopndOk (microWord 0b11 0x00) = true
  decide

end Sys2Proof.Laws.EncodesWellFormed
end

