-- ==== Sys2Proof/Laws/Poll.lean ====
section
/-! SUPPORT. RECEIVE_PACKET's poll (42_packet_receiver.md R161 to R163): the start time, the timeout test,
and the poll run to the end of the operation, whatever the host accesses in between. -/

namespace Sys2Proof.Machine

/-- `r.T_START <- r.NOW_MS`, with the host accesses made before it. -/
theorem leads_setTStart {s : State} {p : Stmt} {rest : List Stmt} (hr : Input.reset ∉ s.inputs)
    (hp : s.pc = .prim .setTStart :: p :: rest) (hc : p ≠ .complete) :
    ∃ t, Leads s t ∧ t.engine = ({ s with
        pc := p :: rest
        r := { s.r with tStart := t.r.tStart }
        env := { s.env with
          patience := t.env.patience
          patienceDraws := s.env.patienceDraws.pop } } : State).engine := by
  obtain ⟨v, hv, ve, hm⟩ := leads_to_turn _ s (Nat.le_refl _) (by simp [hp]) hr
  have hvp : v.pc = .prim .setTStart :: p :: rest := (congrArg State.pc ve :).trans hp
  have hb : v.beforeSeq.pc = v.pc := rfl
  let w := State.startPoll { v.beforeSeq with pc := p :: rest }
  have hstep : step v = .next w := by
    rw [step_seq hm]
    simp only [seqStep, hb, hvp, perform, settleResult]
    rw [State.settle_of_ne (by simp [hc])]
  refine ⟨w, hv.trans (Leads.seq hm hstep), ?_⟩
  exact congrArg (fun z : State => ({ z with
      pc := p :: rest
      r := { z.r with tStart := w.r.tStart }
      env := { z.env with
        patience := w.env.patience
        patienceDraws := z.env.patienceDraws.pop } } : State)) ve

/-- The timeout test (R162), with the host accesses made before it; once the poll's patience is used up
it is true. -/
theorem leads_ifExpired {s : State} {rest : List Stmt} (hr : Input.reset ∉ s.inputs)
    (hp : s.pc = .prim .ifExpired :: rest) :
    ∃ t, Leads s t ∧ t.engine = ({ s with
        pc := if s.r.lTimeout ≤ t.r.nowMs - s.r.tStart then receiveTimedOut
          else .prim .sampleIrq :: rest
        env := { s.env with patience := s.env.patience - 1 } } : State).engine ∧
      (s.env.patience = 0 → s.r.lTimeout ≤ t.r.nowMs - s.r.tStart) := by
  obtain ⟨v, hv, ve, hm⟩ := leads_to_turn _ s (Nat.le_refl _) (by simp [hp]) hr
  have hvp : v.pc = .prim .ifExpired :: rest := (congrArg State.pc ve :).trans hp
  have hvt : v.r.lTimeout = s.r.lTimeout := (congrArg (fun z : State => z.r.lTimeout) ve :)
  have hvs : v.r.tStart = s.r.tStart := (congrArg (fun z : State => z.r.tStart) ve :)
  have hvn : v.env.patience = s.env.patience := (congrArg (fun z : State => z.env.patience) ve :)
  have hpc : v.beforeSeq.pc = v.pc := rfl
  let b : State := { v.beforeSeq with pc := rest }
  let e := b.beforeExpired
  have hstep : step v = .next (if e.r.expired then { e with pc := receiveTimedOut }
      else e.push [.prim .sampleIrq]) := by
    rw [step_seq hm]
    simp only [seqStep, hpc, hvp, perform, settleResult]
    rw [State.settle_of_ne]
    show (if e.r.expired then ({ e with pc := receiveTimedOut } : State)
      else e.push [.prim .sampleIrq]).pc.head? ≠ _
    split <;> simp [receiveTimedOut]
  have her : ({ e.r with nowMs := 0 } : Datapath) = { v.r with nowMs := 0 } := by
    show ({ (if b.env.patience = 0 then b.r.waitOut else b.r) with nowMs := 0 } : Datapath) = _
    split
    · unfold Datapath.waitOut; split <;> rfl
    · rfl
  have hlt : e.r.lTimeout = s.r.lTimeout := (congrArg Datapath.lTimeout her :).trans hvt
  have hts : e.r.tStart = s.r.tStart := (congrArg Datapath.tStart her :).trans hvs
  have hexp : e.r.expired = decide (s.r.lTimeout ≤ e.r.nowMs - s.r.tStart) := by
    simp only [Datapath.expired, Datapath.elapsed, hlt, hts]
  have hpat : s.env.patience = 0 → e.r.expired = true := by
    intro h0
    have h0 : b.env.patience = 0 := hvn.trans h0
    have : e.r = b.r.waitOut := if_pos h0
    rw [this]
    unfold Datapath.waitOut
    split
    · assumption
    · have : b.r.tStart + b.r.lTimeout - b.r.tStart = b.r.lTimeout := by
        rw [BitVec.add_comm, BitVec.add_sub_cancel]
      simp [Datapath.expired, Datapath.elapsed, this]
  have fin : ∀ q, ({ e with pc := q } : State).engine = ({ s with
      pc := q, env := { s.env with patience := s.env.patience - 1 } } : State).engine := by
    intro q
    refine Eq.trans ?_ (congrArg (fun z : State => ({ z with
      pc := q, env := { z.env with patience := z.env.patience - 1 } } : State)) ve)
    simp only [State.engine, State.timeless, her]
    rfl
  by_cases h : e.r.expired = true
  · have h' : s.r.lTimeout ≤ e.r.nowMs - s.r.tStart := by simpa [hexp] using h
    refine ⟨{ e with pc := receiveTimedOut }, hv.trans (Leads.seq hm (by rw [hstep, if_pos h])), ?_,
      fun _ => h'⟩
    rw [if_pos h']
    exact fin _
  · have h' : ¬ s.r.lTimeout ≤ e.r.nowMs - s.r.tStart := by simpa [hexp] using h
    refine ⟨e.push [.prim .sampleIrq], hv.trans (Leads.seq hm (by rw [hstep, if_neg h])), ?_,
      fun h0 => absurd (hpat h0) h⟩
    have h'' : ¬ s.r.lTimeout ≤ (e.push [.prim .sampleIrq]).r.nowMs - s.r.tStart := h'
    rw [if_neg h'']
    exact fin _

theorem level_not {a b : Level} : a ≠ b → a = ~~~b := by revert a b; decide

/-- The end of a RECEIVE_PACKET whose poll, from `v`, timed out after `k` samples (R168). -/
def State.timedOut (v : State) (k pat : Nat) : State :=
  { v with
    pc := []
    x := { v.x with done := 1, result := 0 }
    trace := v.trace ++ notReadyTrace k ++ [.opEnd v.r.curOp]
    env := { v.env with irq := v.env.irq.popN k, patience := pat } }

/-- The end of one whose poll, from `v`, found a ready level after `k` that were not (R164 to R167). -/
def State.received (v : State) (k pat : Nat) : State :=
  { v with
    pc := []
    x := { v.x with
      done := 1
      result := if localChecksum (v.sdiByte 0) (v.sdiByte 8) = rxChecksum (v.sdiByte 0) then 1 else 2
      pkt0 := (label (v.sdiByte 0)).zeroExtend 8
      pkt1 := v.sdiByte 8 }
    lines := { v.lines with sck := 0, ffs := 1 }
    r := { v.r with
      bitCnt := 0
      acc := v.sdiByte 8, rxBit := (v.sdiBits 16).getLastD 0
      byte1 := v.sdiByte 0, byte2 := v.sdiByte 8 }
    trace := v.trace ++ notReadyTrace k ++ [.smp .irq Config.irqActiveLevel]
      ++ packetTrace ((v.sdiBits 16).take 8) ((v.sdiBits 16).drop 8) ++ [.opEnd v.r.curOp]
    env := { v.env with irq := v.env.irq.popN (k + 1), sdi := v.env.sdi.popN 16, patience := pat } }

theorem leads_ready {v : State} (hn : Input.reset ∉ v.inputs)
    (hp : v.pc = .prim .sampleIrq :: receiveReady) (hr : v.nextIrq = Config.irqActiveLevel) :
    ∃ u, Leads v u ∧ u.engine = (v.received 0 u.env.patience).engine := by
  have h1 := (poll_step (p := .prim .clearBitCnt) (by simp) hp).to (u' := { v with
      pc := receiveReady
      trace := v.trace ++ [.smp .irq v.nextIrq]
      env := { v.env with irq := v.env.irq.pop } }) (by rw [if_pos hr]; rfl)
  obtain ⟨u, hu, e⟩ := h1.trans (runs_ready rfl) v rfl hn
  have ep : u.env.patience = v.env.patience := (congrArg (fun s : State => s.env.patience) e :)
  refine ⟨u, hu, e.trans ?_⟩
  rw [ep, hr]
  simp [State.received, State.engine, State.timeless, notReadyTrace, State.sdiByte, State.sdiBits,
    Draws.popN, HostRegs.ofEngine]

theorem leads_notReady {v : State} (hn : Input.reset ∉ v.inputs)
    (hp : v.pc = .prim .sampleIrq :: receiveReady) (hr : v.nextIrq ≠ Config.irqActiveLevel) :
    ∃ t, Leads v t ∧ t.engine = ({ v with
        pc := if v.r.lTimeout ≤ t.r.nowMs - v.r.tStart then receiveTimedOut
          else .prim .sampleIrq :: receiveReady
        trace := v.trace ++ [.smp .irq (~~~Config.irqActiveLevel)]
        env := { v.env with
          irq := v.env.irq.pop, patience := v.env.patience - 1 } } : State).engine ∧
      (v.env.patience = 0 → v.r.lTimeout ≤ t.r.nowMs - v.r.tStart) := by
  have h1 := (poll_step (p := .prim .clearBitCnt) (by simp) hp).to (u' := { v with
      pc := .prim .ifExpired :: receiveReady
      trace := v.trace ++ [.smp .irq (~~~Config.irqActiveLevel)]
      env := { v.env with irq := v.env.irq.pop } }) (by rw [if_neg hr, level_not hr]; rfl)
  obtain ⟨w, hw, e⟩ := h1 v rfl hn
  have wp : w.pc = .prim .ifExpired :: receiveReady := (congrArg (fun s : State => s.pc) e :)
  have wl : w.r.lTimeout = v.r.lTimeout := (congrArg (fun s : State => s.r.lTimeout) e :)
  have wt : w.r.tStart = v.r.tStart := (congrArg (fun s : State => s.r.tStart) e :)
  have wpat : w.env.patience = v.env.patience := (congrArg (fun s : State => s.env.patience) e :)
  obtain ⟨t, ht, et, h0⟩ := leads_ifExpired (hw.noReset hn) wp
  rw [wl, wt] at et h0
  rw [wpat] at h0
  refine ⟨t, hw.trans ht, et.trans ?_, h0⟩
  exact congrArg (fun z : State => ({ z with
      pc := if v.r.lTimeout ≤ t.r.nowMs - v.r.tStart then receiveTimedOut
        else .prim .sampleIrq :: receiveReady
      env := { z.env with patience := z.env.patience - 1 } } : State)) e

theorem leads_timedOut {v t : State} (hn : Input.reset ∉ t.inputs) (e : t.engine = ({ v with
      pc := receiveTimedOut
      trace := v.trace ++ [.smp .irq (~~~Config.irqActiveLevel)]
      env := { v.env with
        irq := v.env.irq.pop, patience := v.env.patience - 1 } } : State).engine) :
    ∃ u, Leads t u ∧ u.engine = (v.timedOut 1 u.env.patience).engine := by
  obtain ⟨u, hu, e'⟩ := Runs.primLast (u := { v with
      pc := [.complete]
      x := { v.x with result := 0 }
      trace := v.trace ++ [.smp .irq (~~~Config.irqActiveLevel)]
      env := { v.env with irq := v.env.irq.pop, patience := v.env.patience - 1 } })
    (rest := [.complete]) (more := []) (a := { v with
      pc := receiveTimedOut
      trace := v.trace ++ [.smp .irq (~~~Config.irqActiveLevel)]
      env := { v.env with irq := v.env.irq.pop, patience := v.env.patience - 1 } }) rfl rfl rfl rfl t
    e hn
  have ep : u.env.patience = v.env.patience - 1 := (congrArg (fun s : State => s.env.patience) e' :)
  refine ⟨u, hu, e'.trans ?_⟩
  rw [ep]
  rfl

/-- The poll, from a sample to the end of the operation. -/
theorem leads_poll (n : Nat) : ∀ v : State, v.env.patience ≤ n → Input.reset ∉ v.inputs →
    v.pc = .prim .sampleIrq :: receiveReady →
    ∃ u k, Leads v u ∧ (∀ j, j < k → v.irqAt j ≠ Config.irqActiveLevel) ∧
      ((1 ≤ k ∧ (v.r.lTimeout = 0 → k = 1) ∧ u.engine = (v.timedOut k u.env.patience).engine) ∨
       ((v.r.lTimeout = 0 → k = 0) ∧ v.irqAt k = Config.irqActiveLevel ∧
        u.engine = (v.received k u.env.patience).engine)) := by
  induction n with
  | zero =>
    intro v hn hi hp
    by_cases hr : v.nextIrq = Config.irqActiveLevel
    · obtain ⟨u, h, e⟩ := leads_ready hi hp hr
      exact ⟨u, 0, h, fun j hj => absurd hj (Nat.not_lt_zero j), .inr ⟨fun _ => rfl, hr, e⟩⟩
    · obtain ⟨t, h, e, h0⟩ := leads_notReady hi hp hr
      rw [if_pos (h0 (Nat.le_zero.mp hn))] at e
      obtain ⟨u, h', e'⟩ := leads_timedOut (h.noReset hi) e
      refine ⟨u, 1, h.trans h', fun j hj => ?_, .inl ⟨Nat.le_refl _, fun _ => rfl, e'⟩⟩
      rw [Nat.lt_one_iff.mp hj]; exact hr
  | succ n ih =>
    intro v hn hi hp
    by_cases hr : v.nextIrq = Config.irqActiveLevel
    · obtain ⟨u, h, e⟩ := leads_ready hi hp hr
      exact ⟨u, 0, h, fun j hj => absurd hj (Nat.not_lt_zero j), .inr ⟨fun _ => rfl, hr, e⟩⟩
    · obtain ⟨t, h, e, h0⟩ := leads_notReady hi hp hr
      by_cases hx : v.r.lTimeout ≤ t.r.nowMs - v.r.tStart
      · rw [if_pos hx] at e
        obtain ⟨u, h', e'⟩ := leads_timedOut (h.noReset hi) e
        refine ⟨u, 1, h.trans h', fun j hj => ?_, .inl ⟨Nat.le_refl _, fun _ => rfl, e'⟩⟩
        rw [Nat.lt_one_iff.mp hj]; exact hr
      · rw [if_neg hx] at e
        have hz : v.r.lTimeout ≠ 0 := by
          intro h; apply hx; rw [h]; simp [BitVec.le_def]
        have tp : t.pc = .prim .sampleIrq :: receiveReady := (congrArg (fun s : State => s.pc) e :)
        have tpat : t.env.patience = v.env.patience - 1 :=
          (congrArg (fun s : State => s.env.patience) e :)
        have tl : t.r.lTimeout = v.r.lTimeout := (congrArg (fun s : State => s.r.lTimeout) e :)
        have tirq : ∀ j, t.irqAt j = v.irqAt (j + 1) := by
          intro j
          have : t.env.irq = v.env.irq.pop := (congrArg (fun s : State => s.env.irq) e :)
          simp only [State.irqAt, this, Draws.popN]
        obtain ⟨u, k, h', hk, hcase⟩ := ih t (by omega) (h.noReset hi) tp
        refine ⟨u, k + 1, h.trans h', ?_, ?_⟩
        · intro j hj
          cases j with
          | zero => exact hr
          | succ j => rw [← tirq]; exact hk j (by omega)
        · rcases hcase with ⟨k1, k2, e'⟩ | ⟨k2, k3, e'⟩
          · refine .inl ⟨by omega, fun h => absurd h hz, e'.trans ?_⟩
            refine Eq.trans (congrArg (fun z : State => z.timedOut k u.env.patience) e) ?_
            simp [State.timedOut, State.engine, State.timeless, notReadyTrace, List.replicate_succ,
              Draws.popN, HostRegs.ofEngine]
          · refine .inr ⟨fun h => absurd h hz, by rw [← tirq]; exact k3, e'.trans ?_⟩
            refine Eq.trans (congrArg (fun z : State => z.received k u.env.patience) e) ?_
            simp [State.received, State.engine, State.timeless, notReadyTrace, List.replicate_succ,
              Draws.popN, State.sdiByte, State.sdiBits, HostRegs.ofEngine]

end Sys2Proof.Machine
end

