-- ==== Sys2Proof/Tests/Slice0.lean ====
section
/-! SUPPORT. Small tests: ill-formed words and tables refused, words written out from the encodings,
single steps with results from the vectors of 95_test_vectors.md, and for every obligation with
hypotheses a state that meets them. -/

namespace Sys2Proof.Machine.Tests

/-- A supply that gives one value for ever. -/
def always {α : Type} (a : α) : Draws α := ⟨[], some a, 0⟩

/-- Surroundings in which no time passes, the inputs are low and no host access comes in between. -/
def calm : Env :=
  { sdi := always 0, irq := always 0, linesIn := always 0, busyReads := always 0, ticks := always 0
    patienceDraws := always 0, patience := 0, turnDraws := always 0, turnsLeft := 0 }

/-- The two-entry table of V-CMD-6. -/
def table2 : List CfgEntry := [⟨0x80, 0xD8, 0⟩, ⟨0x82, 0x08, 2⟩]

/-- The reset state in calm surroundings, with the table of V-CMD-6. -/
def idle : State :=
  { State.reset with env := calm, cfg := tableImage table2, nCfg := tableCount table2 }

/-- The same with a host access to come. -/
def offered (i : Input) : State := { idle with inputs := [i] }

/-- READ_STATUS running, one host access allowed before its next step. -/
def busyWith (i : Input) : State :=
  { idle with
    pc := readStatusCode, r := { idle.r with curOp := 0x03 }
    inputs := [i], env := { calm with turnsLeft := 1 } }

/-- READ_STATUS running, nothing offered. -/
def running : State := { idle with pc := readStatusCode, r := { idle.r with curOp := 0x03 } }

/-- The sequencer at the given statements. -/
def at_ (p : List Stmt) : State := { idle with pc := p, r := { idle.r with curOp := 0x01 } }

/-- The state after a step; the state itself where the machine stops. -/
def stepped (s : State) : State :=
  match step s with
  | .next t => t
  | _ => s

/-- The last byte a host read returned. -/
def answered (s : State) : Option Byte := ((stepped s).hostLog.getLast?).map HostReply.value

/-! ### Well-formedness: ill-formed terms -/

theorem test_wf_op_zero : (Code.op 0x00).wf = false := by decide
theorem test_wf_op_five : (Code.op 0x05).wf = false := by decide
theorem test_wf_send_bit_operand : (Code.micro 0b0000000010).wf = false := by decide
theorem test_wf_read_bit_operand : (Code.micro 0b0100000001).wf = false := by decide
theorem test_wf_read_byte_operand : (Code.micro 0b1110000000).wf = false := by decide
theorem test_wf_table_too_long : cfgTableOk (List.replicate 256 ⟨0, 0, 0⟩) = false := by
  simp only [cfgTableOk, List.length_replicate]; decide

/-! ### Decoding: words written out from 30_encoding.md R92, R94 -/

theorem test_decode_send_command : decode (.op 0b00000001) = .ok .sendCommand := by decide
theorem test_decode_receive_packet : decode (.op 0b00000010) = .ok .receivePacket := by decide
theorem test_decode_read_status : decode (.op 0b00000011) = .ok .readStatus := by decide
theorem test_decode_init_defaults : decode (.op 0b00000100) = .ok .initDefaults := by decide
/-- MCODE 00, MOPND 0000000b with b = 1. -/
theorem test_decode_send_bit : decode (.micro 0b0000000001) = .ok (.sendBit 1) := by decide
/-- MCODE 01, MOPND 00000000. -/
theorem test_decode_read_bit : decode (.micro 0b0100000000) = .ok .readBit := by decide
/-- MCODE 10, MOPND 10000010. -/
theorem test_decode_send_byte : decode (.micro 0b1010000010) = .ok (.sendByte 0x82) := by decide
/-- MCODE 11, MOPND 00000000. -/
theorem test_decode_read_byte : decode (.micro 0b1100000000) = .ok .readByte := by decide
theorem test_decode_illegal_op : decode (.op 0x07) = .error (.illegalOp 0x07) := by decide
theorem test_decode_illegal_micro : decode (.micro 0x101) = .error (.illegalMicroWord 0x101) := by
  decide
/-- A row's word wider than its field is no word of the table. -/
theorem test_decode_table_too_wide :
    decodeTableWord 8 0x101 = none ∧ decodeTableWord 16 0x401 = none := by decide

/-- 30_encoding.md R102: `RECEIVE_PACKET 100` as P2 writes its bus accesses. -/
theorem test_expand_receive_packet : (Pseudo.receivePacket 100).expand =
    [.write 0x8 0x64, .write 0x9 0x00, .write 0xA 0x00, .write 0xB 0x00, .write 0x0 0x02] := by decide

/-- 30_encoding.md R102: `SEND_COMMAND 0x82, 0x08`, as P1 writes it, and `CLR_ERR`, as P4 does. -/
theorem test_expand_send_command : assemble [.sendCommand 0x82 0x08, .clrErr] =
    [.write 0x3 0x82, .write 0x4 0x08, .write 0x0 0x01, .write 0x1 0x0C] := by decide

/-! ### The placed instruction is the one that runs -/

theorem test_fetch_op : (stepped (idle.withFetchWord 8 0x02)).r.curOp = 0x02 := by decide
theorem test_fetch_micro : (stepped (idle.withFetchWord 16 0x282)).r.txByte = 0x82 := by decide
/-- Right after reset, whatever the surroundings. -/
theorem test_fetch_from_reset :
    (stepped (State.reset.withFetchWord 8 0x03)).pc = readStatusCode ∧
    (stepped (State.reset.withFetchWord 16 0x300)).lines.ffs = 0 := ⟨rfl, rfl⟩

/-! ### Micro-operations and operations, one step -/

/-- V-COD-2: `drv(SDO,1)` is an entry though `SDO` was already 1. -/
theorem test_send_bit_traces_no_change : (stepped { (at_ [.call (.word 0x001)]) with
    lines := ⟨1, 0, 1, 1⟩ }).trace = [.drv .sdo 1] := by decide
theorem test_send_bit_zero : (stepped { (at_ [.call (.word 0x000)]) with
    lines := ⟨1, 0, 1, 1⟩ }).lines = ⟨1, 0, 0, 1⟩ := by decide
theorem test_read_bit_raises_sck : (stepped (at_ [.call .readBit])).lines = ⟨1, 1, 0, 1⟩ := by decide
/-- V-COD-3: the sample is 1. -/
theorem test_read_bit_samples : (stepped { (at_ [.prim .sampleSdi]) with
    env := { calm with sdi := ⟨[1], some 0, 0⟩ } }).r.rxBit = 1 := by decide
/-- V-CMD-1: the first bit of 0x82 is 1, the last 0 (30_encoding.md R100). -/
theorem test_send_byte_first_bit : (stepped { (at_ [.call (.sendTxBit 0)]) with
    r := { idle.r with txByte := 0x82 } }).lines.sdo = 1 := by decide
theorem test_send_byte_second_byte : (stepped { (at_ [.call .sendCmd2]) with
    r := { idle.r with lCmd1 := 0x82, lCmd2 := 0x08 } }).r.txByte = 0x08 := by decide
theorem test_read_byte_asserts_ffs : (stepped (at_ [.call .readByte])).lines = ⟨1, 0, 0, 0⟩ := by decide
/-- V-COD-8: the values of `r.ACC` along 0xA1. -/
theorem test_read_byte_accumulates :
    [shiftIn 0x00 1, shiftIn 0x01 0, shiftIn 0x02 1, shiftIn 0x05 0, shiftIn 0x0A 0, shiftIn 0x14 0,
      shiftIn 0x28 0, shiftIn 0x50 1] = [0x01, 0x02, 0x05, 0x0A, 0x14, 0x28, 0x50, 0xA1] := by decide
/-- 41_command.md R142: CMD1 and CMD2 are latched. -/
theorem test_send_command_latches : let t := stepped { (offered (wr .op 0x01)) with
      x := { idle.x with cmd1 := 0x12, cmd2 := 0x34 } }
    (t.r.lCmd1, t.r.lCmd2) = (0x12, 0x34) := by decide
/-- V-HP-12 and a launch: TIMEOUT = 0x12345678. -/
theorem test_receive_packet_latches : (stepped { (offered (wr .op 0x02)) with
      x := { idle.x with timeout0 := 0x78, timeout1 := 0x56, timeout2 := 0x34, timeout3 := 0x12 }
    }).r.lTimeout = 0x12345678 := by decide
/-- V-HP-14: BUSY set and DONE cleared in the same step, with the `begin` marker. -/
theorem test_read_status_launch : let t := stepped { (offered (wr .op 0x03)) with
      x := { idle.x with done := 1 } }
    t.status = 0x01 ∧ t.trace = [.opBegin 0x03] := by decide
/-- V-CMD-5: with N_CFG = 0 the first test ends the operation: STATUS = 0x02. -/
theorem test_init_defaults_empty : let t := stepped { (at_ initDefaultsCode) with
      nCfg := 0, r := { idle.r with curOp := 0x04 } }
    t.status = 0x02 ∧ t.trace = [.opEnd 0x04] := by decide
/-- V-CMD-9: an entry's bytes AA 55 34 12. -/
theorem test_init_defaults_entry : entryOfBytes 0xAA 0x55 0x34 0x12 = ⟨0xAA, 0x55, 4660⟩ := by decide
/-- V-CMD-6: the table's bytes. -/
theorem test_table_bytes :
    (List.range 8).map idle.cfg.read = [0x80, 0xD8, 0x00, 0x00, 0x82, 0x08, 0x02, 0x00] := by decide
set_option maxRecDepth 8000 in
/-- V-CMD-6: 86 + 86 + 1 entries. -/
theorem test_init_defaults_entries : (idle.entries.flatMap entryTrace).length = 173 := rfl

/-! ### The receiver -/

/-- V-L1-3 and V-RX-2, V-RX-3, V-RX-10. -/
theorem test_checksum : [packetStatus 0xC3 0xA5, packetStatus 0xE7 0x81, packetStatus 0xC2 0xA5,
    packetStatus 0xC3 0xB4, packetStatus 0xF0 0x00] = [1, 1, 2, 1, 2] := by decide
/-- V-RX-9: the high half of PKT0 is zero. -/
theorem test_packet_byte : packetByte0 0xFF = 0x0F := by decide
/-- V-RX-11: the timebase wraps; elapsed 2, then 3, of 3. -/
theorem test_expired_wraps :
    ({ idle.r with tStart := 0xFFFFFFFE, lTimeout := 3, nowMs := 0 } : Datapath).expired = false ∧
    ({ idle.r with tStart := 0xFFFFFFFE, lTimeout := 3, nowMs := 1 } : Datapath).expired = true := by
  decide
/-- V-RX-6: with TIMEOUT = 0 a ready level wins. -/
theorem test_ready_wins : (stepped (at_ [.prim (.ifReady 0), .prim .clearBitCnt])).pc =
    [.prim .clearBitCnt] := by decide
/-- V-RX-5: with TIMEOUT = 0 the first not-ready level times out. -/
theorem test_timeout_zero : (stepped (at_ (.prim .ifExpired :: receiveReady))).pc =
    receiveTimedOut := by decide

/-! ### The host port -/

/-- V-HP-2, V-HP-3. -/
theorem test_lines_high : answered { (offered (rd .lines)) with
    env := { calm with linesIn := always 0b11 } } = some 0x39 := by decide
theorem test_lines_low : answered (offered (rd .lines)) = some 0x09 := by decide
/-- V-HP-4, V-HP-5. -/
theorem test_illegal_op : (stepped (offered (wr .op 0x00))).status = 0x04 := by decide
theorem test_illegal_op_done : (stepped { (offered (wr .op 0xFF)) with
    x := { idle.x with done := 1 } }).status = 0x06 := by decide
/-- V-HP-6, V-HP-7. -/
theorem test_overlap : (stepped (busyWith (wr .op 0x01))).status = 0x09 := by decide
theorem test_overlap_illegal : (stepped (busyWith (wr .op 0x07))).status = 0x09 := by decide
/-- V-HP-8, V-HP-9. -/
theorem test_clear_one : (stepped { (offered (wr .status 0x04)) with
    x := { idle.x with done := 1, errIllegal := 1, errOverlap := 1 } }).status = 0x0A := by decide
theorem test_clear_all : (stepped { (offered (wr .status 0xFF)) with
    x := { idle.x with done := 1, errIllegal := 1, errOverlap := 1 } }).status = 0x02 := by decide
/-- V-HP-10, V-HP-11. -/
theorem test_reserved_reads_zero : answered (offered (.read 0xF)) = some 0x00 := by decide
theorem test_packet_not_writable : (stepped (offered (wr .pkt0 0xAA))).x = idle.x := by decide
/-- V-ST-6: SW0 read while READ_STATUS runs is the old one. -/
theorem test_busy_status_read : answered { (busyWith (rd .sw0)) with
    x := { idle.x with sw0 := 0x11 } } = some 0x11 := by decide
/-- V-HP-13. -/
theorem test_reset_cuts : (stepped { (busyWith .reset) with lines := ⟨0, 1, 0, 1⟩ }).lines =
    ⟨1, 0, 0, 1⟩ := by decide

/-- R79 and V-CMD-5: with N_CFG = 0, accesses between the launch of INIT_DEFAULTS and its first step: a
read of STATUS sees BUSY, a write of OP overlaps. -/
def launching (i : Input) : State :=
  { idle with
    nCfg := 0, inputs := [wr .op 0x04, i], env := { calm with turnDraws := always 1 } }
theorem test_busy_before_first_step : answered (stepped (launching (rd .status))) = some 0x01 := by
  decide
theorem test_overlap_before_first_step :
    (stepped (stepped (launching (wr .op 0x01)))).status = 0x09 := by decide

/-! ### The phases (10_state.md R42) -/

theorem test_phase_selected : phaseOf (drv .sel 0 :: wait 1 :: .call .sendCmd1 :: .call .sendCmd2 ::
    [drv .sel 1]) = .selected := by decide
/-- Inside the first SEND_BYTE, with three bits counted. -/
theorem test_phase_clocking : phaseOf (sendByteRest.drop 6 ++ [.call .sendCmd2, drv .sel 1]) =
    .clocking 3 := by decide
theorem test_phase_status_last : phaseOf (statusBitStep.drop 2 ++ [.prim .setSwBuf1, drv .sel 1]) =
    .clocking 15 := by decide
theorem test_phase_poll : phaseOf (receivePacketCode.drop 2) = .poll := by decide
/-- Log entry 19: READ_BYTE's `Drive(FFS, 1)` after byte 1, and the timeout path's RESULT. -/
theorem test_phase_choices : phaseOf (drv .ffs 1 :: receiveReady.drop 2) = .clocking 8 ∧
    phaseOf (receiveReady.drop 3) = .selected ∧ phaseOf receiveTimedOut = .epilogue := by decide

/-! ### The obligations' hypotheses are met -/

theorem witness_IllegalMicroWordIsRefused : (at_ [.call (.word 0x101)]).hostMoves = false ∧
    mopndOk 0x101 = false ∧ (at_ [.call (.word 0x101)]).pc = [.call (.word 0x101)] := by decide

theorem witness_StepRunsTheDecodedInstruction :
    ((offered (wr .op 0x04)).pc = [] ∧ (offered (wr .op 0x04)).inputs = wr .op 0x04 :: [] ∧
      decodeOp 0x04 = .ok .initDefaults) ∧
    ((at_ [.call .sendCmd1]).pc = .call .sendCmd1 :: [] ∧ (at_ [.call .sendCmd1]).hostMoves = false ∧
      decodeMicro (CallSite.sendCmd1.microWord (at_ [.call .sendCmd1]).r) = .ok (.sendByte 0x00)) := by
  decide

/-- Idle, with the host's accesses of V-CMD-4 and more to come. -/
def accompanied : State :=
  { idle with
    inputs := [wr .cmd1 0x99, rd .status, wr .op 0x03, .waitIdle]
    env := { calm with turnDraws := always 1 } }

/-- For LaunchStartsAnOperation and the runs of the four operations: with accesses and without; `SCK` is
low, as CommandFrameOnTheWire and StatusEntryCounts ask. -/
theorem witness_operation_runs : (idle.pc = [] ∧ .reset ∉ idle.inputs ∧ idle.lines.sck = 0) ∧
    accompanied.pc = [] ∧ .reset ∉ accompanied.inputs ∧ accompanied.lines.sck = 0 := by decide

/-- For the four statements of the micro-operations; with accesses to come, for MinimumDurations. -/
theorem witness_micro_operation_runs :
    ((at_ [.prim .incBitCnt]).inputs = [] ∧ (at_ [.prim .incBitCnt]).pc.head? ≠ some .complete) ∧
    .reset ∉ accompanied.inputs ∧ accompanied.pc.head? ≠ some .complete := by decide

theorem witness_LoopbackRoundTrip : let s := { idle with env := { calm with
      sdi := ⟨[1, 0, 1, 0, 0, 1, 0, 1], none, 0⟩ } }
    s.inputs = [] ∧ s.pc.head? ≠ some .complete ∧
    s.sdiBits 8 = sdoAtRises 0 0 (sendByteTrace 0xA5) := by decide

theorem witness_TableLayoutReadsBack : cfgTableOk table2 = true ∧ idle.cfg = tableImage table2 ∧
    idle.nCfg = tableCount table2 := by decide

/-- The first entry, the last one and the first offset past the table. -/
theorem witness_TableReadsStayInside : ∀ k ∈ [0, 1, 2], (at_ [.prim (.memRead k)]).inputs = [] ∧
    (at_ [.prim (.memRead k)]).pc = .prim (.memRead k) :: [] ∧
    (k < (at_ [.prim (.memRead k)]).nCfg.toNat ↔ k ≠ 2) := by decide

/-- The sixteen rises of V-CMD-1, the first and the last among them. -/
theorem witness_CommandFrameOnTheWire : sdoAtRises 0 0 (frameTrace 0x82 0x08) =
    [1, 0, 0, 0, 0, 0, 1, 0, 0, 0, 0, 0, 1, 0, 0, 0] := by decide

theorem witness_StatusEntryCounts : (bitsOfByte 0xA1 ++ bitsOfByte 0x60).length = 16 := by decide

/-- `SDI` carries 0xC3, 0xA5 and `IRQ` is ready (V-L1-3). -/
def carrying : State :=
  { idle with env := { calm with sdi := ⟨bitsOfByte 0xC3 ++ bitsOfByte 0xA5, none, 0⟩ } }

theorem witness_ValidFrameIsReceived : carrying.pc = [] ∧ .reset ∉ carrying.inputs ∧
    carrying.nextIrq = Config.irqActiveLevel ∧ ∃ (l : Nibble) (v : Byte),
      carrying.sdiByte 0 = (v.extractLsb' 4 4 ^^^ v.extractLsb' 0 4 ^^^ l) ++ l ∧
      carrying.sdiByte 8 = v := ⟨rfl, by decide, rfl, 0x3, 0xA5, by decide, by decide⟩

/-- A passing frame; flips of bits 0 and 4 (V-RX-3) and of the last two bits. -/
theorem witness_UndetectedFlipsAreExactlyKnown : packetPasses 0xC3 0xA5 = true ∧
    packetPasses 0xC3 0xB4 = true ∧ packetPasses (0xC3 ^^^ 0xC0) 0xA5 = false := by decide

theorem witness_PollStartIsTheTimebase : let s := at_ (.prim .setTStart :: .prim .sampleIrq :: receiveReady)
    s.inputs = [] ∧ s.pc = .prim .setTStart :: .prim .sampleIrq :: receiveReady ∧
    Stmt.prim .sampleIrq ≠ .complete := by decide

/-- A ready and a not-ready level, a timeout of 0 and one of 5 whose poll is patient. -/
theorem witness_PollIterationFollowsLevelThenTime :
    (∀ l : Level, (at_ (.prim (.ifReady l) :: receiveReady)).inputs = [] ∧
      (at_ (.prim (.ifReady l) :: receiveReady)).pc = .prim (.ifReady l) :: receiveReady) ∧
    (stepped (at_ (.prim .ifExpired :: receiveReady))).pc = receiveTimedOut ∧
    (stepped { (at_ (.prim .ifExpired :: receiveReady)) with
      r := { idle.r with lTimeout := 5 }, env := { calm with patience := 1 } }).pc =
        .prim .sampleIrq :: receiveReady := by decide

theorem witness_MinimumDurations : (bitsOfByte 0x00).length = 8 := by decide

theorem witness_HostReadsByAddress : idle.busy = false ∧ idle.x.pkt0.extractLsb' 4 4 = 0 := by decide

theorem witness_HostReadHasNoSideEffect : (busyWith (.read 0xE)).hostMoves = true ∧
    (busyWith (.read 0xE)).inputs = .read 0xE :: [] := by decide

/-- The engine running and idle. -/
theorem witness_WaitIdleReadsStatusUntilIdle :
    ((busyWith .waitIdle).hostMoves = true ∧ (busyWith .waitIdle).pc ≠ []) ∧
    ((offered .waitIdle).hostMoves = true ∧ (offered .waitIdle).pc = []) := by decide

/-- Idle and running: the first writable address, the last, and STATUS. -/
theorem witness_HostWritesOfRegisters_StatusWriteOneToClear : ∀ a ∈ [(0x1 : HostAddr), 0x2, 0x3, 0xF],
    ((offered (.write a 0x0C)).hostMoves = true ∧ (offered (.write a 0x0C)).inputs = [.write a 0x0C]) ∧
    (busyWith (.write a 0x0C)).hostMoves = true ∧ (busyWith (.write a 0x0C)).busy = true ∧
    (busyWith (.write a 0x0C)).inputs = [.write a 0x0C] := by decide

theorem witness_OverlappingLaunchOnlySetsItsFlag : (busyWith (.write 0x0 0x01)).busy = true ∧
    (busyWith (.write 0x0 0x01)).hostMoves = true ∧
    (busyWith (.write 0x0 0x01)).inputs = .write 0x0 0x01 :: [] := by decide

/-- The codes on both sides of the legal ones. -/
theorem witness_IllegalCodeOnlySetsItsFlag : idle.busy = false ∧
    ∀ v ∈ [(0x00 : Byte), 0x05, 0xFF], v ≠ 0x01 ∧ v ≠ 0x02 ∧ v ≠ 0x03 ∧ v ≠ 0x04 ∧
      (offered (.write 0x0 v)).busy = false ∧ (offered (.write 0x0 v)).inputs = .write 0x0 v :: [] := by
  decide

theorem witness_TimeoutIsLittleEndian : let s := { idle with
      inputs := (Pseudo.receivePacket 0x12345678).expand }
    s.pc = [] ∧ s.inputs = wr .timeout0 0x78 :: wr .timeout1 0x56 :: wr .timeout2 0x34 ::
      wr .timeout3 0x12 :: wr .op 0x02 :: [] := by decide

theorem witness_ResetInputAbandonsTheOperation : (busyWith .reset).hostMoves = true ∧
    (busyWith .reset).inputs = .reset :: [] ∧ (busyWith .reset).busy = true := by decide

set_option maxRecDepth 8000 in
/-- For EngineInvariantIsKept, EngineNeverStops, EveryOperationEnds: a running engine that has a step. -/
theorem witness_EngineInv_running : EngineInv running ∧ ∃ t, step running = .next t :=
  ⟨⟨rfl, rfl, rfl, by decide, fun _ => rfl, fun _ => rfl, rfl⟩, _, rfl⟩

/-- The same and IdleLinesAndLowClock: an idle one. -/
theorem witness_EngineInv_idle : EngineInv idle ∧ idle.pc = [] :=
  ⟨⟨rfl, rfl, rfl, by decide, by decide, by decide, rfl⟩, rfl⟩

/-- The state of a SEND_COMMAND at its first SEND_BYTE. -/
def atFirstByte : State :=
  { (at_ (.call .sendCmd1 :: frame.drop 4 ++ [.complete])) with lines := ⟨0, 0, 0, 1⟩ }

set_option maxRecDepth 8000 in
/-- A state of the invariant at a micro-operation. -/
theorem witness_IdleLinesAndLowClock : EngineInv atFirstByte ∧
    atFirstByte.pc = .call .sendCmd1 :: (frame.drop 4 ++ [.complete]) :=
  ⟨⟨rfl, rfl, rfl, by decide, fun _ => rfl, fun _ => rfl, rfl⟩, rfl⟩

/-- For TableIsNeverWritten and TraceGrowsAndTellsTheLines: a step of the sequencer, a step of the host. -/
theorem witness_step_goes_on : (∃ t, step running = .next t) ∧
    ∃ t, step (busyWith (wr .op 0x01)) = .next t := ⟨⟨_, rfl⟩, _, rfl⟩

theorem witness_HostCannotDisturbARunningOperation : (busyWith (wr .cmd1 0x99)).busy = true ∧
    (busyWith (wr .cmd1 0x99)).hostMoves = true ∧ (busyWith (wr .cmd1 0x99)).resets = false ∧
    ∃ t, step (busyWith (wr .cmd1 0x99)) = .next t := ⟨rfl, rfl, rfl, _, rfl⟩

/-- Both flags down and both misuses at hand. -/
theorem witness_ErrorFlagsRiseOnlyByMisuse :
    (busyWith (wr .op 0x01)).x.errOverlap = 0 ∧ (busyWith (wr .op 0x01)).overlaps = true ∧
    (offered (wr .op 0x05)).x.errIllegal = 0 ∧ (offered (wr .op 0x05)).launchesIllegal = true := by
  decide

theorem witness_ErrorFlagsAreSticky : let s := { (offered (wr .op 0x01)) with
      x := { idle.x with errIllegal := 1, errOverlap := 1 } }
    s.resets = false ∧ s.inputs = [wr .op 0x01] ∧ ∃ t, step s = .next t := ⟨rfl, rfl, _, rfl⟩

/-- DONE rises with the last statement and falls with the next launch. -/
theorem witness_DoneFollowsTheOperations :
    (stepped (at_ [wait 1, .complete])).x.done = 1 ∧
    (stepped { (offered (wr .op 0x01)) with x := { idle.x with done := 1 } }).x.done = 0 := by decide

/-- A RECEIVE_PACKET at its poll's sample. -/
def atPoll : State :=
  { idle with pc := .prim .sampleIrq :: receiveReady, r := { idle.r with curOp := 0x02 } }

/-- A READ_STATUS at its first sample. -/
def atStatusSample : State := { running with pc := readStatusCode.drop 8, lines := ⟨0, 1, 0, 1⟩ }

set_option maxRecDepth 8000 in
/-- The two samples of the engine and a host's read of LINES. -/
theorem witness_InputLinesAreSampledOnlyWhereSaid :
    (EngineInv atPoll ∧ (stepped atPoll).env.irq ≠ atPoll.env.irq) ∧
    (EngineInv atStatusSample ∧ (stepped atStatusSample).env.sdi ≠ atStatusSample.env.sdi) ∧
    EngineInv (offered (rd .lines)) ∧
      (stepped (offered (rd .lines))).env.linesIn ≠ (offered (rd .lines)).env.linesIn :=
  ⟨⟨⟨rfl, rfl, rfl, by decide, fun _ => rfl, fun _ => rfl, rfl⟩, by decide⟩,
    ⟨⟨rfl, rfl, rfl, by decide, fun _ => rfl, fun _ => rfl, rfl⟩, by decide⟩,
    ⟨rfl, rfl, rfl, by decide, by decide, by decide, rfl⟩, by decide⟩

/-- A RECEIVE_PACKET about to write RESULT and a READ_STATUS about to publish. -/
def atResult : State :=
  { idle with
    pc := [.prim (.setResult 2), .complete], r := { idle.r with curOp := 0x02 } }
def atPublish : State :=
  { idle with
    pc := [.prim .publishStatus, .complete], r := { idle.r with curOp := 0x03, swBuf0 := 0xA1 } }

theorem witness_OnlyItsOperationWritesAResult :
    (EngineInv atResult ∧ atResult.resets = false ∧ (stepped atResult).x.result ≠ atResult.x.result) ∧
    EngineInv atPublish ∧ atPublish.resets = false ∧ (stepped atPublish).x.sw0 ≠ atPublish.x.sw0 :=
  ⟨⟨⟨rfl, rfl, rfl, by decide, fun _ => rfl, fun _ => rfl, rfl⟩, by decide, by decide⟩,
    ⟨rfl, rfl, rfl, by decide, fun _ => rfl, fun _ => rfl, rfl⟩, by decide, by decide⟩

/-- A running engine with an access to come, and an idle one about to be launched and read. -/
theorem witness_AccessesMayFallBeforeEveryStep :
    ((busyWith (rd .status)).busy = true ∧ (busyWith (rd .status)).inputs = [rd .status]) ∧
    running.hostMoves = false ∧ (launching (rd .status)).pc = [] ∧ opCodeOk 0x04 = true ∧
    (launching (rd .status)).inputs = wr .op 0x04 :: rd .status :: [] ∧
    0 < (launching (rd .status)).env.turnDraws.peek Config.freeTurns := by decide

end Sys2Proof.Machine.Tests
end

section
/-! SUPPORT. Progress and interleaving: why no step from a state of the invariant stops
(20_memory.md R64, 30_encoding.md R94), and that the turns of the host are drawn by launches and by the
sequencer's steps alone (20_memory.md R79, log entry 5). -/

namespace Sys2Proof.Machine

/-! ### The sequencer goes on where the operation in flight will leave the lines idle -/

/-- A primitive in its place goes on: the one that could stop, a table read, is inside the table. -/
theorem perform_goes {p : Prim} {s : State} {h : Shadow} (hp : h.primOk s.nCfg.toNat p = true) :
    ∃ t, perform p s = .next t :=
  perform_stops fun k hk => by
    subst hk
    simp only [Shadow.primOk, Bool.and_eq_true, decide_eq_true_eq] at hp
    exact hp.2

/-- A word that decodes is entered. -/
theorem runMicro_goes {w : MicroWord} {i : Instr} (hd : decodeMicro w = .ok i) (s : State) :
    ∃ t, runMicro w s = .next t := by
  simp only [runMicro, hd]
  rcases exec_micro hd with ⟨_, -, he⟩ | ⟨-, he⟩ | ⟨_, -, he⟩ | ⟨-, he⟩ <;> exact ⟨_, he s⟩

/-- The sequencer's step goes on from a position that ends idle. -/
theorem seqStep_goes {s : State} {h : Shadow} (he : endsIdle s.nCfg.toNat s.pc h = true) :
    ∃ t, seqStep s = .next t := by
  unfold seqStep
  split
  case h_1 => exact ⟨_, rfl⟩
  case h_2 p rest hp =>
    rw [hp] at he
    simp only [endsIdle, Bool.and_eq_true] at he
    obtain ⟨t, ht⟩ := perform_goes (s := { s with pc := rest }) he.1
    exact ⟨t.settle, by rw [ht]; rfl⟩
  case h_3 c rest hp =>
    rw [hp, endsIdle] at he
    cases hk : c.kind with
    | ok i =>
      obtain ⟨j, hj⟩ := kind_decodes s.r hk
      exact runMicro_goes hj _
    | error e => simp [hk] at he
  case h_4 => exact ⟨_, rfl⟩

/-- Settles O41: an input never stops the machine, and the sequencer goes on where the operation in
flight ends idle, which the invariant says. -/
theorem engineNeverStops : Obligations.EngineNeverStops := by
  intro s hinv
  rcases step_cases s with ⟨i, rest, -, -, hs⟩ | ⟨-, hs⟩ <;> rw [hs]
  · exact applyInput_goes i _
  · exact seqStep_goes (s := s.beforeSeq) hinv.ends

/-! ### The turns of the host -/

/-- While an operation runs, a host with an access to make moves as long as turns are left. -/
theorem hostMoves_busy_iff {s : State} {i : Input} {rest : List Input} (hb : s.busy = true)
    (hi : s.inputs = i :: rest) : s.hostMoves = true ↔ 0 < s.env.turnsLeft := by
  simp [State.hostMoves, hi, hb]

/-- No primitive touches the turns. -/
theorem perform_turnsLeft {p : Prim} {s t : State} (h : perform p s = .next t) :
    t.env.turnsLeft = s.env.turnsLeft := by
  cases p with
  | ifReady | ifExpired | ifDelay | cfgFor =>
    simp only [perform, Host.Outcome.next.injEq] at h
    split at h <;> subst h <;> rfl
  | memRead k =>
    simp only [perform] at h
    split at h
    · cases h; rfl
    · exact absurd h (by simp)
  | _ => cases h; rfl

theorem settle_turnsLeft (s : State) : s.settle.env.turnsLeft = s.env.turnsLeft := by
  rcases settle_cases s with h | ⟨-, h⟩ <;> rw [h]
  rfl

/-- The sequencer does not touch the turns; they are drawn before it moves (`State.beforeSeq`). -/
theorem seqStep_turnsLeft {s t : State} (h : seqStep s = .next t) :
    t.env.turnsLeft = s.env.turnsLeft := by
  unfold seqStep at h
  split at h
  case h_1 => cases h; rfl
  case h_2 =>
    obtain ⟨u, hu, rfl⟩ := settleResult_next h
    exact (settle_turnsLeft u).trans (perform_turnsLeft hu :)
  case h_3 =>
    obtain ⟨i, p, body, -, hp, -⟩ := runMicro_next h
    exact (perform_turnsLeft hp :)
  case h_4 => cases h; rfl

/-- A step of the sequencer draws the turns before the one after it. -/
theorem step_seq_draws_turns {s t : State} (hm : s.hostMoves = false) (h : step s = .next t) :
    t.env.turnsLeft = s.env.turnDraws.peek Config.freeTurns :=
  seqStep_turnsLeft ((step_seq hm).symm.trans h)

/-- Each of the four operations is launched on an idle engine. -/
theorem exec_launches_idle {i : Instr} {s : State} (hp : s.pc = [])
    (hi : i ∈ [Instr.sendCommand, .receivePacket, .readStatus, .initDefaults]) :
    ∃ c d prog, exec i s = .next (s.launched c d prog) := by
  have hb : s.busy = false := s.not_busy_iff.mpr hp
  simp only [List.mem_cons, List.not_mem_nil, or_false] at hi
  rcases hi with rfl | rfl | rfl | rfl <;> exact ⟨_, _, _, launch_idle hb⟩

/-! ### A read of STATUS right behind a launch -/

/-- A legal code written to OP of an idle engine launches a pseudocode that is not empty. -/
theorem writeOp_launches_idle {v : Byte} {s : State} (hp : s.pc = []) (hv : opCodeOk v = true) :
    ∃ d prog, prog ≠ [] ∧ writeOp v s = .next (s.launched v d prog) := by
  rcases writeOp_cases v s with ⟨hb, -⟩ | ⟨-, hn, -⟩ | ⟨-, -, d, prog, hmem, hw⟩
  · exact absurd hp (s.busy_iff.mp hb)
  · simp [hv] at hn
  · refine ⟨d, prog, ?_, hw⟩
    simp only [List.mem_cons, Prod.mk.injEq, List.not_mem_nil, or_false] at hmem
    rcases hmem with ⟨-, -, rfl⟩ | ⟨-, -, rfl⟩ | ⟨-, -, rfl⟩ | ⟨-, -, rfl⟩ <;> decide

/-- The step that applies such a write. -/
theorem step_launches {s : State} {v : Byte} {rest : List Input} (hp : s.pc = [])
    (hv : opCodeOk v = true) (hi : s.inputs = wr .op v :: rest) :
    ∃ d prog, prog ≠ [] ∧ step s = .next ((s.beforeInput rest).launched v d prog) := by
  obtain ⟨d, prog, hne, hw⟩ := writeOp_launches_idle (s := s.beforeInput rest) hp hv
  exact ⟨d, prog, hne, (step_host (hostMoves_idle hp hi) hi).trans hw⟩

/-- Reading STATUS replies its content and uses up no draw (20_memory.md R66). -/
theorem hostRead_status (s : State) : hostRead HostReg.status.addr s = s.reply 0x1 s.status := rfl

/-- The two low bits of STATUS are DONE and BUSY (10_state.md R25). -/
theorem status_low_bits (s : State) : s.status.extractLsb' 0 2 = s.x.done ++ s.busyBit := by
  have bits : ∀ o i d b : Level,
      ((0 : BitVec 4) ++ o ++ i ++ d ++ b : Byte).extractLsb' 0 2 = d ++ b := by decide
  exact bits _ _ _ _

/-- In a running engine whose DONE is 0 they read DONE = 0, BUSY = 1. -/
theorem status_low_bits_running {s : State} (hb : s.busy = true) (hd : s.x.done = 0) :
    s.status.extractLsb' 0 2 = 0b01 := by
  rw [status_low_bits, State.busyBit, if_pos hb, hd]
  decide

/-- A running engine with a turn left for the host answers a read of STATUS before its next step. -/
theorem step_reads_status_busy {t : State} {rest : List Input} (hb : t.busy = true)
    (hi : t.inputs = rd .status :: rest) (ht : 0 < t.env.turnsLeft) :
    step t = .next ((t.beforeInput rest).reply 0x1 t.status) :=
  (step_host ((hostMoves_busy_iff hb hi).mpr ht) hi).trans
    (congrArg Host.Outcome.next (hostRead_status _))

/-- Settles O52: turns are drawn by the launch and by each step of the sequencer, and the host moves
while some are left; so a read of STATUS right behind a launch sees BUSY = 1, DONE = 0. -/
theorem accessesMayFallBeforeEveryStep : Obligations.AccessesMayFallBeforeEveryStep := by
  refine ⟨fun s i rest hb hi => hostMoves_busy_iff hb hi, fun s i hp hi => ?_,
    fun s t hm h => step_seq_draws_turns hm h, fun s v rest hp hv hi hturn => ?_⟩
  · obtain ⟨c, d, prog, he⟩ := exec_launches_idle hp hi
    exact ⟨_, he, rfl⟩
  · obtain ⟨d, prog, hne, hlaunch⟩ := step_launches hp hv hi
    have hbusy : ((s.beforeInput (rd .status :: rest)).launched v d prog).busy = true :=
      (State.busy_iff _).mpr hne
    refine ⟨_, _, _, hlaunch, step_reads_status_busy hbusy rfl hturn, hne, rfl, rfl, rfl, rfl,
      status_low_bits_running hbusy rfl⟩

end Sys2Proof.Machine
end

section
/-! SUPPORT. What a step can do, once for the sequencer and once for the host: `SeqMove` lists the moves of
the sequencer (10_state.md R40), `InputMove` the effects of an input (20_memory.md R66 to R68,
70_reset_and_hazards.md R230). -/

namespace Sys2Proof.Machine

/-! ### The sequencer -/

/-- The moves of the sequencer, by the statement it stands at. -/
inductive SeqMove (s : State) : State → Prop
  | idle : s.pc = [] → SeqMove s s
  | prim {p : Prim} {rest : List Stmt} {u : State} : s.pc = .prim p :: rest →
      perform p { s with pc := rest } = .next u → SeqMove s u.settle
  | call {c : CallSite} {rest : List Stmt} {t : State} : s.pc = .call c :: rest →
      runMicro (c.microWord s.r) { s with pc := rest } = .next t → SeqMove s t
  | complete {rest : List Stmt} : s.pc = .complete :: rest → SeqMove s s.complete

theorem seqStep_moves {s t : State} (h : seqStep s = .next t) : SeqMove s t := by
  unfold seqStep at h
  split at h
  case h_1 hpc => cases h; exact .idle hpc
  case h_2 hpc =>
    obtain ⟨u, hu, rfl⟩ := settleResult_next h
    exact .prim hpc hu
  case h_3 hpc => exact .call hpc h
  case h_4 hpc => cases h; exact .complete hpc

/-! ### The host -/

/-- An input that is neither the reset input nor a write of OP or STATUS. -/
def plainInput : Input → Bool
  | .read _ | .waitIdle => true
  | .write a _ => HostReg.ofAddr a != .op && HostReg.ofAddr a != .status
  | .reset => false

/-- What such an input leaves alone: everything but the host's operand registers and its side of the
port. -/
structure PlainFrame (s t : State) : Prop where
  lines : t.lines = s.lines
  r : t.r = s.r
  pc : t.pc = s.pc
  cfg : t.cfg = s.cfg
  nCfg : t.nCfg = s.nCfg
  trace : t.trace = s.trace
  engine : t.x.ofEngine = s.x.ofEngine
  errIllegal : t.x.errIllegal = s.x.errIllegal
  errOverlap : t.x.errOverlap = s.x.errOverlap

/-- The launches of the four operations: code, datapath with the operands latched, pseudocode
(20_memory.md R68, R69). -/
def State.launches (s : State) : List (Byte × Datapath × List Stmt) :=
  [(0x01, s.latchCommand, sendCommandCode), (0x02, s.latchTimeout, receivePacketCode),
    (0x03, s.r, readStatusCode), (0x04, s.r, initDefaultsCode)]

/-- The effects of an input. -/
inductive InputMove (s : State) : Input → State → Prop
  | reset : InputMove s .reset s.applyReset
  | overlap {a : HostAddr} {v : Byte} : HostReg.ofAddr a = .op → s.busy = true →
      InputMove s (.write a v) (s.raise .overlap)
  | illegal {a : HostAddr} {v : Byte} : HostReg.ofAddr a = .op → s.busy = false → opCodeOk v = false →
      InputMove s (.write a v) (s.raise .illegal)
  | launch {a : HostAddr} {v : Byte} {d : Datapath} {prog : List Stmt} : HostReg.ofAddr a = .op →
      s.busy = false → opCodeOk v = true → (v, d, prog) ∈ s.launches →
      InputMove s (.write a v) (s.launched v d prog)
  | clear {a : HostAddr} {v : Byte} : HostReg.ofAddr a = .status →
      InputMove s (.write a v) (s.clearErrors v)
  | plain {i : Input} {t : State} : plainInput i = true → PlainFrame s t → InputMove s i t

theorem hostRead_plain (a : HostAddr) (s : State) : PlainFrame s (hostRead a s) :=
  ⟨rfl, rfl, rfl, rfl, rfl, rfl, rfl, rfl, rfl⟩

theorem waitIdle_plain (s : State) : PlainFrame s (waitIdle s) := by
  unfold waitIdle
  split <;> exact ⟨rfl, rfl, rfl, rfl, rfl, rfl, rfl, rfl, rfl⟩

theorem hostWrite_moves {a : HostAddr} {v : Byte} {s t : State} (h : hostWrite a v s = .next t) :
    InputMove s (.write a v) t := by
  rcases hostWrite_cases a v s with ⟨ha, hw⟩ | ⟨ha, hw⟩ |
    ⟨hop, hst, x, hw, hdone, hill, hovl, hres, hp0, hp1, hs0, hs1⟩
  · rw [hw] at h
    rcases writeOp_cases v s with ⟨hb, ho⟩ | ⟨hb, hv, ho⟩ | ⟨hb, hv, d, prog, hmem, ho⟩ <;>
      rw [ho] at h <;> cases h
    · exact .overlap ha hb
    · exact .illegal ha hb hv
    · exact .launch ha hb hv hmem
  · rw [hw] at h; cases h
    exact .clear ha
  · rw [hw] at h; cases h
    refine .plain (by simp [plainInput, hop, hst]) ⟨rfl, rfl, rfl, rfl, rfl, rfl, ?_, hill, hovl⟩
    simp only [HostRegs.ofEngine, hdone, hres, hp0, hp1, hs0, hs1]

theorem applyInput_moves {i : Input} {s t : State} (h : applyInput i s = .next t) :
    InputMove s i t := by
  cases i with
  | read a => cases h; exact .plain rfl (hostRead_plain a s)
  | write a v => exact hostWrite_moves h
  | waitIdle => cases h; exact .plain rfl (waitIdle_plain s)
  | reset => cases h; exact .reset

/-- A step is a move of the sequencer or an input's effect. -/
theorem step_moves {s t : State} (h : step s = .next t) :
    (s.hostMoves = false ∧ seqStep s.beforeSeq = .next t) ∨
    (∃ i rest, s.hostMoves = true ∧ s.inputs = i :: rest ∧ InputMove (s.beforeInput rest) i t) := by
  rcases step_cases s with ⟨i, rest, hm, hi, hs⟩ | ⟨hm, hs⟩ <;> rw [hs] at h
  · exact .inr ⟨i, rest, hm, hi, applyInput_moves h⟩
  · exact .inl ⟨hm, h⟩

end Sys2Proof.Machine
end

section
/-! SUPPORT. The invariant of the engine holds at reset and is kept by every step: by the host's accesses,
which leave a running operation alone and launch only pseudocode that ends idle, and by the sequencer,
whose micro-operations are reduced to the primitives of their bodies. -/

namespace Sys2Proof.Machine

/-! ### Idle states, reset and time -/

/-- An idle engine meets the invariant when its lines are idle and its table and result registers are
well formed. -/
theorem engineInv_of_idle {s : State} (hpc : s.pc = []) (hsh : s.shadow = .idle)
    (ht : s.cfg.wf = true) (hp : s.x.pkt0.extractLsb' 4 4 = 0) (hr : s.x.result ≠ 3) : EngineInv s where
  ends := by simp [hpc, hsh, endsIdle]
  table := ht
  pkt0 := hp
  result := hr
  busyDone hb := absurd hpc (s.busy_iff.mp hb)
  code hb := absurd hpc (s.busy_iff.mp hb)
  own := by simp [hpc]

/-- Settles O40: at reset every register has its reset value, and a table image is canonical. -/
theorem engineInvariantHoldsAtReset : Obligations.EngineInvariantHoldsAtReset :=
  engineInv_of_idle rfl rfl reset_table_wf (by decide) (by decide)

theorem EngineInv.applyReset {s : State} (hinv : EngineInv s) : EngineInv s.applyReset :=
  engineInv_of_idle rfl rfl hinv.table
    (by rw [State.applyReset_x]; decide) (by rw [State.applyReset_x]; decide)

/-- The invariant of an idle engine says that its lines are idle. -/
theorem EngineInv.shadow_idle {s : State} (hinv : EngineInv s) (hpc : s.pc = []) : s.shadow = .idle := by
  have := hinv.ends
  rwa [hpc, endsIdle, beq_iff_eq] at this

theorem EngineInv.beforeInput {s : State} (hinv : EngineInv s) (rest : List Input) :
    EngineInv (s.beforeInput rest) :=
  ⟨hinv.ends, hinv.table, hinv.pkt0, hinv.result, hinv.busyDone, hinv.code, hinv.own⟩

theorem EngineInv.beforeSeq {s : State} (hinv : EngineInv s) : EngineInv s.beforeSeq :=
  ⟨hinv.ends, hinv.table, hinv.pkt0, hinv.result, hinv.busyDone, hinv.code, hinv.own⟩

/-! ### Launches -/

/-- One byte of READ_STATUS leaves the lines as it found them and counts eight bits. -/
theorem endsIdle_statusByte {n : Nat} {rest : List Stmt} {store : Prim} {c : Nibble}
    (hstore : store = .setSwBuf0 ∨ store = .setSwBuf1)
    (e : endsIdle n rest ⟨0, 0, some 0, 1, c + 8⟩ = true) :
    endsIdle n (statusByte store ++ rest) ⟨0, 0, some 0, 1, c⟩ = true := by
  rw [← eight_increments] at e
  rcases hstore with rfl | rfl <;> exact e

theorem endsIdle_readStatusCode (n : Nat) : endsIdle n readStatusCode .idle = true := by
  have bytes : endsIdle n (statusByte .setSwBuf0 ++ (statusByte .setSwBuf1 ++
      [drv .sel 1, drv .sdo 0, .prim .publishStatus, .complete])) ⟨0, 0, some 0, 1, 0⟩ = true :=
    endsIdle_statusByte (.inl rfl) (endsIdle_statusByte (.inr rfl) rfl)
  simp only [readStatusCode, List.append_assoc, List.cons_append, List.nil_append, drv, wait, endsIdle,
    Shadow.primOk, Shadow.prim, Shadow.idle, Bool.true_and]
  exact bytes

/-- What the four launches have in common: `r.BITCNT` is kept, and a pseudocode is entered that is the
operation's own and leads from idle lines to idle lines. -/
theorem launches_start {s : State} {v : Byte} {d : Datapath} {prog : List Stmt}
    (h : (v, d, prog) ∈ s.launches) : d.bitCnt = s.r.bitCnt ∧ prog ≠ [] ∧
      (∀ n, endsIdle n prog .idle = true) ∧ prog.all (Stmt.partOf v) = true := by
  simp only [State.launches, List.mem_cons, Prod.mk.injEq, List.not_mem_nil, or_false] at h
  rcases h with ⟨rfl, rfl, rfl⟩ | ⟨rfl, rfl, rfl⟩ | ⟨rfl, rfl, rfl⟩ | ⟨rfl, rfl, rfl⟩
  · exact ⟨rfl, by decide, fun n => endsIdle_frame n [.complete] rfl, rfl⟩
  · exact ⟨rfl, by decide, fun _ => rfl, rfl⟩
  · exact ⟨rfl, by decide, endsIdle_readStatusCode, by decide⟩
  · exact ⟨rfl, by decide, fun _ => rfl, rfl⟩

theorem EngineInv.launched {s : State} {v : Byte} {d : Datapath} {prog : List Stmt}
    (hinv : EngineInv s) (hb : s.busy = false) (hv : opCodeOk v = true)
    (h : (v, d, prog) ∈ s.launches) : EngineInv (s.launched v d prog) := by
  obtain ⟨hcnt, -, hends, hown⟩ := launches_start h
  have hsh : (s.launched v d prog).shadow = .idle := by
    rw [← hinv.shadow_idle (s.not_busy_iff.mp hb)]
    simp [State.shadow, hcnt]
  exact ⟨by rw [hsh]; exact hends _, hinv.table, hinv.pkt0, hinv.result, fun _ => rfl, fun _ => hv, hown⟩

/-! ### Host accesses -/

/-- Raising or clearing flags touches nothing the invariant speaks of. -/
theorem EngineInv.withFlags {s : State} (hinv : EngineInv s) (i o : Level) :
    EngineInv { s with x := { s.x with errIllegal := i, errOverlap := o } } :=
  ⟨hinv.ends, hinv.table, hinv.pkt0, hinv.result, hinv.busyDone, hinv.code, hinv.own⟩

theorem EngineInv.plain {s t : State} (hinv : EngineInv s) (h : PlainFrame s t) : EngineInv t := by
  have hsh : t.shadow = s.shadow := by simp only [State.shadow, h.lines, h.r]
  have hb : t.busy = s.busy := State.busy_congr h.pc
  have hpkt0 : t.x.pkt0 = s.x.pkt0 := (congrArg HostRegs.pkt0 h.engine :)
  have hresult : t.x.result = s.x.result := (congrArg HostRegs.result h.engine :)
  have hdone : t.x.done = s.x.done := (congrArg HostRegs.done h.engine :)
  exact ⟨by rw [h.nCfg, h.pc, hsh]; exact hinv.ends, h.cfg ▸ hinv.table, hpkt0 ▸ hinv.pkt0,
    hresult ▸ hinv.result, by rw [hb, hdone]; exact hinv.busyDone, by rw [hb, h.r]; exact hinv.code,
    by rw [h.pc, h.r]; exact hinv.own⟩

/-- Every input keeps the invariant. -/
theorem InputMove.keeps_inv {i : Input} {s t : State} (h : InputMove s i t) (hinv : EngineInv s) :
    EngineInv t := by
  cases h with
  | reset => exact hinv.applyReset
  | overlap => exact hinv.withFlags s.x.errIllegal 1
  | illegal => exact hinv.withFlags 1 s.x.errOverlap
  | launch _ hb hv hmem => exact hinv.launched hb hv hmem
  | clear => exact hinv.withFlags _ _
  | plain _ hf => exact hinv.plain hf

/-! ### The sequencer -/

/-- Completion of an operation whose end has been reached. -/
theorem EngineInv.complete {s : State} {rest : List Stmt} (hinv : EngineInv s)
    (hpc : s.pc = .complete :: rest) : EngineInv s.complete := by
  have hsh : s.shadow = .idle := by
    have := hinv.ends
    rwa [hpc, endsIdle, beq_iff_eq] at this
  exact engineInv_of_idle rfl hsh hinv.table hinv.pkt0 hinv.result

theorem EngineInv.settle {s : State} (hinv : EngineInv s) : EngineInv s.settle := by
  rcases settle_cases s with h | ⟨hhead, h⟩ <;> rw [h]
  · exact hinv
  · obtain ⟨rest, hpc⟩ := List.head?_eq_some_iff.mp hhead
    exact hinv.complete hpc

/-- A primitive the sequencer stands at keeps the invariant. -/
theorem EngineInv.performed {s t : State} {p : Prim} {rest : List Stmt} (hinv : EngineInv s)
    (hpc : s.pc = .prim p :: rest) (h : perform p { s with pc := rest } = .next t) : EngineInv t := by
  have hb : s.busy = true := s.busy_iff.mpr (by simp [hpc])
  have hends := hinv.ends
  have hown := hinv.own
  rw [hpc] at hends hown
  have hset : ∀ c, p = .setResult c → c ≠ 3 := by
    rintro c rfl
    simp only [endsIdle, Shadow.primOk, Bool.and_eq_true, bne_iff_ne] at hends
    exact hends.1
  have hf := perform_frame h
  obtain ⟨hcur, hpkt0, hresult⟩ := perform_regs h
  exact ⟨perform_keeps_endsIdle rfl h hends, hf.cfg ▸ hinv.table, hpkt0 hinv.pkt0,
    hresult hset hinv.result, fun _ => (perform_done h).trans (hinv.busyDone hb),
    fun _ => hcur ▸ hinv.code hb, perform_keeps_own h hown⟩

/-- Only READ_BIT's own place performs a READ_BIT. -/
theorem kind_readBit {c : CallSite} {r : Datapath} {i : Instr} (hk : c.kind = .ok i)
    (hd : decodeMicro (c.microWord r) = .ok .readBit) : i = .readBit := by
  cases c with
  | sendCmd1 => exact absurd ((decode_sendByte _).symm.trans hd) (by simp)
  | sendCmd2 => exact absurd ((decode_sendByte _).symm.trans hd) (by simp)
  | sendTxBit j => exact absurd ((decode_sendBit _).symm.trans hd) (by simp)
  | readBit => cases hk; rfl
  | readByte => exact absurd hd (show decodeMicro (microWord 0b11 0x00) ≠ .ok .readBit by decide)
  | word w => exact (Decoded.ok.injEq _ _).mp (hk.symm.trans hd)

/-- What the promise of ending idle says at a place that performs a micro-operation. -/
theorem endsIdle_call {n : Nat} {c : CallSite} {rest : List Stmt} {h : Shadow}
    (e : endsIdle n (.call c :: rest) h = true) : ∃ i, c.kind = .ok i ∧ h.sck = 0 ∧
      (i = .readBit → h.readsBits = true) ∧ endsIdle n rest (h.instr i) = true := by
  rw [endsIdle] at e
  cases hk : c.kind with
  | error x => simp [hk] at e
  | ok i =>
    simp only [hk, Bool.and_eq_true, Bool.or_eq_true, beq_iff_eq, bne_iff_ne] at e
    obtain ⟨⟨hsck, hbits⟩, hrest⟩ := e
    exact ⟨i, rfl, hsck, fun hi => hbits.resolve_left (not_not_intro hi), hrest⟩

/-- A place of the operation performs a micro-operation the operation calls. -/
theorem partOf_call {code : Byte} {c : CallSite} {r : Datapath} {i j : Instr} (hk : c.kind = .ok i)
    (e : Stmt.partOf code (.call c) = true) (hd : decodeMicro (c.microWord r) = .ok j) :
    microPartOf code j = true := by
  rw [Stmt.partOf, hk] at e
  exact (kind_partOf hk hd).trans e

/-- The invariant with the position of a running operation moved. -/
theorem EngineInv.moved {s : State} {pc : List Stmt} (hinv : EngineInv s) (hb : s.busy = true)
    (he : endsIdle s.nCfg.toNat pc s.shadow = true) (ho : pc.all (Stmt.partOf s.r.curOp) = true) :
    EngineInv { s with pc := pc } :=
  ⟨he, hinv.table, hinv.pkt0, hinv.result, fun _ => hinv.busyDone hb, fun _ => hinv.code hb, ho⟩

/-- A micro-operation's step is the first primitive of its body, and with the body written out in place
of the call the invariant still holds (40_codec.md R120 to R123). -/
theorem EngineInv.expand_call {s t : State} {c : CallSite} {rest : List Stmt} (hinv : EngineInv s)
    (hpc : s.pc = .call c :: rest) (h : runMicro (c.microWord s.r) { s with pc := rest } = .next t) :
    ∃ p body, EngineInv { s with pc := .prim p :: (body ++ rest) } ∧
      perform p { s with pc := body ++ rest } = .next t := by
  have hb : s.busy = true := s.busy_iff.mpr (by simp [hpc])
  have hends := hinv.ends
  have hown := hinv.own
  rw [hpc] at hends hown
  rw [List.all_cons, Bool.and_eq_true] at hown
  unfold runMicro at h
  split at h
  case h_2 => exact absurd h (by simp)
  case h_1 j hd =>
    obtain ⟨i, hk, hsck, hbits, hrest⟩ := endsIdle_call hends
    rw [← kind_moves_shadow hk hd] at hrest
    have hpart := partOf_call hk hown.1 hd
    obtain ⟨ownSendBit, ownReadBit, ownSendByte, ownReadByte⟩ := micro_partOf hpart
    have own : ∀ {body : List Stmt}, body.all (Stmt.partOf s.r.curOp) = true →
        (body ++ rest).all (Stmt.partOf s.r.curOp) = true := fun hbody => by
      rw [List.all_append, hbody, hown.2]; rfl
    rcases exec_micro hd with ⟨b, rfl, he⟩ | ⟨rfl, he⟩ | ⟨v, rfl, he⟩ | ⟨rfl, he⟩ <;> rw [he] at h
    · refine ⟨.drive .sdo b, sendBitRest, hinv.moved hb ?_ (own (ownSendBit b rfl)), h⟩
      exact endsIdle_sendBitRest _ _ _ hsck
        (endsIdle_mono _ _ (h := s.shadow.instr (.sendBit b)) ⟨rfl, rfl, .inl rfl, rfl, rfl⟩ hrest)
    · refine ⟨.drive .sck 1, readBitRest, hinv.moved hb ?_ (own (ownReadBit rfl)), h⟩
      exact endsIdle_readBitRest _ _ _ hsck (hbits (kind_readBit hk hd)) hrest
    · refine ⟨.setTxByte v, sendByteRest, hinv.moved hb ?_ ?_, h⟩
      · exact endsIdle_sendByteRest _ _ _ hsck hrest
      · rw [List.all_cons, own (ownSendByte v rfl), Bool.and_true]
        exact hpart
    · refine ⟨.drive .ffs 0, readByteRest, hinv.moved hb ?_ (own (ownReadByte rfl)), h⟩
      exact endsIdle_readByteRest _ _ _ hsck hrest

/-- The sequencer's moves in a state of the invariant: none, a completion, or a primitive performed, at
which the operation may complete. -/
theorem SeqMove.cases_inv {s t : State} (h : SeqMove s t) (hinv : EngineInv s) :
    (s.pc = [] ∧ t = s) ∨ (∃ rest, s.pc = .complete :: rest ∧ t = s.complete) ∨
    (s.busy = true ∧ ∃ p pc u, EngineInv { s with pc := .prim p :: pc } ∧
      perform p { s with pc := pc } = .next u ∧ (t = u ∨ t = u.settle)) := by
  cases h with
  | idle hpc => exact .inl ⟨hpc, rfl⟩
  | @prim p rest u hpc hu =>
    have hs : EngineInv { s with pc := .prim p :: rest } := by rw [← hpc]; exact hinv
    exact .inr (.inr ⟨s.busy_iff.mpr (by simp [hpc]), p, rest, u, hs, hu, .inr rfl⟩)
  | call hpc hrun =>
    obtain ⟨p, body, hs, hp⟩ := hinv.expand_call hpc hrun
    exact .inr (.inr ⟨s.busy_iff.mpr (by simp [hpc]), p, _, _, hs, hp, .inl rfl⟩)
  | complete hpc => exact .inr (.inl ⟨_, hpc, rfl⟩)

theorem SeqMove.keeps_inv {s t : State} (h : SeqMove s t) (hinv : EngineInv s) : EngineInv t := by
  rcases h.cases_inv hinv with ⟨-, rfl⟩ | ⟨rest, hpc, rfl⟩ | ⟨-, p, pc, u, hs, hu, rfl | rfl⟩
  · exact hinv
  · exact hinv.complete hpc
  · exact hs.performed rfl hu
  · exact (hs.performed rfl hu).settle

/-- Settles O39: the host's inputs and the sequencer's moves keep the invariant, and so does the passage
of time before them. -/
theorem engineInvariantIsKept : Obligations.EngineInvariantIsKept := by
  intro s t hinv h
  rcases step_moves h with ⟨-, hseq⟩ | ⟨i, rest, -, -, hmove⟩
  · exact (seqStep_moves hseq).keeps_inv hinv.beforeSeq
  · exact hmove.keeps_inv (hinv.beforeInput rest)

end Sys2Proof.Machine
end

section
/-! SUPPORT. What follows for every step: the table and the trace (20_memory.md R63, R73), the flags
(10_state.md R43) and the result registers (43_status_reader.md R182). -/

namespace Sys2Proof.Machine

/-! ### The lines of the invariant -/

/-- Settles O43: both clauses are read off the promise of ending idle, at no statement and at a call. -/
theorem idleLinesAndLowClock : Obligations.IdleLinesAndLowClock := by
  intro s hinv
  refine ⟨fun hpc => ?_, fun c rest hpc => ?_⟩
  · have hsh := hinv.shadow_idle hpc
    simp only [State.shadow, Shadow.idle, Shadow.mk.injEq, Option.some.injEq] at hsh
    obtain ⟨hsel, hsck, hsdo, hffs, -⟩ := hsh
    calc s.lines = ⟨s.lines.sel, s.lines.sck, s.lines.sdo, s.lines.ffs⟩ := rfl
      _ = ⟨1, 0, 0, 1⟩ := by rw [hsel, hsck, hsdo, hffs]
  · have hends := hinv.ends
    rw [hpc] at hends
    obtain ⟨-, -, hsck, -⟩ := endsIdle_call hends
    exact hsck

/-! ### Table and trace -/

theorem InputMove.keeps_table {i : Input} {s t : State} (h : InputMove s i t) :
    t.cfg = s.cfg ∧ t.nCfg = s.nCfg := by
  cases h with
  | plain _ hf => exact ⟨hf.cfg, hf.nCfg⟩
  | _ => exact ⟨rfl, rfl⟩

/-- Settles O44: neither the sequencer nor an input writes the table. -/
theorem tableIsNeverWritten : Obligations.TableIsNeverWritten := by
  intro s t h
  rcases step_moves h with ⟨-, hseq⟩ | ⟨i, rest, -, -, hmove⟩
  · have hf := seqStep_frame hseq
    exact ⟨hf.cfg, hf.nCfg⟩
  · exact hmove.keeps_table

/-- An input appends what it drives and its marker: the reset input its four drives, a launch `begin`,
every other input nothing. -/
theorem InputMove.grows {i : Input} {s t : State} (h : InputMove s i t) :
    ∃ es, t.trace = s.trace ++ es ∧ t.lines = s.lines.afterAll es := by
  cases h with
  | reset => exact ⟨[.drv .sel 1, .drv .sck 0, .drv .sdo 0, .drv .ffs 1], rfl, rfl⟩
  | @launch a v => exact ⟨[.opBegin v], rfl, rfl⟩
  | plain _ hf => exact ⟨[], by rw [hf.trace, List.append_nil], hf.lines⟩
  | _ => exact ⟨[], (List.append_nil _).symm, rfl⟩

/-- Settles O45: the sequencer's entries tell its drives (`SeqFrame.grows`), and so do an input's. -/
theorem traceGrowsAndTellsTheLines : Obligations.TraceGrowsAndTellsTheLines := by
  intro s t h
  rcases step_moves h with ⟨-, hseq⟩ | ⟨i, rest, -, -, hmove⟩
  · exact (seqStep_frame hseq).grows
  · exact hmove.grows

/-! ### The error flags -/

/-- The sequencer leaves the error flags alone. -/
theorem seqStep_flags {s t : State} (h : seqStep s.beforeSeq = .next t) :
    t.x.errOverlap = s.x.errOverlap ∧ t.x.errIllegal = s.x.errIllegal :=
  ⟨(seqStep_frame h).errOverlap, (seqStep_frame h).errIllegal⟩

/-- The input is a write of OP. -/
def writesOp : Input → Bool
  | .write a _ => HostReg.ofAddr a == .op
  | .read _ | .waitIdle | .reset => false

/-- The input is a write of an illegal code to OP. -/
def writesIllegal : Input → Bool
  | .write a v => HostReg.ofAddr a == .op && !opCodeOk v
  | .read _ | .waitIdle | .reset => false

/-- The step about to be made overlaps when its input is a write of OP and an operation runs. -/
theorem overlaps_input {s : State} {i : Input} {rest : List Input} (hm : s.hostMoves = true)
    (hi : s.inputs = i :: rest) : s.overlaps = (s.busy && writesOp i) := by
  cases i <;> simp only [State.overlaps, hm, hi, writesOp, Bool.true_and]

/-- It launches an illegal code when its input writes one and no operation runs. -/
theorem launchesIllegal_input {s : State} {i : Input} {rest : List Input} (hm : s.hostMoves = true)
    (hi : s.inputs = i :: rest) : s.launchesIllegal = (!s.busy && writesIllegal i) := by
  cases i <;> simp only [State.launchesIllegal, hm, hi, writesIllegal, Bool.true_and]

/-- A write of another address is no write of OP. -/
theorem writesOp_other {a : HostAddr} {v : Byte} (h : HostReg.ofAddr a ≠ .op) :
    writesOp (.write a v) = false ∧ writesIllegal (.write a v) = false := by
  have hop : (HostReg.ofAddr a == .op) = false := beq_false_of_ne h
  rw [writesOp, writesIllegal, hop]
  exact ⟨rfl, rfl⟩

/-- Nor is a plain input. -/
theorem writesOp_plain {i : Input} (h : plainInput i = true) :
    writesOp i = false ∧ writesIllegal i = false := by
  cases i with
  | write a v =>
    simp only [plainInput, Bool.and_eq_true, bne_iff_ne] at h
    exact writesOp_other h.1
  | _ => exact ⟨rfl, rfl⟩

/-- A flag that is 0 and a misuse that is not at hand. -/
theorem flag_stays_down {f : Level} {b c : Bool} (hf : f = 0) (h : b = false ∨ c = false) :
    f = 1 ↔ (b && c) = true := by
  subst hf
  refine iff_of_false (by decide) ?_
  rcases h with rfl | rfl
  · exact Bool.false_ne_true
  · rw [Bool.and_false]; exact Bool.false_ne_true

/-- Of the inputs only an overlapping write of OP raises ERR_OVERLAP (60_exceptions.md R204). -/
theorem InputMove.errOverlap_rises {i : Input} {s t : State} (h : InputMove s i t)
    (h0 : s.x.errOverlap = 0) : t.x.errOverlap = 1 ↔ (s.busy && writesOp i) = true := by
  cases h with
  | reset => exact flag_stays_down rfl (.inr rfl)
  | overlap ha hb => exact iff_of_true rfl (by rw [hb, writesOp, ha]; rfl)
  | illegal _ hb | launch _ hb => exact flag_stays_down h0 (.inl hb)
  | clear ha =>
    exact flag_stays_down ((congrArg (· &&& _) h0).trans BitVec.zero_and)
      (.inr (writesOp_other (by rw [ha]; decide)).1)
  | plain hp hf => exact flag_stays_down (hf.errOverlap.trans h0) (.inr (writesOp_plain hp).1)

/-- Of the inputs only an illegal code written to OP of an idle engine raises ERR_ILLEGAL
(60_exceptions.md R203). -/
theorem InputMove.errIllegal_rises {i : Input} {s t : State} (h : InputMove s i t)
    (h0 : s.x.errIllegal = 0) : t.x.errIllegal = 1 ↔ (!s.busy && writesIllegal i) = true := by
  cases h with
  | reset => exact flag_stays_down rfl (.inr rfl)
  | overlap _ hb => exact flag_stays_down h0 (.inl (by rw [hb]; rfl))
  | illegal ha hb hv => exact iff_of_true rfl (by rw [hb, writesIllegal, ha, hv]; rfl)
  | launch _ _ hv =>
    exact flag_stays_down h0 (.inr (by rw [writesIllegal, hv, Bool.not_true, Bool.and_false]))
  | clear ha =>
    exact flag_stays_down ((congrArg (· &&& _) h0).trans BitVec.zero_and)
      (.inr (writesOp_other (by rw [ha]; decide)).2)
  | plain hp hf => exact flag_stays_down (hf.errIllegal.trans h0) (.inr (writesOp_plain hp).2)

/-- Settles O47: the flags are the sequencer's nowhere; among the inputs, a write of OP to a running engine
raises the one, an illegal write of OP to an idle engine the other, and no other input raises either. -/
theorem errorFlagsRiseOnlyByMisuse : Obligations.ErrorFlagsRiseOnlyByMisuse := by
  intro s t h
  rcases step_moves h with ⟨hm, hseq⟩ | ⟨i, rest, hm, hi, hmove⟩
  · obtain ⟨hovl, hill⟩ := seqStep_flags hseq
    rw [hovl, hill]
    exact ⟨fun h0 => by simp [h0, State.overlaps, hm], fun h0 => by simp [h0, State.launchesIllegal, hm]⟩
  · rw [overlaps_input hm hi, launchesIllegal_input hm hi]
    exact ⟨hmove.errOverlap_rises, hmove.errIllegal_rises⟩

/-- A write of STATUS in the form of the pseudo-instruction. -/
theorem write_status_eq {a : HostAddr} (h : HostReg.ofAddr a = .status) (v : Byte) :
    Input.write a v = wr .status v := by
  have addr : ∀ a, HostReg.ofAddr a = .status → a = HostReg.status.addr := by decide
  rw [addr a h, wr]

/-- Of the inputs only reset and a write of STATUS lower an error flag. -/
theorem InputMove.flags_sticky {i : Input} {s t : State} (h : InputMove s i t) (hr : i ≠ .reset)
    (hw : ∀ v, i ≠ wr .status v) :
    (s.x.errOverlap = 1 → t.x.errOverlap = 1) ∧ (s.x.errIllegal = 1 → t.x.errIllegal = 1) := by
  cases h with
  | reset => exact absurd rfl hr
  | overlap => exact ⟨fun _ => rfl, id⟩
  | illegal => exact ⟨id, fun _ => rfl⟩
  | launch => exact ⟨id, id⟩
  | clear ha => exact absurd (write_status_eq ha _) (hw _)
  | plain _ hf => exact ⟨hf.errOverlap.trans, hf.errIllegal.trans⟩

/-- The step about to be made is no reset, so neither is its input. -/
theorem not_reset_input {s : State} {i : Input} {rest : List Input} (hm : s.hostMoves = true)
    (hi : s.inputs = i :: rest) (hr : s.resets = false) : i ≠ .reset := by
  rintro rfl
  simp [State.resets, hm, hi] at hr

/-- Settles O48: the flags are kept by the sequencer and by every input but reset and a write of STATUS. -/
theorem errorFlagsAreSticky : Obligations.ErrorFlagsAreSticky := by
  intro s t h hr hw
  rcases step_moves h with ⟨-, hseq⟩ | ⟨i, rest, hm, hi, hmove⟩
  · obtain ⟨hovl, hill⟩ := seqStep_flags hseq
    exact ⟨hovl.trans, hill.trans⟩
  · refine hmove.flags_sticky (not_reset_input hm hi hr) fun v hv => ?_
    exact hw hm v rest (hi.trans (by rw [hv]))

/-! ### DONE -/

/-- BUSY and DONE before and after: DONE is kept, set by a completion, or cleared by a launch. -/
inductive DoneMove (busy : Bool) (done : Level) (busy' : Bool) (done' : Level) : Prop
  | kept : done' = done → DoneMove busy done busy' done'
  | completed : busy = true → busy' = false → done' = 1 → DoneMove busy done busy' done'
  | launched : busy = false → busy' = true → done' = 0 → DoneMove busy done busy' done'

theorem settle_done {s u : State} (hb : s.busy = true) (hd : u.x.done = s.x.done) :
    DoneMove s.busy s.x.done u.settle.busy u.settle.x.done := by
  rcases settle_cases u with hu | ⟨-, hu⟩ <;> rw [hu]
  · exact .kept hd
  · exact .completed hb rfl rfl

theorem SeqMove.done {s t : State} (h : SeqMove s t) :
    DoneMove s.busy s.x.done t.busy t.x.done := by
  cases h with
  | idle => exact .kept rfl
  | prim hpc hu => exact settle_done (s.busy_iff.mpr (by simp [hpc])) (perform_done hu :)
  | call hpc hrun =>
    obtain ⟨i, p, body, -, hp, -⟩ := runMicro_next hrun
    exact .kept (perform_done hp :)
  | complete hpc => exact .completed (s.busy_iff.mpr (by simp [hpc])) rfl rfl

theorem InputMove.done {i : Input} {s t : State} (h : InputMove s i t) (hr : i ≠ .reset) :
    DoneMove s.busy s.x.done t.busy t.x.done := by
  cases h with
  | reset => exact absurd rfl hr
  | launch _ hb _ hmem =>
    obtain ⟨-, hne, -, -⟩ := launches_start hmem
    exact .launched hb ((State.busy_iff _).mpr hne) rfl
  | plain _ hf => exact .kept (congrArg HostRegs.done hf.engine :)
  | _ => exact .kept rfl

/-- A step that is no reset moves DONE in one of these ways. -/
theorem step_done {s t : State} (h : step s = .next t) (hr : s.resets = false) :
    DoneMove s.busy s.x.done t.busy t.x.done := by
  rcases step_moves h with ⟨-, hseq⟩ | ⟨i, rest, hm, hi, hmove⟩
  · exact (seqStep_moves hseq).done
  · exact hmove.done (not_reset_input hm hi hr)

/-- The reset input leaves DONE at 0 (70_reset_and_hazards.md R232). -/
theorem step_reset_done {s t : State} (h : step s = .next t) (hr : s.resets = true) : t.x.done = 0 := by
  rcases step_moves h with ⟨hm, -⟩ | ⟨i, rest, hm, hi, hmove⟩
  · simp [State.resets, hm] at hr
  · cases i with
    | reset =>
      cases hmove with
      | reset => rfl
      | plain hp => cases hp
    | _ => simp [State.resets, hi] at hr

/-- Settles O49: DONE rises by a completion and falls by a launch; reset, the other way it falls, never
leaves it at 1. -/
theorem doneFollowsTheOperations : Obligations.DoneFollowsTheOperations := by
  intro s t h
  cases hr : s.resets with
  | true =>
    have h0 := step_reset_done h hr
    exact ⟨fun _ h1 => absurd (h0.symm.trans h1) (by decide), fun _ _ => .inl rfl⟩
  | false =>
    cases step_done h hr with
    | kept hd =>
      rw [hd]
      exact ⟨fun h0 h1 => absurd (h0.symm.trans h1) (by decide),
        fun h1 h0 => absurd (h0.symm.trans h1) (by decide)⟩
    | completed hs ht hd =>
      exact ⟨fun _ _ => ⟨hs, ht⟩, fun _ h0 => absurd (h0.symm.trans hd) (by decide)⟩
    | launched hs ht hd =>
      exact ⟨fun _ h1 => absurd (hd.symm.trans h1) (by decide), fun _ _ => .inr ⟨hs, ht⟩⟩

/-! ### The result registers -/

/-- The result registers as an operation with the given code leaves them: RESULT, PKT0 and PKT1 are a
RECEIVE_PACKET's, SW0 and SW1 a READ_STATUS's, which writes both from its buffers. -/
structure ResultsOf (code : Byte) (s t : State) : Prop where
  packet : code ≠ 0x02 →
    t.x.result = s.x.result ∧ t.x.pkt0 = s.x.pkt0 ∧ t.x.pkt1 = s.x.pkt1
  status : (t.x.sw0 = s.x.sw0 ∧ t.x.sw1 = s.x.sw1) ∨
    (code = 0x03 ∧ t.x.sw0 = s.r.swBuf0 ∧ t.x.sw1 = s.r.swBuf1)

/-- A primitive that writes no result register. -/
theorem ResultsOf.kept {code : Byte} {s t : State} (h : t.x = s.x) : ResultsOf code s t :=
  ⟨fun _ => by rw [h]; exact ⟨rfl, rfl, rfl⟩, .inl (by rw [h]; exact ⟨rfl, rfl⟩)⟩

/-- A primitive of a RECEIVE_PACKET that leaves SW0 and SW1. -/
theorem ResultsOf.receiver {code : Byte} {s t : State} (hc : code = 0x02)
    (h : t.x.sw0 = s.x.sw0 ∧ t.x.sw1 = s.x.sw1) : ResultsOf code s t :=
  ⟨fun hn => absurd hc hn, .inl h⟩

/-- A primitive of an operation writes the result registers of that operation only. -/
theorem perform_results {code : Byte} {p : Prim} {s t : State} (hp : p.partOf code = true)
    (h : perform p s = .next t) : ResultsOf code s t := by
  cases p with
  | zeroPkt0 | zeroPkt1 | setPkt0 | setPkt1 | setResult =>
    cases h; exact .receiver (by simpa [Prim.partOf] using hp) ⟨rfl, rfl⟩
  | publishStatus =>
    cases h
    exact ⟨fun _ => ⟨rfl, rfl, rfl⟩, .inr ⟨by simpa [Prim.partOf] using hp, rfl, rfl⟩⟩
  | ifReady | ifExpired | ifDelay | cfgFor =>
    simp only [perform, Host.Outcome.next.injEq] at h
    split at h <;> subst h <;> exact .kept rfl
  | memRead k =>
    simp only [perform] at h
    split at h
    · cases h; exact .kept rfl
    · exact absurd h (by simp)
  | _ => cases h; exact .kept rfl

theorem ResultsOf.settle {code : Byte} {s u : State} (h : ResultsOf code s u) :
    ResultsOf code s u.settle := by
  rcases settle_cases u with hu | ⟨-, hu⟩ <;> rw [hu]
  · exact h
  · exact ⟨h.packet, h.status⟩

/-- In a state of the invariant the sequencer writes the result registers of the operation in
`r.CUR_OP` only. -/
theorem SeqMove.results {s t : State} (h : SeqMove s t) (hinv : EngineInv s) :
    (s.busy = true ∧ ResultsOf s.r.curOp s t) ∨ t = s := by
  rcases h.cases_inv hinv with ⟨-, rfl⟩ | ⟨rest, hpc, rfl⟩ | ⟨hb, p, pc, u, hs, hu, ht⟩
  · exact .inr rfl
  · exact .inl ⟨s.busy_iff.mpr (by simp [hpc]), fun _ => ⟨rfl, rfl, rfl⟩, .inl ⟨rfl, rfl⟩⟩
  · have hpart : p.partOf s.r.curOp = true := by
      have hown := hs.own
      rw [List.all_cons, Bool.and_eq_true] at hown
      exact hown.1
    obtain ⟨hpkt, hsw⟩ := perform_results hpart hu
    have hres : ResultsOf s.r.curOp s u := ⟨hpkt, hsw⟩
    rcases ht with rfl | rfl
    · exact .inl ⟨hb, hres⟩
    · exact .inl ⟨hb, hres.settle⟩

/-- No input but reset writes a result register. -/
theorem InputMove.results {i : Input} {s t : State} (h : InputMove s i t) (hr : i ≠ .reset) :
    t.x.result = s.x.result ∧ t.x.pkt0 = s.x.pkt0 ∧ t.x.pkt1 = s.x.pkt1 ∧ t.x.sw0 = s.x.sw0 ∧
      t.x.sw1 = s.x.sw1 := by
  cases h with
  | reset => exact absurd rfl hr
  | plain _ hf =>
    exact ⟨(congrArg HostRegs.result hf.engine :), (congrArg HostRegs.pkt0 hf.engine :),
      (congrArg HostRegs.pkt1 hf.engine :), (congrArg HostRegs.sw0 hf.engine :),
      (congrArg HostRegs.sw1 hf.engine :)⟩
  | _ => exact ⟨rfl, rfl, rfl, rfl, rfl⟩

/-- Settles O51: the sequencer writes as the operation in `r.CUR_OP` may, the host's inputs write none of
the five registers. -/
theorem onlyItsOperationWritesAResult : Obligations.OnlyItsOperationWritesAResult := by
  intro s t hinv h hr
  rcases step_moves h with ⟨hm, hseq⟩ | ⟨i, rest, hm, hi, hmove⟩
  · rcases (seqStep_moves hseq).results hinv.beforeSeq with ⟨hb, hpkt, hsw⟩ | rfl
    · refine ⟨fun hne => ⟨hb, hm, ?_⟩, fun hne => ?_⟩
      · refine Decidable.by_contra fun hc => ?_
        obtain ⟨h1, h2, h3⟩ := hpkt hc
        exact hne.elim (· h1) (·.elim (· h2) (· h3))
      · rcases hsw with ⟨h1, h2⟩ | ⟨hc, h1, h2⟩
        · exact absurd hne (not_or_intro (not_not_intro h1) (not_not_intro h2))
        · exact ⟨hb, hm, hc, h1, h2⟩
    · simp
  · have kept := hmove.results (not_reset_input hm hi hr)
    simp only [State.beforeInput_x] at kept
    obtain ⟨h1, h2, h3, h4, h5⟩ := kept
    simp [h1, h2, h3, h4, h5]

end Sys2Proof.Machine
end

section
/-! SUPPORT. Single steps: the first primitive of a micro-operation (40_codec.md), the bits of STATUS and
its write (10_state.md R25), the latching of TIMEOUT (10_state.md R29, 20_memory.md R69). -/

namespace Sys2Proof.Machine

/-! ### Micro-operations -/

/-- Settles O7: `exec` of a micro-operation is `enter`, whose primitive is performed with `pc` in front of
the rest of the body. -/
theorem microOperationStartsWithItsFirstPrimitive :
    Obligations.MicroOperationStartsWithItsFirstPrimitive :=
  fun _ _ _ => ⟨rfl, rfl, rfl, rfl⟩

/-! ### STATUS -/

/-- `BUSY` reads 1 exactly while an operation runs (10_state.md R41). -/
theorem busyBit_iff (s : State) : s.busyBit = 1 ↔ s.pc ≠ [] := by
  rw [← s.busy_iff, State.busyBit]
  cases s.busy <;> decide

/-- The bits of a byte put together as STATUS is. -/
theorem status_fields (o i d b : Level) : let v : Byte := (0 : BitVec 4) ++ o ++ i ++ d ++ b
    v.extractLsb' 0 1 = b ∧ v.extractLsb' 1 1 = d ∧ v.extractLsb' 2 1 = i ∧ v.extractLsb' 3 1 = o ∧
      v.extractLsb' 4 4 = 0 := by
  revert o i d b; decide

/-- Settles O28: STATUS is put together from its fields, and its low bit is `BUSY`. -/
theorem statusBits : Obligations.StatusBits := by
  intro s
  obtain ⟨hbusy, hdone, hill, hovl, hzero⟩ :=
    status_fields s.x.errOverlap s.x.errIllegal s.x.done s.busyBit
  refine ⟨?_, hdone, hill, hovl, hzero⟩
  rw [← busyBit_iff]
  exact (congrArg (· = 1) hbusy).to_iff

/-- The error flags after a write of STATUS, bit by bit. -/
theorem clearErrors_eq (s : State) (v : Byte) : s.clearErrors v = { s with x := { s.x with
    errIllegal := if v.getLsbD 2 then 0 else s.x.errIllegal
    errOverlap := if v.getLsbD 3 then 0 else s.x.errOverlap } } := by
  rw [State.clearErrors, clear_flag, clear_flag]

/-- Settles O33: the write is `State.clearErrors`, also in the step that makes it. -/
theorem statusWriteOneToClear : Obligations.StatusWriteOneToClear := by
  refine ⟨fun s v => ?_, fun s v rest hm hi => ?_⟩
  · refine ⟨s.clearErrors v, rfl, ?_⟩
    rw [clearErrors_eq]
    exact ⟨rfl, rfl, rfl⟩
  · refine ⟨(s.beforeInput rest).clearErrors v, step_host hm hi, ?_⟩
    rw [clearErrors_eq]
    exact ⟨rfl, rfl⟩

/-! ### TIMEOUT -/

/-- Four bytes written lowest address first are the number (10_state.md R29). -/
theorem timeout_of_bytes {x : HostRegs} {t : Word} (h0 : x.timeout0 = t.extractLsb' 0 8)
    (h1 : x.timeout1 = t.extractLsb' 8 8) (h2 : x.timeout2 = t.extractLsb' 16 8)
    (h3 : x.timeout3 = t.extractLsb' 24 8) : x.timeout = t := by
  obtain ⟨e0, e1, e2, e3⟩ := timeout_bytes x
  exact word_ext_bytes (e0.trans h0) (e1.trans h1) (e2.trans h2) (e3.trans h3)

/-- A write of an operand register to an idle engine is made at once and leaves it idle (20_memory.md
R67). -/
theorem step_stores {s : State} {r : HostReg} {v : Byte} {rest : List Input}
    {store : HostRegs → HostRegs} (hpc : s.pc = []) (hi : s.inputs = wr r v :: rest)
    (hw : ∀ u : State, hostWrite r.addr v u = .next { u with x := store u.x }) :
    ∃ u, step s = .next u ∧ u.pc = [] ∧ u.inputs = rest ∧ u.x = store s.x :=
  ⟨_, (step_host (hostMoves_idle hpc hi) hi).trans (hw _), hpc, rfl, rfl⟩

/-- A write of OP with RECEIVE_PACKET's code to an idle engine latches TIMEOUT (20_memory.md R69). -/
theorem step_launches_receive {s : State} {rest : List Input} (hpc : s.pc = [])
    (hi : s.inputs = wr .op 0x02 :: rest) :
    step s = .next ((s.beforeInput rest).launched 0x02 (s.beforeInput rest).latchTimeout
      receivePacketCode) := by
  have hb : (s.beforeInput rest).busy = false := (State.not_busy_iff _).mpr hpc
  calc step s = writeOp 0x02 (s.beforeInput rest) := step_host (hostMoves_idle hpc hi) hi
    _ = exec .receivePacket (s.beforeInput rest) := writeOp_ok hb rfl
    _ = _ := launch_idle hb

/-- Settles O36: each of the four steps stores its byte and leaves the engine idle, the fifth latches the
number they make. -/
theorem timeoutIsLittleEndian : Obligations.TimeoutIsLittleEndian := by
  intro s t rest hpc hi
  obtain ⟨s1, h1, hpc1, hi1, hx1⟩ := step_stores
    (store := fun x => { x with timeout0 := t.extractLsb' 0 8 }) hpc hi fun _ => rfl
  obtain ⟨s2, h2, hpc2, hi2, hx2⟩ := step_stores
    (store := fun x => { x with timeout1 := t.extractLsb' 8 8 }) hpc1 hi1 fun _ => rfl
  obtain ⟨s3, h3, hpc3, hi3, hx3⟩ := step_stores
    (store := fun x => { x with timeout2 := t.extractLsb' 16 8 }) hpc2 hi2 fun _ => rfl
  obtain ⟨s4, h4, hpc4, hi4, hx4⟩ := step_stores
    (store := fun x => { x with timeout3 := t.extractLsb' 24 8 }) hpc3 hi3 fun _ => rfl
  have h5 := step_launches_receive hpc4 hi4
  have latched : s4.x.timeout = t := by
    rw [hx4, hx3, hx2, hx1]
    exact timeout_of_bytes rfl rfl rfl rfl
  exact ⟨_, .head h1 (.head h2 (.head h3 (.head h4 (.one h5)))), latched, rfl, rfl, rfl⟩

end Sys2Proof.Machine
end

section
/-! SUPPORT. Accesses and launches one by one (20_memory.md): table reads (R64), host reads (R66), host
writes (R67), the step that runs a decoded instruction and what a launch answers (R68), and that a running
operation is the host's to watch only (R65, R84). -/

namespace Sys2Proof.Machine

/-! ### The configuration table -/

/-- A table read at an entry's offset finds the entry exactly when the table has it (20_memory.md R64). -/
theorem memRead_entry (s : State) (k : Nat) :
    s.memRead (4 * k) = if k < s.nCfg.toNat then some (s.entry k) else none := by
  have inside : 4 * k + 4 ≤ s.cfgSize ↔ k < s.nCfg.toNat := by unfold State.cfgSize; omega
  simp only [State.memRead, inside, State.entry]

theorem perform_memRead_inside {s : State} {k : Nat} (h : k < s.nCfg.toNat) :
    perform (.memRead k) s = .next (s.push (cfgSend k (s.entry k))) := by
  simp only [perform, memRead_entry, if_pos h]

theorem perform_memRead_outside {s : State} {k : Nat} (h : ¬ k < s.nCfg.toNat) :
    perform (.memRead k) s = .fault (.cfgReadOutside (4 * k)) := by
  simp only [perform, memRead_entry, if_neg h]

/-- With no input pending, a primitive the sequencer stands at is performed. -/
theorem step_quiet_prim {s : State} {p : Prim} {rest : List Stmt} (hi : s.inputs = [])
    (hpc : s.pc = .prim p :: rest) :
    step s = settleResult (perform p { s.beforeSeq with pc := rest }) := by
  rw [step_quiet hi, seqStep, State.beforeSeq_pc, hpc]

/-- Settles O16: the read finds its entry exactly inside the table; what it then puts before the rest
begins with a register write, so the operation does not complete in this step. -/
theorem tableReadsStayInside : Obligations.TableReadsStayInside := by
  intro s k rest hi hpc
  rw [step_quiet_prim hi hpc]
  split
  case isTrue h =>
    rw [perform_memRead_inside (s := { s.beforeSeq with pc := rest }) h]
    exact ⟨_, rfl, rfl⟩
  case isFalse h =>
    rw [perform_memRead_outside (s := { s.beforeSeq with pc := rest }) h]
    rfl

/-! ### Host reads -/

/-- A read that draws no byte returns the content (20_memory.md R66). -/
theorem readValue_content {s : State} {a : HostReg} (h : s.mayHold a s.nextBusyRead = false) :
    s.readValue a = s.content a s.nextLinesIn := by
  simp [State.readValue, h]

/-- With no operation running no read draws a byte (20_memory.md R81). -/
theorem mayHold_idle {s : State} (hb : s.busy = false) (a : HostReg) (v : Byte) :
    s.mayHold a v = false := by
  cases a <;> simp only [State.mayHold, State.receiving, hb, Bool.false_and]

/-- A byte PKT0 may hold has a zero high half, so a read of it has one when the content has
(10_state.md R30). -/
theorem readValue_pkt0_high {s : State} (h : s.x.pkt0.extractLsb' 4 4 = 0) :
    (s.readValue .pkt0).extractLsb' 4 4 = 0 := by
  cases hd : s.mayHold .pkt0 s.nextBusyRead with
  | false => rw [readValue_content hd]; exact h
  | true =>
    rw [State.readValue, if_pos hd]
    simp only [State.mayHold, Bool.and_eq_true, beq_iff_eq] at hd
    exact hd.2

/-- The bits of a byte put together as LINES is (10_state.md R34). -/
theorem lines_fields (i : BitVec 2) (f d c e : Level) :
    let v : Byte := (0 : BitVec 2) ++ i ++ f ++ d ++ c ++ e
    v.extractLsb' 0 1 = e ∧ v.extractLsb' 1 1 = c ∧ v.extractLsb' 2 1 = d ∧ v.extractLsb' 3 1 = f ∧
      v.extractLsb' 4 2 = i ∧ v.extractLsb' 6 2 = 0 := by
  revert i f d c e; decide

/-- Settles O29: only a read of PKT0 or PKT1 can draw a byte, and only while an operation runs; every
other read is the content. -/
theorem hostReadsByAddress : Obligations.HostReadsByAddress := by
  intro s
  obtain ⟨ht0, ht1, ht2, ht3⟩ := timeout_bytes s.x
  obtain ⟨hsel, hsck, hsdo, hffs, hin, hzero⟩ :=
    lines_fields s.nextLinesIn s.lines.ffs s.lines.sdo s.lines.sck s.lines.sel
  have idle : s.busy = false → ∀ a, s.readValue a = s.content a s.nextLinesIn :=
    fun hb a => readValue_content (mayHold_idle hb a _)
  exact ⟨readValue_content rfl, readValue_content rfl, readValue_content rfl, readValue_content rfl,
    readValue_content rfl, readValue_content rfl, fun hb => idle hb .pkt0, fun hb => idle hb .pkt1,
    readValue_pkt0_high, (readValue_content rfl).trans ht0.symm, (readValue_content rfl).trans ht1.symm,
    (readValue_content rfl).trans ht2.symm, (readValue_content rfl).trans ht3.symm,
    readValue_content rfl, readValue_content rfl, hsel, hsck, hsdo, hffs, hin, hzero,
    readValue_content rfl⟩

/-- A host read leaves the engine's side of the state, whether or not an operation runs
(20_memory.md R75). -/
theorem engine_hostRead (a : HostAddr) (s : State) : (hostRead a s).engine = s.engine := by
  simp only [hostRead, State.engine]
  unfold State.readDraws
  split
  case h_2 | h_3 => split <;> rfl
  all_goals rfl

/-- What two states have in common that agree on the engine's side. -/
theorem fields_of_engine {s t : State} (h : t.engine = s.engine) :
    t.lines = s.lines ∧ t.r = { s.r with nowMs := t.r.nowMs } ∧ t.pc = s.pc ∧ t.trace = s.trace ∧
      t.env.sdi = s.env.sdi ∧ t.env.irq = s.env.irq :=
  ⟨(congrArg State.lines h :), (congrArg (fun u => { u.r with nowMs := t.r.nowMs }) h :),
    (congrArg State.pc h :), (congrArg State.trace h :), (congrArg (·.env.sdi) h :),
    (congrArg (·.env.irq) h :)⟩

/-- Settles O30: the step replies the byte read and leaves the engine's side. -/
theorem hostReadHasNoSideEffect : Obligations.HostReadHasNoSideEffect := by
  intro s a rest hm hi
  obtain ⟨hlines, hr, hpc, htrace, hsdi, hirq⟩ := fields_of_engine (s := s)
    (engine_hostRead a (s.beforeInput rest))
  exact ⟨_, step_host hm hi, rfl, hlines, rfl, hr, hpc, rfl, rfl, htrace, rfl, hsdi, hirq⟩

/-! ### Host writes -/

/-- A host write of another address than OP and STATUS does to the host's registers what `accessed` says,
running or not, and nothing else (20_memory.md R67). -/
theorem hostWrite_accessed {a : HostAddr} (hop : HostReg.ofAddr a ≠ .op)
    (hst : HostReg.ofAddr a ≠ .status) (v : Byte) (s : State) :
    hostWrite a v s = .next { s with x := s.x.accessed (.write a v) } := by
  simp only [hostWrite, HostRegs.accessed]
  cases ha : HostReg.ofAddr a
  case op => exact absurd ha hop
  case status => exact absurd ha hst
  all_goals rfl

/-- A write of a read-only or reserved address stores nothing (20_memory.md R67). -/
theorem accessed_readOnly {a : HostAddr} (v : Byte) (x : HostRegs)
    (h : a ∈ [(0x2 : HostAddr), 0x5, 0x6, 0x7, 0xC, 0xD, 0xE, 0xF]) :
    x.accessed (.write a v) = x := by
  simp only [List.mem_cons, List.not_mem_nil, or_false] at h
  rcases h with rfl | rfl | rfl | rfl | rfl | rfl | rfl | rfl <;> rfl

/-- OP and STATUS have one address each (10_state.md R23). -/
theorem ofAddr_ne_op_status {a : HostAddr} (hop : a ≠ 0x0) (hst : a ≠ 0x1) :
    HostReg.ofAddr a ≠ .op ∧ HostReg.ofAddr a ≠ .status := by
  revert a; decide

/-- Settles O32: a write is `accessed` on the host's registers, also in the step that makes it. -/
theorem hostWritesOfRegisters : Obligations.HostWritesOfRegisters := by
  refine ⟨fun s v => ⟨rfl, rfl, rfl, rfl, rfl, rfl, fun a ha => ?_⟩, fun s a v rest hm hi hop hst => ?_⟩
  · have hne : a ≠ 0x0 ∧ a ≠ 0x1 := by revert a; decide
    obtain ⟨hop, hst⟩ := ofAddr_ne_op_status hne.1 hne.2
    rw [hostWrite_accessed hop hst, accessed_readOnly v s.x ha]
  · obtain ⟨hop, hst⟩ := ofAddr_ne_op_status hop hst
    refine ⟨_, (step_host hm hi).trans (hostWrite_accessed hop hst v _), rfl, ?_, ?_, ?_, ?_, ?_, ?_,
      accessed_readOnly v s.x⟩ <;> rintro rfl <;> rfl

/-! ### Launches and decoded instructions -/

/-- Settles O6: each of the four is a launch, which an idle engine accepts. -/
theorem launchStartsAnOperation : Obligations.LaunchStartsAnOperation := by
  intro s hpc
  have hb : s.busy = false := s.not_busy_iff.mpr hpc
  exact ⟨launch_idle hb, launch_idle hb, launch_idle hb, launch_idle hb⟩

theorem runMicro_ok {w : MicroWord} {i : Instr} (h : decodeMicro w = .ok i) (s : State) :
    runMicro w s = exec i s := by
  simp only [runMicro, h]

/-- With the host not moving, a call the sequencer stands at runs the word formed there; the passage of
time before the step does not change the word. -/
theorem step_call {s : State} {c : CallSite} {rest : List Stmt} (hm : s.hostMoves = false)
    (hpc : s.pc = .call c :: rest) :
    step s = runMicro (c.microWord s.r) { s.beforeSeq with pc := rest } := by
  have hword : c.microWord s.beforeSeq.r = c.microWord s.r :=
    (microWord_engine c s.beforeSeq).symm.trans (microWord_engine c s)
  rw [step_seq hm, seqStep, State.beforeSeq_pc, hpc]
  exact congrArg (runMicro · _) hword

/-- Settles O5: a write of OP to an idle engine is decoded by `writeOp`, a micro-operation's word by
`runMicro`. -/
theorem stepRunsTheDecodedInstruction : Obligations.StepRunsTheDecodedInstruction := by
  refine ⟨fun s v i rest hpc hi hd => ?_, fun s c i rest hpc hm hd => ?_⟩
  · have hb : (s.beforeInput rest).busy = false := (State.not_busy_iff _).mpr hpc
    calc step s = writeOp v (s.beforeInput rest) := step_host (hostMoves_idle hpc hi) hi
      _ = exec i (s.beforeInput rest) := writeOp_ok hb hd
  · calc step s = runMicro (c.microWord s.r) { s.beforeSeq with pc := rest } := step_call hm hpc
      _ = exec i { s.beforeSeq with pc := rest } := runMicro_ok hd _

/-! ### A running operation -/

/-- The result registers and DONE are on the engine's side. -/
theorem results_of_engine {s t : State} (h : t.engine = s.engine) :
    t.x.result = s.x.result ∧ t.x.pkt0 = s.x.pkt0 ∧ t.x.pkt1 = s.x.pkt1 ∧ t.x.sw0 = s.x.sw0 ∧
      t.x.sw1 = s.x.sw1 ∧ t.x.done = s.x.done :=
  ⟨(congrArg (·.x.result) h :), (congrArg (·.x.pkt0) h :), (congrArg (·.x.pkt1) h :),
    (congrArg (·.x.sw0) h :), (congrArg (·.x.sw1) h :), (congrArg (·.x.done) h :)⟩

/-- A host access other than reset leaves the engine's side of a running engine. -/
theorem step_host_keeps_engine {s t : State} (hb : s.busy = true) (hm : s.hostMoves = true)
    (hr : s.resets = false) (h : step s = .next t) : t.engine = s.engine := by
  rcases step_cases s with ⟨i, rest, -, hi, hs⟩ | ⟨hn, -⟩
  · obtain ⟨he, -⟩ := applyInput_busy (s := s.beforeInput rest) hb (not_reset_input hm hi hr)
      (hs.symm.trans h)
    exact he
  · exact absurd (hm.symm.trans hn) (by decide)

/-- Settles O46: all that is named is on the engine's side, which the access leaves. -/
theorem hostCannotDisturbARunningOperation : Obligations.HostCannotDisturbARunningOperation := by
  intro s t hb hm hr h
  have he := step_host_keeps_engine hb hm hr h
  obtain ⟨hlines, hdata, hpc, htrace, hsdi, hirq⟩ := fields_of_engine he
  exact ⟨hpc, hlines, htrace, hdata, hsdi, hirq, results_of_engine he⟩

end Sys2Proof.Machine
end

section
/-! SUPPORT. The encodings (30_encoding.md): every code word is either the code of an instruction or refused
by the decoder (R92 to R94, R101), what becomes of the refused ones at the host port and in the sequencer, the
layout of the configuration table (R99, R100), and WAIT_IDLE (R102). -/

namespace Sys2Proof.Machine

/-! ### Encoded instructions -/

/-- The decoder reads back what was encoded (30_encoding.md R92, R94). -/
theorem decode_encode (i : Instr) : decode (encode i) = .ok i := by
  cases i with
  | sendBit b => exact decode_sendBit b
  | sendByte v => exact decode_sendByte v
  | _ => rfl

/-- The code of an instruction is well-formed. -/
theorem encode_wf (i : Instr) : (encode i).wf = true := by
  cases i with
  | sendBit b => exact Laws.EncodesWellFormed.sendBit b
  | sendByte v => exact Laws.EncodesWellFormed.sendByte v
  | _ => rfl

/-! ### OP bytes -/

/-- A row with a full mask matches its pattern alone. -/
theorem matches_of_full_mask {n : Nat} {r : OpRow n} (h : r.mask = BitVec.allOnes n)
    (w : BitVec n) : r.matches w = (w == r.pattern) := by
  rw [OpRow.matches, h, BitVec.and_allOnes]

/-- The decoder of the OP byte as a comparison with the four codes (30_encoding.md R101). -/
theorem decodeOp_eq (v : Byte) : decodeOp v =
    if v = 0x01 then .ok .sendCommand else if v = 0x02 then .ok .receivePacket
    else if v = 0x03 then .ok .readStatus else if v = 0x04 then .ok .initDefaults
    else .error (.illegalOp v) := by
  have hmask : ∀ r ∈ opRows, r.mask = BitVec.allOnes 8 := by decide
  have full : ∀ r ∈ opRows, r.matches v = (v == r.pattern) :=
    fun r hr => matches_of_full_mask (hmask r hr) v
  simp only [opRows, List.forall_mem_cons] at full
  obtain ⟨h1, h2, h3, h4, -⟩ := full
  simp only [decodeOp, h1, h2, h3, h4, beq_iff_eq]
  rfl

theorem decodeOp_illegal {v : Byte} (h1 : v ≠ 0x01) (h2 : v ≠ 0x02) (h3 : v ≠ 0x03) (h4 : v ≠ 0x04) :
    decodeOp v = .error (.illegalOp v) := by
  rw [decodeOp_eq, if_neg h1, if_neg h2, if_neg h3, if_neg h4]

/-- An OP byte is an operation's code or illegal (30_encoding.md R93). -/
theorem op_encoded_or_illegal (v : Byte) :
    (∃ i, encode i = .op v) ∨ decodeOp v = .error (.illegalOp v) := by
  by_cases h1 : v = 0x01
  · exact .inl ⟨.sendCommand, congrArg Code.op h1.symm⟩
  by_cases h2 : v = 0x02
  · exact .inl ⟨.receivePacket, congrArg Code.op h2.symm⟩
  by_cases h3 : v = 0x03
  · exact .inl ⟨.readStatus, congrArg Code.op h3.symm⟩
  by_cases h4 : v = 0x04
  · exact .inl ⟨.initDefaults, congrArg Code.op h4.symm⟩
  exact .inr (decodeOp_illegal h1 h2 h3 h4)

/-! ### Micro-operation words -/

/-- A word is its MCODE and its MOPND put together (30_encoding.md R94). -/
theorem exists_microWord (w : MicroWord) : ∃ mcode v, w = microWord mcode v :=
  ⟨w.extractLsb' 8 2, mopnd w, (BitVec.extractLsb'_append_extractLsb' (w := 2) (len := 8)).symm⟩

/-- A byte with bits 7:1 zero is its bit 0. -/
theorem zeroExtend_bit0 {v : Byte} (h : v.extractLsb' 1 7 = 0) :
    (v.extractLsb' 0 1).zeroExtend 8 = v := by
  revert v; decide

/-- A micro-operation word is an instruction's code, or has a must-be-zero bit set and is refused
(30_encoding.md R94). -/
theorem micro_encoded_or_illegal (w : MicroWord) :
    (∃ i, encode i = .micro w) ∨
      mopndOk w = false ∧ decodeMicro w = .error (.illegalMicroWord w) := by
  obtain ⟨mcode, v, rfl⟩ := exists_microWord w
  have hcode : mcode = 0b00 ∨ mcode = 0b01 ∨ mcode = 0b10 ∨ mcode = 0b11 := by
    revert mcode; decide
  rcases hcode with rfl | rfl | rfl | rfl
  · by_cases hv : v.extractLsb' 1 7 = 0
    · exact .inl ⟨.sendBit (v.extractLsb' 0 1),
        congrArg (fun b => Code.micro (microWord 0b00 b)) (zeroExtend_bit0 hv)⟩
    · exact .inr (by revert v; decide)
  · by_cases hv : v = 0
    · exact .inl ⟨.readBit, by rw [hv]; rfl⟩
    · exact .inr (by revert v; decide)
  · exact .inl ⟨.sendByte v, rfl⟩
  · by_cases hv : v = 0
    · exact .inl ⟨.readByte, by rw [hv]; rfl⟩
    · exact .inr (by revert v; decide)

theorem decodeMicro_illegal {w : MicroWord} (h : mopndOk w = false) :
    decodeMicro w = .error (.illegalMicroWord w) := by
  rcases micro_encoded_or_illegal w with ⟨i, hi⟩ | ⟨-, he⟩
  · have hw : (Code.micro w).wf = true := hi ▸ encode_wf i
    exact absurd (hw.symm.trans h) (by decide)
  · exact he

/-! ### The decoder and the encoder are inverse -/

/-- A code word that is no instruction's code is refused. -/
theorem encoded_or_refused (c : Code) : (∃ i, encode i = c) ∨ ∃ e, decode c = .error e := by
  cases c with
  | op v => exact (op_encoded_or_illegal v).imp id fun he => ⟨_, he⟩
  | micro w => exact (micro_encoded_or_illegal w).imp id fun ⟨_, he⟩ => ⟨_, he⟩

/-- Settles O1: a word that decodes is some instruction's code, and the decoder reads that instruction
back. -/
theorem decodeInvertsEncode : Obligations.DecodeInvertsEncode := by
  refine fun c i => ⟨fun h => ?_, fun h => h ▸ decode_encode i⟩
  rcases encoded_or_refused c with ⟨j, rfl⟩ | ⟨e, he⟩
  · have hji : Decoded.ok j = .ok i := (decode_encode j).symm.trans h
    cases hji
    rfl
  · cases he.symm.trans h

/-- Settles O2: the four codes and no other byte are operations, and the words with their must-be-zero bits
zero are the codes of the micro-operations. -/
theorem exactlyTheTabledWordsDecode : Obligations.ExactlyTheTabledWordsDecode := by
  refine ⟨rfl, rfl, rfl, rfl, fun v h1 h2 h3 h4 => decodeOp_illegal h1 h2 h3 h4, fun w => ?_⟩
  constructor
  · rintro ⟨i, hi⟩
    have hcode : encode i = .micro w := (decodeInvertsEncode (.micro w) i).mp hi
    exact (congrArg Code.wf hcode).symm.trans (encode_wf i)
  · intro hok
    rcases micro_encoded_or_illegal w with ⟨i, hi⟩ | ⟨hbad, -⟩
    · exact ⟨i, (decodeInvertsEncode (.micro w) i).mpr hi⟩
    · exact absurd (hok.symm.trans hbad) (by decide)

/-! ### The layout of the configuration table -/

/-- Bytes laid out from an address upwards are read there in order; below, the store is as it was. -/
theorem Memory.read_writeBytes {m : Memory} (a b : Nat) (vs : List Byte) (hm : m.wf = true) :
    (m.writeBytes a vs).read b = if b < a then m.read b else vs[b - a]?.getD (m.read b) := by
  induction vs generalizing m a with
  | nil => simp [Memory.writeBytes]
  | cons v vs ih =>
    rw [Memory.writeBytes, ih (a + 1) (Memory.write_wf a v hm), Memory.read_write a b v hm]
    rcases Nat.lt_trichotomy b a with hlt | rfl | hgt
    · simp [hlt, Nat.lt_succ_of_lt hlt, Nat.ne_of_lt hlt]
    · simp
    · have hsub : b - a = (b - (a + 1)) + 1 := by omega
      simp [Nat.ne_of_gt hgt, show ¬ b < a + 1 by omega, show ¬ b < a by omega, hsub]

/-- An offset of the table space holds the byte of the entries laid out one after the other. -/
theorem read_tableImage (t : List CfgEntry) (b : Nat) :
    (tableImage t).read b = ((builtTable t).flatMap entryBytes)[b]?.getD Memory.unlisted := by
  rw [tableImage, Memory.read_writeBytes 0 b _ rfl]
  rfl

/-- Byte j of entry k stands at offset 4k + j (30_encoding.md R99). -/
theorem getElem?_flatMap_entryBytes (t : List CfgEntry) {k j : Nat} {e : CfgEntry} (hj : j < 4)
    (he : t[k]? = some e) : (t.flatMap entryBytes)[4 * k + j]? = (entryBytes e)[j]? := by
  induction t generalizing k with
  | nil => simp at he
  | cons d t ih =>
    rw [List.flatMap_cons]
    cases k with
    | zero =>
      obtain rfl : d = e := by simpa using he
      rw [Nat.mul_zero, Nat.zero_add, List.getElem?_append_left hj]
    | succ k =>
      have hoff : 4 * (k + 1) + j = (entryBytes d).length + (4 * k + j) := by
        change _ = 4 + _; omega
      rw [hoff, List.getElem?_append_right (Nat.le_add_right _ _), Nat.add_sub_cancel_left]
      exact ih (by simpa using he)

/-- The four bytes of an entry of a table that may be built, at their offsets (30_encoding.md R99). -/
theorem read_entry_bytes {t : List CfgEntry} (ht : cfgTableOk t = true) {k : Nat} {e : CfgEntry}
    (he : t[k]? = some e) :
    (tableImage t).read (4 * k) = e.cmd1 ∧ (tableImage t).read (4 * k + 1) = e.cmd2 ∧
      (tableImage t).read (4 * k + 2) = e.delayAfterUs.extractLsb' 0 8 ∧
      (tableImage t).read (4 * k + 3) = e.delayAfterUs.extractLsb' 8 8 := by
  have byte : ∀ j < 4,
      (tableImage t).read (4 * k + j) = (entryBytes e)[j]?.getD Memory.unlisted := by
    intro j hj
    rw [read_tableImage, builtTable_of_ok ht, getElem?_flatMap_entryBytes t hj he]
  exact ⟨byte 0 (by decide), byte 1 (by decide), byte 2 (by decide), byte 3 (by decide)⟩

/-- The bytes of an entry give it back (30_encoding.md R99, R100). -/
theorem entryOfBytes_entryBytes (e : CfgEntry) :
    entryOfBytes e.cmd1 e.cmd2 (e.delayAfterUs.extractLsb' 0 8) (e.delayAfterUs.extractLsb' 8 8) =
      e := by
  have hdelay : e.delayAfterUs.extractLsb' 8 8 ++ e.delayAfterUs.extractLsb' 0 8 = e.delayAfterUs :=
    BitVec.extractLsb'_append_extractLsb'
  rw [entryOfBytes, hdelay]

/-- Settles O15: the four bytes of each entry stand at its offsets, and give it back. -/
theorem tableLayoutReadsBack : Obligations.TableLayoutReadsBack := by
  intro t s ht hcfg hn
  have bytes := fun k e (he : t[k]? = some e) => read_entry_bytes ht he
  rw [← hcfg] at bytes
  refine ⟨?_, bytes⟩
  have hlen : s.nCfg.toNat = t.length := by rw [hn, tableCount_toNat, builtTable_of_ok ht]
  have entry : ∀ k (hk : k < t.length), s.entry k = t[k] := by
    intro k hk
    obtain ⟨h0, h1, h2, h3⟩ := bytes k t[k] (List.getElem?_eq_getElem hk)
    rw [State.entry, h0, h1, h2, h3, entryOfBytes_entryBytes]
  refine List.ext_getElem (by simp [State.entries, hlen]) fun k _ hk => ?_
  simp [State.entries, entry k hk]

/-! ### Words from the tables, and refused words -/

/-- Settles O3: eight closed words, which the decoder evaluates. -/
theorem tabledWordsDecodeToTheirInstructions : Obligations.TabledWordsDecodeToTheirInstructions :=
  ⟨rfl, rfl, rfl, rfl, rfl, rfl, rfl, rfl⟩

/-- Settles O4: the word is formed as it is given, and the decoder refuses it. -/
theorem illegalMicroWordIsRefused : Obligations.IllegalMicroWordIsRefused := by
  intro s w rest hpc hm hw
  rw [step_call hm hpc, CallSite.microWord, runMicro, decodeMicro_illegal hw]

/-- A byte that does not decode, written to OP of an idle engine, raises ERR_ILLEGAL (20_memory.md R68,
60_exceptions.md R203). -/
theorem writeOp_illegal {v : Byte} {e : DecodeError} {s : State} (hb : s.busy = false)
    (hd : decodeOp v = .error e) : writeOp v s = .next (s.raise .illegal) := by
  simp [writeOp, hb, hd]

/-- Settles O35: the write raises the flag, also in the step that makes it. -/
theorem illegalCodeOnlySetsItsFlag : Obligations.IllegalCodeOnlySetsItsFlag := by
  intro s v hb h1 h2 h3 h4
  have illegal : ∀ u : State, u.busy = false → hostWrite 0x0 v u = .next (u.raise .illegal) :=
    fun u hu => writeOp_illegal hu (decodeOp_illegal h1 h2 h3 h4)
  refine ⟨illegal s hb, fun rest hi => ⟨(s.beforeInput rest).raise .illegal, ?_, rfl⟩⟩
  exact (step_host (hostMoves_idle (s.not_busy_iff.mp hb) hi) hi).trans (illegal _ hb)

/-! ### WAIT_IDLE -/

/-- Bit 0 of STATUS reads 0 exactly when the engine is idle (10_state.md R25, R41). -/
theorem status_bit0_zero_iff (s : State) : s.status.extractLsb' 0 1 = 0 ↔ s.pc = [] := by
  obtain ⟨hbusy, -⟩ := status_fields s.x.errOverlap s.x.errIllegal s.x.done s.busyBit
  rw [show s.status.extractLsb' 0 1 = s.busyBit from hbusy, ← s.not_busy_iff, State.busyBit]
  cases s.busy <;> decide

/-- A read of WAIT_IDLE replies STATUS, and puts WAIT_IDLE back while the engine runs (30_encoding.md
R102). -/
theorem waitIdle_eq (s : State) :
    waitIdle s = { s.reply 0x1 s.status with
      inputs := if s.pc = [] then s.inputs else .waitIdle :: s.inputs } := by
  simp only [waitIdle, hostRead_status, status_bit0_zero_iff]
  split <;> rfl

/-- Settles O31: the step is one read of the loop. -/
theorem waitIdleReadsStatusUntilIdle : Obligations.WaitIdleReadsStatusUntilIdle := by
  intro s rest hm hi
  refine ⟨waitIdle (s.beforeInput rest), step_host hm hi, ?_⟩
  rw [waitIdle_eq]
  exact ⟨rfl, rfl, rfl, rfl, rfl, rfl⟩

end Sys2Proof.Machine
end

section
/-! SUPPORT. The micro-operations from `exec` to the end of their bodies (40_codec.md R120 to R123, R125):
the state each leaves, and the loopback of a byte. -/

namespace Sys2Proof.Machine

/-! ### A run with no host access pending -/

/-- With no access pending a run ends as it is said to, the host's side as it was. -/
theorem Runs.quiet {t u : State} (h : Runs t u) (hi : t.inputs = []) :
    ∃ n v, Reaches n t v ∧
      v.timeless = (({ u with x := u.x.withHost t.x } : State).withHostSide t).timeless := by
  obtain ⟨n, v, used, hr, ⟨hin, hnothing⟩, hv⟩ := h.ends (by simp [hi]) rfl
  obtain ⟨rfl, hvi⟩ := List.append_eq_nil_iff.mp (hin.symm.trans hi)
  obtain ⟨hlog, hlines, hbusy⟩ := hnothing hi
  refine ⟨n, v, hr, hv.trans ?_⟩
  simp only [State.withHostSide, hvi, hi, hlog, hlines, hbusy, List.foldl_nil]

/-! ### The state each micro-operation leaves -/

/-- The state SEND_BIT b leaves (40_codec.md R120). -/
def State.afterSendBit (s : State) (b : Level) : State :=
  { s with
    lines := { s.lines with sdo := b, sck := 0 }
    trace := s.trace ++ sbTrace b }

/-- The state READ_BIT leaves (40_codec.md R121). -/
def State.afterReadBit (s : State) : State :=
  { s with
    lines := { s.lines with sck := 0 }
    r := { s.r with rxBit := s.nextSdi }
    trace := s.trace ++ rbTrace s.nextSdi
    env := { s.env with sdi := s.env.sdi.pop } }

/-- The state SEND_BYTE v leaves (40_codec.md R122). -/
def State.afterSendByte (s : State) (v : Byte) : State :=
  { s with
    lines := { s.lines with sdo := v.extractLsb' 0 1, sck := 0 }
    r := { s.r with txByte := v, bitCnt := s.r.bitCnt + 8 }
    trace := s.trace ++ sendByteTrace v }

/-- The state READ_BYTE leaves (40_codec.md R123). -/
def State.afterReadByte (s : State) : State :=
  { s with
    lines := { s.lines with sck := 0, ffs := 1 }
    r := { s.r with
      acc := s.sdiByte 0
      rxBit := (s.sdiBits 8).getLastD 0
      bitCnt := s.r.bitCnt + 8 }
    trace := s.trace ++ readByteTrace (s.sdiBits 8)
    env := { s.env with sdi := s.env.sdi.popN 8 } }

section
variable {s t : State} (hc : s.pc.head? ≠ some .complete)
include hc

theorem runs_exec_sendBit {b : Level} (h : exec (.sendBit b) s = .next t) :
    Runs t (s.afterSendBit b) := by
  cases h
  refine (runs_sendBitRest (a := (s.push sendBitRest).drive .sdo b) rfl hc).to ?_
  simp [State.afterSendBit, sbTrace, Lines.set]

theorem runs_exec_readBit (h : exec .readBit s = .next t) : Runs t s.afterReadBit := by
  cases h
  refine (runs_readBitRest (a := (s.push readBitRest).drive .sck 1) rfl hc).to ?_
  simp [State.afterReadBit, rbTrace, Lines.set, State.nextSdi]

theorem runs_exec_sendByte {v : Byte} (h : exec (.sendByte v) s = .next t) :
    Runs t (s.afterSendByte v) := by
  cases h
  exact (runs_sendByteRest (a := { s.push sendByteRest with r := { s.r with txByte := v } }) rfl hc).to
    rfl

theorem runs_exec_readByte (h : exec .readByte s = .next t) : Runs t s.afterReadByte := by
  cases h
  refine (runs_readByteRest (a := (s.push readByteRest).drive .ffs 0) rfl hc).to ?_
  simp [State.afterReadByte, readByteTrace, Lines.set, sdiByte0, State.sdiBits]

end

/-- Settles O8: `SDO` is driven on entry, the rest of the body makes the pulse. -/
theorem sendBitDrivesOneClockedBit : Obligations.SendBitDrivesOneClockedBit :=
  fun _ b => ⟨decode_sendBit b, _, rfl, fun hi hc => (runs_exec_sendBit hc rfl).quiet hi⟩

/-- Settles O9: `SCK` rises on entry, the rest of the body samples and lets it fall. -/
theorem readBitSamplesOneClockedBit : Obligations.ReadBitSamplesOneClockedBit :=
  ⟨decode_encode .readBit, fun _ => ⟨_, rfl, fun hi hc => (runs_exec_readBit hc rfl).quiet hi⟩⟩

/-- Settles O10: `r.TXBYTE` is set on entry, the eight iterations send its bits. -/
theorem sendByteSendsEightBitsMsbFirst : Obligations.SendByteSendsEightBitsMsbFirst :=
  fun _ v => ⟨decode_sendByte v, _, rfl, fun hi hc => (runs_exec_sendByte hc rfl).quiet hi⟩

/-- Settles O11: `FFS` falls on entry; the eight iterations start from a cleared accumulator. -/
theorem readByteAssemblesEightSamples : Obligations.ReadByteAssemblesEightSamples :=
  ⟨decode_encode .readByte, fun _ => ⟨_, rfl, fun hi hc => (runs_exec_readByte hc rfl).quiet hi⟩⟩

/-! ### Loopback -/

/-- SEND_BIT b from `SCK` low makes one rise, with `SDO` at b, and leaves `SCK` low. -/
theorem sdoAtRises_sbTrace (sdo b : Level) (es : List Event) :
    sdoAtRises sdo 0 (sbTrace b ++ es) = b :: sdoAtRises b 0 es := rfl

theorem sdoAtRises_flatMap_sbTrace {α : Type} (f : α → Level) (l : List α) (sdo : Level) :
    sdoAtRises sdo 0 (l.flatMap fun a => sbTrace (f a)) = l.map f := by
  induction l generalizing sdo with
  | nil => rfl
  | cons a l ih => rw [List.flatMap_cons, sdoAtRises_sbTrace, ih, List.map_cons]

/-- `SDO` at the rises of SEND_BYTE v is v, most significant bit first (40_codec.md R122). -/
theorem sdoAtRises_sendByteTrace (sdo : Level) (v : Byte) :
    sdoAtRises sdo 0 (sendByteTrace v) = bitsOfByte v :=
  sdoAtRises_flatMap_sbTrace (msbFirst v) (List.range 8) sdo

theorem byteOfBits_bitsOfByte (v : Byte) : byteOfBits (bitsOfByte v) = v := by
  revert v; decide

/-- Settles O12: the samples are the bits of v in the order they are sent, which assemble to v. -/
theorem loopbackRoundTrip : Obligations.LoopbackRoundTrip := by
  intro v sdo s hi hc hbits
  obtain ⟨n, u, hr, hu⟩ := (runs_exec_readByte (s := s) hc rfl).quiet hi
  have hpc : u.pc = s.pc := congrArg (·.pc) hu
  have hacc : u.r.acc = s.sdiByte 0 := congrArg (·.r.acc) hu
  refine ⟨_, n, u, rfl, hr, hpc, ?_⟩
  rw [hacc, sdiByte0, hbits, sdoAtRises_sendByteTrace, byteOfBits_bitsOfByte]

end Sys2Proof.Machine
end

section
/-! SUPPORT. Durations (70_reset_and_hazards.md R250): what the waits of the rules' traces add up to, the run
of RECEIVE_PACKET from its first statement (42_packet_receiver.md R160), and what a run of each instruction
appends to the trace. -/

namespace Sys2Proof.Machine

/-! ### The waits of a trace -/

@[simp] theorem minMicros_nil : minMicros [] = 0 := rfl
@[simp] theorem minMicros_wait (n : Nat) (es : List Event) :
    minMicros (.wait n :: es) = n + minMicros es := rfl
@[simp] theorem minMicros_drv (l : OutLine) (v : Level) (es : List Event) :
    minMicros (.drv l v :: es) = minMicros es := rfl
@[simp] theorem minMicros_smp (l : InLine) (v : Level) (es : List Event) :
    minMicros (.smp l v :: es) = minMicros es := rfl
@[simp] theorem minMicros_opBegin (c : Byte) (es : List Event) :
    minMicros (.opBegin c :: es) = minMicros es := rfl
@[simp] theorem minMicros_opEnd (c : Byte) (es : List Event) :
    minMicros (.opEnd c :: es) = minMicros es := rfl

@[simp] theorem minMicros_append (es fs : List Event) :
    minMicros (es ++ fs) = minMicros es + minMicros fs := by
  induction es with
  | nil => simp
  | cons e es ih => cases e <;> simp [ih, Nat.add_assoc]

theorem minMicros_flatMap {α : Type} (f : α → List Event) (l : List α) :
    minMicros (l.flatMap f) = (l.map fun a => minMicros (f a)).sum := by
  induction l with
  | nil => rfl
  | cons a l ih => rw [List.flatMap_cons, minMicros_append, ih, List.map_cons, List.sum_cons]

theorem minMicros_flatMap_of_const {α : Type} {f : α → List Event} {n : Nat}
    (h : ∀ a, minMicros (f a) = n) (l : List α) : minMicros (l.flatMap f) = n * l.length := by
  induction l with
  | nil => rfl
  | cons a l ih =>
    rw [List.flatMap_cons, minMicros_append, h, ih, List.length_cons, Nat.mul_succ, Nat.add_comm]

/-! ### The traces of the rules -/

@[simp] theorem minMicros_sbTrace (b : Level) : minMicros (sbTrace b) = 2 := rfl

@[simp] theorem minMicros_rbTrace (b : Level) : minMicros (rbTrace b) = 2 := rfl

@[simp] theorem minMicros_sendByteTrace (v : Byte) : minMicros (sendByteTrace v) = 16 :=
  minMicros_flatMap_of_const (fun j => minMicros_sbTrace (msbFirst v j)) (List.range 8)

@[simp] theorem minMicros_flatMap_rbTrace (bits : List Level) :
    minMicros (bits.flatMap rbTrace) = 2 * bits.length :=
  minMicros_flatMap_of_const minMicros_rbTrace bits

@[simp] theorem minMicros_readByteTrace (bits : List Level) :
    minMicros (readByteTrace bits) = 2 * bits.length := by
  simp [readByteTrace]

@[simp] theorem minMicros_frameTrace (c1 c2 : Byte) : minMicros (frameTrace c1 c2) = 34 := by
  simp [frameTrace]

/-- An entry takes its frame and its delay, a delay of 0 included (41_command.md R149). -/
@[simp] theorem minMicros_entryTrace (e : CfgEntry) :
    minMicros (entryTrace e) = 34 + e.delayAfterUs.toNat := by
  rw [entryTrace, minMicros_append, minMicros_frameTrace]
  split
  case isTrue h => simp [h]
  case isFalse => rfl

theorem minMicros_flatMap_entryTrace (es : List CfgEntry) :
    minMicros (es.flatMap entryTrace) = (es.map fun e => 34 + e.delayAfterUs.toNat).sum := by
  simp only [minMicros_flatMap, minMicros_entryTrace]

@[simp] theorem minMicros_statusTrace (bits : List Level) :
    minMicros (statusTrace bits) = 2 + 2 * bits.length := by
  simp [statusTrace]; omega

@[simp] theorem minMicros_notReadyTrace (k : Nat) : minMicros (notReadyTrace k) = 0 := by
  induction k with
  | zero => rfl
  | succ k ih => rw [notReadyTrace, List.replicate_succ]; exact ih

/-! ### Where `FFS` is driven -/

@[simp] theorem countP_ffs_flatMap_rbTrace (bits : List Level) :
    (bits.flatMap rbTrace).countP (Event.drives .ffs) = 0 := by
  induction bits with
  | nil => rfl
  | cons b bits ih => rw [List.flatMap_cons, List.countP_append, ih]; rfl

/-- READ_BYTE drives `FFS` twice, its bit steps never (40_codec.md R123). -/
@[simp] theorem countP_ffs_readByteTrace (bits : List Level) :
    (readByteTrace bits).countP (Event.drives .ffs) = 2 := by
  rw [readByteTrace, List.countP_append, List.countP_append, countP_ffs_flatMap_rbTrace]
  rfl

@[simp] theorem countP_ffs_notReadyTrace (k : Nat) :
    (notReadyTrace k).countP (Event.drives .ffs) = 0 := by
  induction k with
  | zero => rfl
  | succ k ih => rw [notReadyTrace, List.replicate_succ, List.countP_cons]; exact ih

/-! ### RECEIVE_PACKET -/

theorem sdiBits_length (s : State) (n : Nat) : (s.sdiBits n).length = n :=
  Draws.peekN_length _ _ _

/-- RECEIVE_PACKET at its first sample of `IRQ`, its poll begun at `start` (42_packet_receiver.md R160,
R161). -/
def State.polling (t : State) (start : Word) (patience : Nat) : State :=
  { t with
    pc := .prim .sampleIrq :: receiveReady
    x := { t.x with pkt0 := 0x00, pkt1 := 0x00 }
    lines := { t.lines with sel := 1 }
    r := { t.r with tStart := start }
    trace := t.trace ++ [.drv .sel 1]
    env := { t.env with patience := patience, patienceDraws := t.env.patienceDraws.pop } }

theorem leads_polling {t : State} (hn : Input.reset ∉ t.inputs) (hp : t.pc = receivePacketCode) :
    ∃ v, Leads t v ∧ v.engine = (t.polling v.r.tStart v.env.patience).engine := by
  obtain ⟨a, ha, ea⟩ := Runs.straight [.zeroPkt0, .zeroPkt1, .drive .sel 1]
    (rest := .prim .setTStart :: .prim .sampleIrq :: receiveReady) rfl hp (by simp) t rfl hn
  obtain ⟨v, hv, ev⟩ := leads_setTStart (ha.noReset hn) (congrArg State.pc ea :) (by simp)
  refine ⟨v, ha.trans hv, ev.trans ?_⟩
  exact congrArg (fun z : State => ({ z with
    pc := .prim .sampleIrq :: receiveReady
    r := { z.r with tStart := v.r.tStart }
    env := { z.env with
      patience := v.env.patience
      patienceDraws := z.env.patienceDraws.pop } } : State)) ea

/-- RECEIVE_PACKET from its first statement: the poll times out after k samples that are not ready, or
finds a ready level after k that are not, and the two bytes are read. Both ends set the patience, so that
of `polling` is any. -/
theorem leads_receivePacket {t : State} (hn : Input.reset ∉ t.inputs) (hp : t.pc = receivePacketCode) :
    ∃ u k start, Leads t u ∧ (∀ j, j < k → t.irqAt j ≠ Config.irqActiveLevel) ∧
      ((1 ≤ k ∧ (t.r.lTimeout = 0 → k = 1) ∧
        u.engine = ((t.polling start 0).timedOut k u.env.patience).engine) ∨
       ((t.r.lTimeout = 0 → k = 0) ∧ t.irqAt k = Config.irqActiveLevel ∧
        u.engine = ((t.polling start 0).received k u.env.patience).engine)) := by
  obtain ⟨v, hv, ev⟩ := leads_polling hn hp
  have hlt : v.r.lTimeout = t.r.lTimeout := (congrArg (·.r.lTimeout) ev :)
  have hirq : v.irqAt = t.irqAt := by
    funext j; exact (congrArg (·.irqAt j) ev :)
  obtain ⟨u, k, hu, hk, hend⟩ := leads_poll _ v (Nat.le_refl _) (hv.noReset hn) (congrArg State.pc ev :)
  rw [hlt, hirq] at hend
  refine ⟨u, k, v.r.tStart, hv.trans hu, hirq ▸ hk, hend.imp ?_ ?_⟩
  · rintro ⟨hpos, hzero, e⟩
    exact ⟨hpos, hzero, e.trans (congrArg (·.timedOut k u.env.patience) ev :)⟩
  · rintro ⟨hzero, hready, e⟩
    exact ⟨hzero, hready, e.trans (congrArg (·.received k u.env.patience) ev :)⟩

/-! ### What a run appends -/

/-- A run that leads to the engine's side of a state appends what that state's trace has more. -/
theorem Appends.of_leads {i : Instr} {s t u v : State} {P : List Event → Prop} (es : List Event)
    (hi : exec i s = .next t) (hl : Leads t v) (he : v.engine = u.engine) (hpc : u.pc = s.pc)
    (ht : u.trace = s.trace ++ es) (hP : P es) : Appends i s P := by
  obtain ⟨n, _, hr, -, -⟩ := hl
  obtain ⟨-, -, hvpc, hvt, -, -⟩ := fields_of_engine he
  exact ⟨t, n, v, es, hi, hr, hvpc.trans hpc, hvt.trans ht, hP⟩

theorem Appends.of_runs {i : Instr} {s t u : State} {P : List Event → Prop} (es : List Event)
    (hi : exec i s = .next t) (hn : Input.reset ∉ t.inputs) (hr : Runs t u) (hpc : u.pc = s.pc)
    (ht : u.trace = s.trace ++ es) (hP : P es) : Appends i s P := by
  obtain ⟨v, hl, he⟩ := hr t rfl hn
  exact .of_leads es hi hl he hpc ht hP

@[simp] theorem State.launched_entry (s : State) (c : Byte) (d : Datapath) (p : List Stmt) :
    (s.launched c d p).entry = s.entry := rfl

section
variable {s : State} (hn : Input.reset ∉ s.inputs)
include hn

/-! #### Micro-operations -/

section
variable (hc : s.pc.head? ≠ some .complete)
include hc

theorem appends_sendBit (b : Level) : Appends (.sendBit b) s (· = sbTrace b) :=
  .of_runs _ rfl hn (runs_exec_sendBit hc rfl) rfl rfl rfl

theorem appends_readBit : Appends .readBit s (· = rbTrace s.nextSdi) :=
  .of_runs _ rfl hn (runs_exec_readBit hc rfl) rfl rfl rfl

theorem appends_sendByte (v : Byte) : Appends (.sendByte v) s (· = sendByteTrace v) :=
  .of_runs _ rfl hn (runs_exec_sendByte hc rfl) rfl rfl rfl

theorem appends_readByte : Appends .readByte s (· = readByteTrace (s.sdiBits 8)) :=
  .of_runs _ rfl hn (runs_exec_readByte hc rfl) rfl rfl rfl

end

/-! #### Operations -/

section
variable (hp : s.pc = [])
include hp

theorem appends_sendCommand : Appends .sendCommand s
    (· = [.opBegin 0x01] ++ frameTrace s.x.cmd1 s.x.cmd2 ++ [.opEnd 0x01]) :=
  .of_runs _ (launch_idle (s.not_busy_iff.mpr hp)) hn (runs_sendCommand rfl) hp.symm
    (by simp [State.launched, State.latchCommand]) rfl

theorem appends_readStatus : Appends .readStatus s
    (· = [.opBegin 0x03] ++ statusTrace (s.sdiBits 16) ++ [.opEnd 0x03]) :=
  .of_runs _ (launch_idle (s.not_busy_iff.mpr hp)) hn (runs_readStatus rfl) hp.symm
    (by simp [State.sdiBits]) rfl

theorem appends_initDefaults : Appends .initDefaults s
    (· = [.opBegin 0x04] ++ s.entries.flatMap entryTrace ++ [.opEnd 0x04]) := by
  obtain ⟨u, hr, hu⟩ := runs_table s.nCfg.toNat (s.launched 0x04 s.r initDefaultsCode) 0 rfl
    (Nat.zero_add _)
  refine .of_runs _ (launch_idle (s.not_busy_iff.mpr hp)) hn hr (by rw [hu, hp]) ?_ rfl
  simp [hu, State.entries, List.range_eq_range']

/-- A RECEIVE_PACKET appends the samples of its poll, and the trace of its two bytes if it reads them. -/
theorem appends_receivePacket : Appends .receivePacket s fun es => ∃ k,
    es = [.opBegin 0x02, .drv .sel 1] ++ notReadyTrace k ++ [.opEnd 0x02] ∨
    es = [.opBegin 0x02, .drv .sel 1] ++ notReadyTrace k ++ [.smp .irq Config.irqActiveLevel]
      ++ packetTrace ((s.sdiBits 16).take 8) ((s.sdiBits 16).drop 8) ++ [.opEnd 0x02] := by
  have hlaunch : exec .receivePacket s = .next (s.launched 0x02 s.latchTimeout receivePacketCode) :=
    launch_idle (s.not_busy_iff.mpr hp)
  obtain ⟨u, k, start, hl, -, ⟨-, -, he⟩ | ⟨-, -, he⟩⟩ := leads_receivePacket
    (t := s.launched 0x02 s.latchTimeout receivePacketCode) hn rfl
  · exact .of_leads _ hlaunch hl he hp.symm (by simp [State.timedOut, State.polling]) ⟨k, .inl rfl⟩
  · exact .of_leads _ hlaunch hl he hp.symm
      (by simp [State.received, State.polling, State.sdiBits]) ⟨k, .inr rfl⟩

end

end

/-- A RECEIVE_PACKET that reads its two bytes waits 32 µs for them; one that does not makes no wait
(42_packet_receiver.md R173). -/
theorem receivePacket_duration {s : State} (hn : Input.reset ∉ s.inputs) (hp : s.pc = []) :
    Appends .receivePacket s fun es =>
      (es.countP (Event.drives .ffs) = 4 ∧ minMicros es = 32) ∨
      (es.countP (Event.drives .ffs) = 0 ∧ minMicros es = 0) := by
  refine (appends_receivePacket hn hp).imp ?_
  rintro es ⟨k, rfl | rfl⟩
  · exact .inr ⟨by simp [Event.drives], by simp⟩
  · exact .inl ⟨by simp [packetTrace, Event.drives], by simp [packetTrace, sdiBits_length]⟩

/-- Settles O27: the waits are summed trace by trace, and a run of each instruction appends its trace,
between the markers if it is an operation. -/
theorem minimumDurations : Obligations.MinimumDurations := by
  refine ⟨fun b => ⟨rfl, rfl⟩, minMicros_sendByteTrace, fun bits h => ?_, minMicros_frameTrace,
    minMicros_flatMap_entryTrace, fun bits h => ?_, fun s hn => ⟨fun hc => ?_, fun hp => ?_⟩⟩
  · rw [minMicros_readByteTrace, h]
  · rw [minMicros_statusTrace, h]
  · refine ⟨fun b => (appends_sendBit hn hc b).imp ?_, (appends_readBit hn hc).imp ?_,
      fun v => (appends_sendByte hn hc v).imp ?_, (appends_readByte hn hc).imp ?_⟩ <;> rintro _ rfl
    · exact minMicros_sbTrace b
    · exact minMicros_rbTrace _
    · exact minMicros_sendByteTrace v
    · rw [minMicros_readByteTrace, sdiBits_length]
  · refine ⟨(appends_sendCommand hn hp).imp ?_, (appends_initDefaults hn hp).imp ?_,
      (appends_readStatus hn hp).imp ?_, receivePacket_duration hn hp⟩ <;> rintro _ rfl
    · simp
    · simp [minMicros_flatMap_entryTrace]
    · simp [sdiBits_length]

end Sys2Proof.Machine
end

section
/-! SUPPORT. The operations of the Command Transmitter from their launch to their end (41_command.md R142,
R146), and the frame on the wire (R140, R144): its rises of `SCK` and its trace entries. -/

namespace Sys2Proof.Machine

/-! ### From a launch to the end -/

/-- Of the registers the engine writes only DONE differs from those at the start: the accesses done with
leave the rest. -/
theorem HostRegs.withHost_foldl_accessed_done (is : List Input) (x : HostRegs) (d : Level) :
    ({ x with done := d } : HostRegs).withHost (is.foldl HostRegs.accessed x) =
      { is.foldl HostRegs.accessed x with done := d } := by
  simp [HostRegs.withHost]

/-- A launch leaves the host's side as it is. -/
theorem HostDid.of_launched {s v : State} {c : Byte} {d : Datapath} {prog : List Stmt}
    {used : List Input} (h : HostDid (s.launched c d prog) v used) : HostDid s v used :=
  ⟨h.inputs, h.nothing⟩

/-- An operation that writes no register of the host but DONE, run from its launch: the host registers
are left as the accesses done with leave them. -/
theorem Runs.launched_ends {s u : State} {c : Byte} {d : Datapath} {prog : List Stmt}
    (h : Runs (s.launched c d prog) u) (hn : Input.reset ∉ s.inputs)
    (hx : u.x = { s.x with done := 1 }) :
    ∃ n v used, Reaches n (s.launched c d prog) v ∧ HostDid s v used ∧
      v.timeless = (({ u with
        x := { used.foldl HostRegs.accessed s.x with done := 1 } } : State).withHostSide v).timeless := by
  obtain ⟨n, v, used, hr, hd, hv⟩ := h.ends hn (y := s.x) rfl
  rw [hx, HostRegs.withHost_foldl_accessed_done] at hv
  exact ⟨n, v, used, hr, hd.of_launched, hv⟩

/-- Settles O13: the launch latches CMD1 and CMD2, and the pseudocode sends their frame. -/
theorem sendCommandSendsItsFrame : Obligations.SendCommandSendsItsFrame :=
  ⟨decode_encode .sendCommand, fun s hp =>
    ⟨_, launch_idle (s.not_busy_iff.mpr hp), rfl, rfl, rfl, rfl, fun hn =>
      (runs_sendCommand (a := s.launched 0x01 s.latchCommand sendCommandCode) rfl).launched_ends hn rfl⟩⟩

/-- The state INIT_DEFAULTS leaves: every entry sent, the datapath with the last one's values
(41_command.md R146). -/
def State.afterTable (a : State) : State :=
  { a with
    pc := []
    x := { a.x with done := 1 }
    lines := if a.nCfg = 0 then a.lines else ⟨1, 0, 0, a.lines.ffs⟩
    r := if a.nCfg = 0 then a.r
      else { a.r.sentEntry (a.nCfg.toNat - 1) (a.entry (a.nCfg.toNat - 1)) with cfgIdx := a.nCfg - 1 }
    trace := a.trace ++ a.entries.flatMap entryTrace ++ [.opEnd a.r.curOp] }

/-- The index of the last entry, in eight bits. -/
theorem ofNat_toNat_sub_one {n : Byte} (h : n ≠ 0) : BitVec.ofNat 8 (n.toNat - 1) = n - 1 := by
  bv_omega

/-- INIT_DEFAULTS from its first statement (41_command.md R146). -/
theorem runs_initDefaults {a : State} (hp : a.pc = initDefaultsCode) : Runs a a.afterTable := by
  obtain ⟨u, hr, hu⟩ := runs_table a.nCfg.toNat a 0 hp (Nat.zero_add _)
  refine hr.to (hu.trans ?_)
  by_cases h0 : a.nCfg = 0
  · simp [State.afterTable, State.entries, h0]
  · have hne : a.nCfg.toNat ≠ 0 := by bv_omega
    simp only [State.afterTable, State.entries, List.range_eq_range', Nat.zero_add, if_neg h0, if_neg hne,
      Datapath.sentEntry, ofNat_toNat_sub_one h0]

/-- Settles O14: from the launch the table loop sends every entry, none if N_CFG = 0. -/
theorem initDefaultsSendsEveryEntry : Obligations.InitDefaultsSendsEveryEntry :=
  ⟨decode_encode .initDefaults, fun s hp =>
    ⟨_, launch_idle (s.not_busy_iff.mpr hp), rfl, fun hn =>
      (runs_initDefaults (a := s.launched 0x04 s.r initDefaultsCode) rfl).launched_ends hn rfl⟩⟩

/-! ### The frame on the wire -/

/-- Bits sent one by one from `SCK` low make one rise each; `SCK` is left low, `SDO` at the last bit. -/
theorem sdoAtRises_sbTraces_append (bits : List Level) (sdo : Level) (es : List Event) :
    sdoAtRises sdo 0 (bits.flatMap sbTrace ++ es) = bits ++ sdoAtRises (bits.getLastD sdo) 0 es := by
  induction bits generalizing sdo with
  | nil => rfl
  | cons b bits ih =>
    rw [List.flatMap_cons, List.append_assoc, sdoAtRises_sbTrace, ih, List.cons_append, List.getLastD_cons]

theorem sendByteTrace_eq_flatMap_bits (v : Byte) : sendByteTrace v = (bitsOfByte v).flatMap sbTrace := by
  rw [sendByteTrace, bitsOfByte, List.flatMap_map]

/-- The frame's trace: the bits of the two bytes between the select and the release
(41_command.md R140). -/
theorem frameTrace_eq (c1 c2 : Byte) : frameTrace c1 c2 =
    [.drv .sel 0, .wait 1] ++ (bitsOfByte c1 ++ bitsOfByte c2).flatMap sbTrace
      ++ [.drv .sel 1, .drv .sdo 0, .drv .sck 0, .wait 1] := by
  rw [frameTrace, sendByteTrace_eq_flatMap_bits, sendByteTrace_eq_flatMap_bits, List.flatMap_append]
  simp only [List.append_assoc]

/-- `SCK` rises in a frame for the bits of its bytes alone; the frame leaves `SDO` and `SCK` low. -/
theorem sdoAtRises_frameTrace_append (sdo : Level) (c1 c2 : Byte) (es : List Event) :
    sdoAtRises sdo 0 (frameTrace c1 c2 ++ es) = bitsOfByte c1 ++ bitsOfByte c2 ++ sdoAtRises 0 0 es := by
  rw [frameTrace_eq, List.append_assoc, List.append_assoc]
  exact sdoAtRises_sbTraces_append _ _ _

/-- The bits of the two bytes are those of the frame, most significant first (30_encoding.md R95). -/
theorem bitsOfByte_append (c1 c2 : Byte) : bitsOfByte c1 ++ bitsOfByte c2 =
    (List.range 16).map fun j => (commandFrame c1 c2).extractLsb' (15 - j) 1 := by
  have high : ∀ j ∈ List.range 8, msbFirst c1 j = (commandFrame c1 c2).extractLsb' (15 - j) 1 := by
    intro j hj
    rw [List.mem_range] at hj
    rw [commandFrame, BitVec.extractLsb'_append_eq_of_le (by omega), show 15 - j - 8 = 7 - j by omega,
      msbFirst]
  have low : ∀ j ∈ List.range 8,
      msbFirst c2 j = (commandFrame c1 c2).extractLsb' (15 - (8 + j)) 1 := by
    intro j hj
    rw [List.mem_range] at hj
    rw [commandFrame, BitVec.extractLsb'_append_eq_of_add_le (by omega),
      show 15 - (8 + j) = 7 - j by omega, msbFirst]
  rw [bitsOfByte, bitsOfByte, List.map_congr_left high, List.map_congr_left low]
  rfl

/-- Sixteen levels, the k-th of which is frame bit 16 − k. -/
theorem frameBits_of_eq {levels : List Level} {c1 c2 : Byte}
    (h : levels = bitsOfByte c1 ++ bitsOfByte c2) :
    levels.length = 16 ∧ ∀ k, 1 ≤ k → k ≤ 16 →
      levels[k - 1]? = some ((commandFrame c1 c2).extractLsb' (16 - k) 1) := by
  rw [h, bitsOfByte_append]
  refine ⟨by simp, fun k h1 h16 => ?_⟩
  rw [List.getElem?_map, List.getElem?_range (by omega), Option.map_some,
    show 15 - (k - 1) = 16 - k by omega]

/-- Settles O17: the rises of the frame's trace are its bits in order, and the markers of a SEND_COMMAND
add none. -/
theorem commandFrameOnTheWire : Obligations.CommandFrameOnTheWire := by
  refine ⟨fun sdo c1 c2 => frameBits_of_eq ?_, fun s hp hsck hn => (appends_sendCommand hn hp).imp ?_⟩
  · simpa [sdoAtRises] using sdoAtRises_frameTrace_append sdo c1 c2 []
  · rintro _ rfl
    refine frameBits_of_eq ?_
    rw [hsck, List.append_assoc]
    exact (sdoAtRises_frameTrace_append s.lines.sdo _ _ [.opEnd 0x01]).trans (List.append_nil _)

/-! ### The entries of a frame -/

/-- If every SEND_BIT has n entries of a kind, the frame has 16 n of it beside those of its select and its
release. -/
theorem countP_frameTrace {p : Event → Bool} {n : Nat} (h : ∀ b, (sbTrace b).countP p = n)
    (c1 c2 : Byte) : (frameTrace c1 c2).countP p = [Event.drv .sel 0, .wait 1].countP p + 16 * n
      + [Event.drv .sel 1, .drv .sdo 0, .drv .sck 0, .wait 1].countP p := by
  have hbits : ((bitsOfByte c1 ++ bitsOfByte c2).flatMap sbTrace).countP p = 16 * n := by
    rw [List.countP_flatMap, show List.countP p ∘ sbTrace = fun _ => n from funext h,
      List.map_const', List.sum_replicate_nat]
    simp [bitsOfByte]
  rw [frameTrace_eq, List.countP_append, List.countP_append, hbits]

/-- A frame's entries, and how many are drives, waits and samples (41_command.md R140). -/
theorem frameTrace_counts (c1 c2 : Byte) :
    (frameTrace c1 c2).length = 86 ∧ (frameTrace c1 c2).countP Event.isDrv = 52 ∧
      (frameTrace c1 c2).countP Event.isWait = 34 ∧ (frameTrace c1 c2).countP Event.isSmp = 0 := by
  refine ⟨?_, countP_frameTrace (n := 3) (fun _ => rfl) c1 c2,
    countP_frameTrace (n := 2) (fun _ => rfl) c1 c2, countP_frameTrace (n := 0) (fun _ => rfl) c1 c2⟩
  rw [← List.countP_true]
  exact countP_frameTrace (n := 5) (fun _ => rfl) c1 c2

/-- Settles O18: between the markers a SEND_COMMAND appends its frame and nothing else. -/
theorem frameEntryCounts : Obligations.FrameEntryCounts := by
  refine ⟨frameTrace_counts, fun s hp hn => (appends_sendCommand hn hp).imp ?_⟩
  rintro _ rfl
  exact ⟨_, rfl, frameTrace_counts _ _⟩

end Sys2Proof.Machine
end

section
/-! SUPPORT. The packet receiver's check (42_packet_receiver.md R166, R170): the exclusive-or of the frame's
four nibbles, on which bit flips act linearly. -/

namespace Sys2Proof.Machine

/-! ### The exclusive-or of the nibbles -/

/-- The exclusive-or of the four nibbles of a frame or of an error pattern (42_packet_receiver.md R166). -/
def nibbleXor (byte1 byte2 : Byte) : Nibble :=
  byte1.extractLsb' 4 4 ^^^ byte1.extractLsb' 0 4 ^^^ byte2.extractLsb' 4 4 ^^^ byte2.extractLsb' 0 4

/-- The nibbles of the two bytes in the order in which the check compares them. -/
theorem nibbleXor_eq_checksums (byte1 byte2 : Byte) :
    nibbleXor byte1 byte2 = localChecksum byte1 byte2 ^^^ rxChecksum byte1 := by
  unfold nibbleXor localChecksum rxChecksum label
  ac_rfl

theorem packetPasses_iff_checksums (byte1 byte2 : Byte) :
    packetPasses byte1 byte2 = true ↔ localChecksum byte1 byte2 = rxChecksum byte1 :=
  beq_iff_eq

theorem packetPasses_iff_nibbleXor (byte1 byte2 : Byte) :
    packetPasses byte1 byte2 = true ↔ nibbleXor byte1 byte2 = 0 := by
  rw [packetPasses_iff_checksums, nibbleXor_eq_checksums]
  exact BitVec.xor_eq_zero_iff.symm

/-- Settles O23: the comparison of the checksums, and its two sides on one. -/
theorem checksumIsTheXorOfFourNibbles : Obligations.ChecksumIsTheXorOfFourNibbles :=
  fun b1 b2 => ⟨packetPasses_iff_checksums b1 b2, packetPasses_iff_nibbleXor b1 b2⟩

/-! ### Flipped bits -/

/-- An error pattern acts on the exclusive-or of the nibbles by its own (42_packet_receiver.md R170). -/
theorem nibbleXor_flip (b1 b2 e1 e2 : Byte) :
    nibbleXor (b1 ^^^ e1) (b2 ^^^ e2) = nibbleXor b1 b2 ^^^ nibbleXor e1 e2 := by
  unfold nibbleXor
  simp only [extract_xor]
  ac_rfl

/-- A passing frame with an error pattern passes exactly when the pattern's nibbles cancel. -/
theorem packetPasses_flip_iff {b1 b2 : Byte} (e1 e2 : Byte) (h : packetPasses b1 b2 = true) :
    packetPasses (b1 ^^^ e1) (b2 ^^^ e2) = true ↔ nibbleXor e1 e2 = 0 := by
  rw [packetPasses_iff_nibbleXor] at h ⊢
  rw [nibbleXor_flip, h]
  exact iff_of_eq (congrArg (· = 0) BitVec.zero_xor)

/-- The exclusive-or of the nibbles of an error pattern on the sixteen bits of a frame. -/
def patternXor (e : Half) : Nibble := nibbleXor (e.extractLsb' 8 8) (e.extractLsb' 0 8)

/-- A single flipped bit shows at its position within the nibble. -/
theorem patternXor_single : ∀ i < 16, patternXor (1#16 <<< i) = 1#4 <<< (i % 4) := by decide

/-- Two different flipped bits show at both positions, which cancel if they are the same. -/
theorem patternXor_double : ∀ j < 16, ∀ i < j,
    patternXor (1#16 <<< i ||| 1#16 <<< j) = 1#4 <<< (i % 4) ^^^ 1#4 <<< (j % 4) := by decide

/-- Positions within a nibble are told apart by their bits. -/
theorem nibbleBit_inj : ∀ a < 4, ∀ b < 4, 1#4 <<< a = 1#4 <<< b ↔ a = b := by decide

/-- Settles O24: a pattern passes unseen when its nibbles cancel; one bit does not cancel, two bits do at the
same position of their nibbles. -/
theorem undetectedFlipsAreExactlyKnown : Obligations.UndetectedFlipsAreExactlyKnown := by
  refine ⟨fun b1 b2 e1 e2 h => packetPasses_flip_iff e1 e2 h, fun b1 b2 i hi h => ?_,
    fun b1 b2 i j hij hj h => ?_, by decide⟩
  · have visible : ∀ a < 4, 1#4 <<< a ≠ 0 := by decide
    rw [Bool.eq_false_iff, ne_eq, packetPasses_flip_iff _ _ h]
    exact fun e => visible (i % 4) (Nat.mod_lt i (by decide)) ((patternXor_single i hi).symm.trans e)
  · rw [packetPasses_flip_iff _ _ h]
    show patternXor (1#16 <<< i ||| 1#16 <<< j) = 0 ↔ _
    rw [patternXor_double j hj i hij, ← nibbleBit_inj _ (Nat.mod_lt i (by decide)) _ (Nat.mod_lt j (by decide))]
    exact BitVec.xor_eq_zero_iff

end Sys2Proof.Machine
end

section
/-! SUPPORT. RECEIVE_PACKET's poll step by step (42_packet_receiver.md R161 to R163): what the timeout test
does to the time, and the step of each statement of the poll. -/

namespace Sys2Proof.Machine

/-! ### The timeout test -/

/-- Waiting changes the time only. -/
theorem waitOut_eq (r : Datapath) : r.waitOut = { r with nowMs := r.waitOut.nowMs } := by
  unfold Datapath.waitOut
  split <;> rfl

theorem expired_iff (r : Datapath) : r.expired = true ↔ r.lTimeout ≤ r.nowMs - r.tStart :=
  decide_eq_true_iff

theorem waitOut_expired (r : Datapath) : r.waitOut.expired = true := by
  unfold Datapath.waitOut
  split
  case isTrue h => exact h
  case isFalse =>
    have elapsed : r.tStart + r.lTimeout - r.tStart = r.lTimeout := by
      rw [BitVec.add_comm, BitVec.add_sub_cancel]
    exact (expired_iff _).mpr (BitVec.le_of_eq elapsed.symm)

/-- Before the timeout test only time passes. -/
theorem beforeExpired_r_eq (s : State) :
    s.beforeExpired.r = { s.r with nowMs := s.beforeExpired.r.nowMs } := by
  rw [State.beforeExpired_r]
  split
  · exact waitOut_eq s.r
  · rfl

/-- A poll whose patience is used up finds its timeout expired (42_packet_receiver.md R162 (c)). -/
theorem beforeExpired_expired {s : State} (h : s.env.patience = 0) : s.beforeExpired.r.expired = true := by
  rw [State.beforeExpired_r, if_pos h]
  exact waitOut_expired s.r

/-- A timeout of 0 has always expired (42_packet_receiver.md R162). -/
theorem expired_of_timeout_zero {r : Datapath} (h : r.lTimeout = 0) : r.expired = true := by
  rw [expired_iff, h, BitVec.le_def]
  exact Nat.zero_le _

/-- The test of the timeout, which leaves for the end of the operation or for another sample. -/
theorem perform_ifExpired (s : State) : perform .ifExpired s = .next { s.beforeExpired with
    pc := if s.beforeExpired.r.expired then receiveTimedOut else .prim .sampleIrq :: s.pc } := by
  cases h : s.beforeExpired.r.expired <;> simp only [perform, h] <;> rfl

/-! ### The steps of the poll -/

/-- With no input pending, a primitive that is not the operation's last is performed and no more. -/
theorem step_quiet_primNext {s u : State} {p : Prim} {rest : List Stmt} (hi : s.inputs = [])
    (hpc : s.pc = .prim p :: rest) (h : perform p { s.beforeSeq with pc := rest } = .next u)
    (hc : u.pc.head? ≠ some .complete) : step s = .next u := by
  rw [step_quiet_prim hi hpc, h, settleResult, State.settle_of_ne hc]

/-- Settles O25: the step is `State.startPoll`, after the passage of time. -/
theorem pollStartIsTheTimebase : Obligations.PollStartIsTheTimebase := by
  intro s p rest hi hpc hp
  exact ⟨_, step_quiet_primNext hi hpc rfl (by simpa using hp), rfl, rfl, rfl⟩

theorem step_sampleIrq {s : State} {rest : List Stmt} (hi : s.inputs = [])
    (hpc : s.pc = .prim .sampleIrq :: rest) : step s =
      .next (({ s.beforeSeq with pc := rest } : State).sampleIrq.push [.prim (.ifReady s.nextIrq)]) :=
  step_quiet_primNext hi hpc rfl (by simp)

theorem step_ifReady {s : State} {lvl : Level} {p : Stmt} {rest : List Stmt} (hi : s.inputs = [])
    (hpc : s.pc = .prim (.ifReady lvl) :: p :: rest) (hp : p ≠ .complete) : step s =
      .next { s.beforeSeq with
        pc := if lvl = Config.irqActiveLevel then p :: rest else .prim .ifExpired :: p :: rest } := by
  refine step_quiet_primNext hi hpc ?_ ?_
  · simp only [perform]
    split <;> rfl
  · simp only
    split <;> simp [hp]

/-- The state in which a test of the timeout is made, with no input pending. -/
def State.testing (s : State) (rest : List Stmt) : State :=
  ({ s.beforeSeq with pc := rest } : State).beforeExpired

theorem step_ifExpired {s : State} {rest : List Stmt} (hi : s.inputs = [])
    (hpc : s.pc = .prim .ifExpired :: rest) : step s =
      .next { s.testing rest with
        pc := if (s.testing rest).r.expired then receiveTimedOut else .prim .sampleIrq :: rest } := by
  refine step_quiet_primNext hi hpc (perform_ifExpired _) ?_
  simp only
  split <;> simp [receiveTimedOut]

/-- The test leaves the datapath but for the time. -/
theorem testing_r_eq (s : State) (rest : List Stmt) :
    (s.testing rest).r = { s.r with nowMs := (s.testing rest).r.nowMs } :=
  beforeExpired_r_eq { s.beforeSeq with pc := rest }

theorem testing_expired_iff (s : State) (rest : List Stmt) : (s.testing rest).r.expired = true ↔
    s.r.lTimeout ≤ (s.testing rest).r.nowMs - s.r.tStart := by
  rw [expired_iff, testing_r_eq]

/-- Settles O26: one step for the sample, one for the test of its level, one for the test of the timeout. -/
theorem pollIterationFollowsLevelThenTime : Obligations.PollIterationFollowsLevelThenTime := by
  refine ⟨fun s rest hi hpc => ?_, fun s lvl p rest hi hpc hp => ?_, fun s rest hi hpc => ?_⟩
  · exact ⟨_, step_sampleIrq hi hpc, rfl, rfl, rfl, rfl⟩
  · exact ⟨_, step_ifReady hi hpc hp, rfl, rfl, rfl, rfl⟩
  · refine ⟨_, step_ifExpired hi hpc, rfl, rfl, rfl, testing_r_eq s rest, ?_, fun h0 => ?_⟩
    · simp only [testing_expired_iff]
      rfl
    · have hexp : (s.testing rest).r.expired = true :=
        expired_of_timeout_zero ((congrArg Datapath.lTimeout (testing_r_eq s rest) :).trans h0)
      exact if_pos hexp

end Sys2Proof.Machine
end

section
/-! SUPPORT. RECEIVE_PACKET from its launch to its end (42_packet_receiver.md R160 to R169, R171, R172). -/

namespace Sys2Proof.Machine

/-! ### From the launch to the end -/

/-- Of the registers the engine writes RECEIVE_PACKET leaves SW0 and SW1 as they were, and the accesses done
with leave them too. -/
theorem HostRegs.withHost_foldl_accessed_packet (is : List Input) (x : HostRegs) (d : Level) (c : BitVec 2)
    (p0 p1 : Byte) :
    ({ x with done := d, result := c, pkt0 := p0, pkt1 := p1 } : HostRegs).withHost
        (is.foldl HostRegs.accessed x) =
      { is.foldl HostRegs.accessed x with done := d, result := c, pkt0 := p0, pkt1 := p1 } := by
  simp [HostRegs.withHost]

/-- A run that leads from a launch to the engine's side of a state, its end written out: the host registers
as the accesses done with leave them, but those the engine writes. -/
theorem Leads.launched_ends {s u v : State} {c : Byte} {d : Datapath} {prog : List Stmt}
    (h : Leads (s.launched c d prog) u) (e : u.engine = v.engine) :
    ∃ n w used, Reaches n (s.launched c d prog) w ∧ HostDid s w used ∧
      w.timeless = (({ v with
        x := v.x.withHost (used.foldl HostRegs.accessed s.x) } : State).withHostSide w).timeless := by
  obtain ⟨n, w, used, hr, hd, hw⟩ := h.ends e (y := s.x) rfl
  exact ⟨n, w, used, hr, hd.of_launched, hw⟩

/-- Settles O21: from the launch the poll times out, or finds a ready level and the two bytes are read; the
start time and the patience left are those of the end. -/
theorem receivePacketEndsWithItsOutcome : Obligations.ReceivePacketEndsWithItsOutcome := by
  refine ⟨decode_encode .receivePacket, fun s hp =>
    ⟨_, launch_idle (s.not_busy_iff.mpr hp), rfl, rfl, fun hn => ?_⟩⟩
  obtain ⟨u, k, start, hl, hk, hend⟩ := leads_receivePacket
    (t := s.launched 0x02 s.latchTimeout receivePacketCode) hn rfl
  rcases hend with ⟨hpos, hzero, e⟩ | ⟨hzero, hready, e⟩
  all_goals
    obtain ⟨n, w, used, hr, hd, hw⟩ := hl.launched_ends e
    have hstart : w.r.tStart = start := (congrArg (·.r.tStart) hw :)
    have hpat : w.env.patience = u.env.patience := (congrArg (·.env.patience) hw :)
    refine ⟨n, w, used, k, hr, hd, hk, ?_⟩
    rw [hstart, hpat, ← HostRegs.withHost_foldl_accessed_packet, ← HostRegs.withHost_foldl_accessed_packet,
      List.append_cons s.trace]
  · exact .inl ⟨hpos, hzero, hw⟩
  · exact .inr ⟨hzero, hready, hw⟩

/-! ### A valid frame -/

/-- A value drawn moves a supply on: its script gets shorter, or more was drawn freely. -/
theorem Draws.popN_drawn {α : Type} (n : Nat) (d : Draws α) :
    (d.popN n).drawn + d.script.length = d.drawn + (d.popN n).script.length + n := by
  induction n generalizing d with
  | zero => rfl
  | succ n ih =>
    have one : d.pop.drawn + d.script.length = d.drawn + d.pop.script.length + 1 := by
      unfold Draws.pop
      split
      case h_1 h => rw [h, List.length_cons, Nat.add_assoc]
      case h_2 h => rw [h]; rfl
    have rest := ih d.pop
    rw [Draws.popN]
    omega

/-- So a supply from which values were taken is not the one before. -/
theorem Draws.popN_ne_self {α : Type} {n : Nat} (h : n ≠ 0) (d : Draws α) : d ≠ d.popN n := by
  intro e
  have moved := Draws.popN_drawn n d
  rw [← e] at moved
  omega

/-- The first byte of a valid frame carries the checksum of its label and value (42_packet_receiver.md
R171). -/
theorem localChecksum_of_frame (l : Nibble) (v : Byte) :
    let byte1 : Byte := (v.extractLsb' 4 4 ^^^ v.extractLsb' 0 4 ^^^ l) ++ l
    label byte1 = l ∧ localChecksum byte1 v = rxChecksum byte1 := by
  obtain ⟨hlabel, hck⟩ := nibbles_append (v.extractLsb' 4 4 ^^^ v.extractLsb' 0 4 ^^^ l) l
  exact ⟨hlabel, by rw [hck, localChecksum, hlabel]⟩

/-- Settles O22: the outcome in which the two bytes are read has used 16 samples of `SDI`, and the frame
passes; the one that timed out has used none, and its first sample of `IRQ` was not ready. -/
theorem validFrameIsReceived : Obligations.ValidFrameIsReceived := by
  intro s l v hp hn hb1 hb2
  obtain ⟨-, hrun⟩ := receivePacketEndsWithItsOutcome
  obtain ⟨t, ht, -, -, hend⟩ := hrun s hp
  obtain ⟨n, u, used, k, hr, -, hk, ⟨hpos, -, hu⟩ | ⟨-, -, hu⟩⟩ := hend hn
  all_goals
    have hdone : u.x.done = 1 := (congrArg (·.x.done) hu :)
    refine ⟨t, n, u, ht, hr, (congrArg State.pc hu :), hdone, ?_, fun hready => ?_⟩
  · intro hsdi
    have unused : u.env.sdi = s.env.sdi := (congrArg (·.env.sdi) hu :)
    exact absurd (unused.symm.trans hsdi) (Draws.popN_ne_self (by decide) _)
  · exact absurd hready (hk 0 hpos)
  · intro _
    obtain ⟨hlabel, hck⟩ := localChecksum_of_frame l v
    rw [hb1, hb2, hlabel, if_pos hck] at hu
    exact ⟨(congrArg (·.x.result) hu :), (congrArg (·.x.pkt0) hu :), (congrArg (·.x.pkt1) hu :)⟩
  · exact (congrArg (·.env.sdi) hu :)

end Sys2Proof.Machine
end

section
/-! SUPPORT. Every operation ends (42_packet_receiver.md R162 (c), 93_implementation_defined.md U24): each step
of a running operation lowers, in this order, the poll starts still to come, the patience of the running poll,
the weight of the statements still to be performed, and the turns left to the host. -/

namespace Sys2Proof.Machine

/-! ### The weight of a statement -/

/-- An upper bound on the statements a primitive still leads to, itself included, up to another sample of a
poll. `n` is the number of table entries, for each of which 200 are more than enough. -/
def Prim.weight (n : Nat) : Prim → Nat
  | .sampleIrq => 5
  | .ifReady _ => 4
  | .ifExpired => 3
  | .ifChecksum | .ifDelay => 2
  | .cfgFor k => 200 * (n - k) + 2
  | .memRead k => 200 * (n - k)
  | _ => 1

/-- An upper bound on the primitives of the micro-operation a place performs (40_codec.md R120 to R123). -/
def CallSite.weight : CallSite → Nat
  | .sendTxBit _ | .readBit => 5
  | .sendCmd1 | .sendCmd2 | .readByte | .word _ => 60

def Stmt.weight (n : Nat) : Stmt → Nat
  | .prim p => p.weight n
  | .call c => c.weight
  | .complete => 1

/-- The weight of the statements still to be performed. -/
def weight (n : Nat) (pc : List Stmt) : Nat := (pc.map (Stmt.weight n)).sum

@[simp] theorem weight_nil (n : Nat) : weight n [] = 0 := rfl
@[simp] theorem weight_cons (n : Nat) (st : Stmt) (pc : List Stmt) :
    weight n (st :: pc) = st.weight n + weight n pc := rfl
@[simp] theorem weight_append (n : Nat) (pc pc' : List Stmt) :
    weight n (pc ++ pc') = weight n pc + weight n pc' := by
  simp [weight]

/-- The poll starts among the statements still to be performed. -/
def pollStarts (pc : List Stmt) : Nat := pc.count (.prim .setTStart)

@[simp] theorem pollStarts_append (pc pc' : List Stmt) :
    pollStarts (pc ++ pc') = pollStarts pc + pollStarts pc' := List.count_append

/-! ### What the sequencer has still to do -/

/-- What the sequencer has still to do, most significant first: polls to start, timeout tests that the
running poll may find not expired, statements by weight. -/
def State.work (s : State) : Nat × Nat × Nat :=
  (pollStarts s.pc, s.env.patience, weight s.nCfg.toNat s.pc)

/-- The lexicographic order of `State.work`. -/
abbrev workOrder : WellFoundedRelation (Nat × Nat × Nat) :=
  Prod.lex Nat.lt_wfRel (Prod.lex Nat.lt_wfRel Nat.lt_wfRel)

/-- The sequencer has less to do in `t` than in `s`. -/
def LessWork (t s : State) : Prop := workOrder.rel t.work s.work

/-- In a lexicographic order a first component that does not grow leaves the second to decide. -/
theorem lex_of_le {α : Type} {r : α → α → Prop} {a a' : Nat} {b b' : α} (ha : a' ≤ a) (hb : r b' b) :
    Prod.Lex (· < ·) r (a', b') (a, b) := by
  rcases Nat.lt_or_eq_of_le ha with hlt | rfl
  · exact .left _ _ hlt
  · exact .right _ hb

theorem lessWork_of_starts {s t : State} (h : pollStarts t.pc < pollStarts s.pc) : LessWork t s :=
  Prod.Lex.left _ _ h

theorem lessWork_of_patience {s t : State} (hstarts : pollStarts t.pc ≤ pollStarts s.pc)
    (h : t.env.patience < s.env.patience) : LessWork t s :=
  lex_of_le hstarts (.left _ _ h)

theorem lessWork_of_weight {s t : State} (hstarts : pollStarts t.pc ≤ pollStarts s.pc)
    (hpat : t.env.patience ≤ s.env.patience)
    (h : weight t.nCfg.toNat t.pc < weight s.nCfg.toNat s.pc) : LessWork t s :=
  lex_of_le hstarts (lex_of_le hpat h)

/-- The statements put in place of one weigh less than it and start no poll. -/
structure Replaces (n : Nat) (st : Stmt) (ps : List Stmt) : Prop where
  starts : pollStarts ps = 0
  lighter : weight n ps < st.weight n

/-- A statement that is done with has weight. -/
theorem Replaces.nil {n : Nat} {st : Stmt} (h : 0 < st.weight n) : Replaces n st [] := ⟨rfl, h⟩

/-- The sequencer moves by putting statements in place of the one it stands at, the poll's patience kept. -/
structure StmtMove (st : Stmt) (s t : State) : Prop where
  nCfg : t.nCfg = s.nCfg
  patience : t.env.patience = s.env.patience
  pc : ∃ ps, t.pc = ps ++ s.pc ∧ Replaces s.nCfg.toNat st ps

theorem StmtMove.lowers {st : Stmt} {rest : List Stmt} {s t : State} (h : StmtMove st { s with pc := rest } t)
    (hpc : s.pc = st :: rest) : LessWork t s := by
  obtain ⟨ps, htpc, hps⟩ := h.pc
  refine lessWork_of_weight ?_ (Nat.le_of_eq h.patience) ?_
  · rw [htpc, hpc, pollStarts_append, hps.starts, Nat.zero_add]
    exact (List.sublist_cons_self st rest).count_le _
  · rw [h.nCfg, htpc, hpc, weight_append, weight_cons]
    exact Nat.add_lt_add_right hps.lighter _

/-! ### Primitives -/

/-- What a table read leads to: the entry's frame and delay, and the test of the next entry. -/
theorem weight_cfgSend (n k : Nat) (e : CfgEntry) :
    weight n (cfgSend k e) = 134 + 200 * (n - (k + 1)) := by
  simp [cfgSend, frame, drv, wait, Stmt.weight, Prim.weight, CallSite.weight]
  omega

theorem weight_cfgBody (n k : Nat) : weight n (cfgBody k) = 1 + 200 * (n - k) := rfl

/-- Primitives other than the start of a poll and its timeout test keep the poll's patience and put lighter
statements in their place. -/
theorem perform_moves {p : Prim} {s t : State} (hstart : p ≠ .setTStart) (htest : p ≠ .ifExpired)
    (h : perform p s = .next t) : StmtMove (.prim p) s t := by
  cases p with
  | setTStart => exact absurd rfl hstart
  | ifExpired => exact absurd rfl htest
  | sampleIrq => cases h; exact ⟨rfl, rfl, [.prim (.ifReady s.nextIrq)], rfl, rfl, Nat.lt_add_one 4⟩
  | ifReady lvl =>
    simp only [perform, Host.Outcome.next.injEq] at h
    split at h <;> subst h
    · exact ⟨rfl, rfl, [], rfl, .nil (Nat.succ_pos 3)⟩
    · exact ⟨rfl, rfl, [.prim .ifExpired], rfl, rfl, Nat.lt_add_one 3⟩
  | ifChecksum =>
    cases h
    exact ⟨rfl, rfl, [.prim (.setResult (packetStatus s.r.byte1 s.r.byte2))], rfl, rfl, Nat.lt_add_one 1⟩
  | ifDelay =>
    simp only [perform, Host.Outcome.next.injEq] at h
    split at h <;> subst h
    · exact ⟨rfl, rfl, [], rfl, .nil (Nat.succ_pos 1)⟩
    · exact ⟨rfl, rfl, [.prim .waitDelay], rfl, rfl, Nat.lt_add_one 1⟩
  | cfgFor k =>
    simp only [perform, Host.Outcome.next.injEq] at h
    split at h <;> subst h
    · refine ⟨rfl, rfl, cfgBody k, rfl, rfl, ?_⟩
      rw [weight_cfgBody, Stmt.weight, Prim.weight]
      omega
    · exact ⟨rfl, rfl, [], rfl, .nil (Nat.succ_pos _)⟩
  | memRead k =>
    by_cases hk : k < s.nCfg.toNat
    · rw [perform_memRead_inside hk] at h
      cases h
      refine ⟨rfl, rfl, cfgSend k (s.entry k), rfl, rfl, ?_⟩
      rw [weight_cfgSend, Stmt.weight, Prim.weight]
      omega
    · rw [perform_memRead_outside hk] at h
      exact absurd h (by simp)
  | _ => cases h; exact ⟨rfl, rfl, [], rfl, .nil Nat.one_pos⟩

/-- The start of a poll is one fewer to come. -/
theorem setTStart_lowers {s t : State} {rest : List Stmt} (hpc : s.pc = .prim .setTStart :: rest)
    (h : perform .setTStart { s with pc := rest } = .next t) : LessWork t s := by
  cases h
  refine lessWork_of_starts ?_
  rw [hpc, pollStarts, pollStarts, List.count_cons_self]
  exact Nat.lt_add_one _

/-- The timeout test uses up patience, or finds none left and the timeout expired, so that two statements
are left (42_packet_receiver.md R162 (c)). -/
theorem ifExpired_lowers {s t : State} {rest : List Stmt} (hpc : s.pc = .prim .ifExpired :: rest)
    (h : perform .ifExpired { s with pc := rest } = .next t) : LessWork t s := by
  rw [perform_ifExpired] at h
  cases h
  by_cases hpat : s.env.patience = 0
  · have hexp := beforeExpired_expired (s := { s with pc := rest }) hpat
    refine lessWork_of_weight ?_ (Nat.sub_le _ _) ?_ <;> simp only [hexp, if_true, hpc]
    · exact Nat.zero_le _
    · rw [weight_cons]
      exact Nat.lt_of_lt_of_le (Nat.lt_add_one 2) (Nat.le_add_right _ _)
  · refine lessWork_of_patience ?_ (Nat.sub_lt (Nat.pos_of_ne_zero hpat) Nat.one_pos)
    rw [hpc]
    dsimp only
    split
    · exact Nat.zero_le _
    · exact Nat.le_of_eq (by simp [pollStarts])

/-- A primitive lowers what is to do. -/
theorem perform_lowers {p : Prim} {s t : State} {rest : List Stmt} (hpc : s.pc = .prim p :: rest)
    (h : perform p { s with pc := rest } = .next t) : LessWork t s := by
  by_cases hstart : p = .setTStart
  · subst hstart; exact setTStart_lowers hpc h
  by_cases htest : p = .ifExpired
  · subst htest; exact ifExpired_lowers hpc h
  exact (perform_moves hstart htest h).lowers hpc

/-! ### Micro-operations -/

/-- A place that may perform a SEND_BYTE or a READ_BYTE has room for its body. -/
theorem weight_of_byte {c : CallSite} {r : Datapath} {i : Instr}
    (hd : decodeMicro (c.microWord r) = .ok i) (hs : ∀ b, i ≠ .sendBit b) (hr : i ≠ .readBit) :
    c.weight = 60 := by
  cases c with
  | sendTxBit j => exact absurd ((Decoded.ok.injEq _ _).mp (hd.symm.trans (decode_sendBit _))) (hs _)
  | readBit =>
    exact absurd ((Decoded.ok.injEq _ _).mp (hd.symm.trans (decode_encode .readBit))) hr
  | _ => rfl

theorem weight_of_bit (c : CallSite) : 5 ≤ c.weight := by cases c <;> simp [CallSite.weight]

theorem weight_sendByteRest (n : Nat) : weight n sendByteRest = 48 := by
  simp [sendByteRest, sendByteIter, List.range, List.range.loop, Stmt.weight, Prim.weight, CallSite.weight]

theorem weight_readByteRest (n : Nat) : weight n readByteRest = 58 := by
  simp [readByteRest, readByteIter, drv, Stmt.weight, Prim.weight, CallSite.weight]

/-- The rest of a micro-operation's body, put in place of its call, is lighter than the call. -/
theorem runMicro_moves {c : CallSite} {s t : State} (h : runMicro (c.microWord s.r) s = .next t) :
    StmtMove (.call c) s t := by
  unfold runMicro at h
  split at h
  case h_2 => exact absurd h (by simp)
  case h_1 i hd =>
    rcases exec_micro hd with ⟨b, rfl, he⟩ | ⟨rfl, he⟩ | ⟨v, rfl, he⟩ | ⟨rfl, he⟩ <;>
      rw [he] at h <;> cases h
    · exact ⟨rfl, rfl, sendBitRest, rfl, rfl, weight_of_bit c⟩
    · exact ⟨rfl, rfl, readBitRest, rfl, rfl, weight_of_bit c⟩
    · have hw := weight_of_byte hd (by simp) (by simp)
      exact ⟨rfl, rfl, sendByteRest, rfl, rfl, by rw [weight_sendByteRest, Stmt.weight, hw]; decide⟩
    · have hw := weight_of_byte hd (by simp) (by simp)
      exact ⟨rfl, rfl, readByteRest, rfl, rfl, by rw [weight_readByteRest, Stmt.weight, hw]; decide⟩

/-! ### Steps -/

/-- A move of the sequencer ends the operation or lowers what is to do. -/
theorem SeqMove.ends_or_lowers {s t : State} (h : SeqMove s t) : t.pc = [] ∨ LessWork t s := by
  cases h with
  | idle hpc => exact .inl hpc
  | @prim p rest u hpc hu =>
    rcases settle_cases u with hs | ⟨-, hs⟩ <;> rw [hs]
    · exact .inr (perform_lowers hpc hu)
    · exact .inl rfl
  | call hpc hrun => exact .inr ((runMicro_moves hrun).lowers hpc)
  | complete => exact .inl rfl

/-- The order of what the sequencer has to do, and then of the turns left to the host. -/
abbrev toDoOrder : WellFoundedRelation ((Nat × Nat × Nat) × Nat) := Prod.lex workOrder Nat.lt_wfRel

/-- Less is to do in `t` than in `s`. -/
def LessToDo (t s : State) : Prop := toDoOrder.rel (t.work, t.env.turnsLeft) (s.work, s.env.turnsLeft)

theorem lessToDo_wf : WellFounded LessToDo :=
  InvImage.wf (fun s : State => (s.work, s.env.turnsLeft)) toDoOrder.wf

theorem LessWork.lessToDo {s t : State} (h : LessWork t s) : LessToDo t s := Prod.Lex.left _ _ h

theorem lessToDo_of_turns {s t : State} (hw : t.work = s.work) (h : t.env.turnsLeft < s.env.turnsLeft) :
    LessToDo t s := by
  rw [LessToDo, hw]
  exact Prod.Lex.right _ h

/-- An input to a running engine abandons the operation (reset) or leaves what the sequencer has to do and
the turns. -/
theorem applyInput_ends_or_keeps {s t : State} {i : Input} (hb : s.busy = true)
    (h : applyInput i s = .next t) :
    t.pc = [] ∨ (t.work = s.work ∧ t.env.turnsLeft = s.env.turnsLeft) := by
  by_cases hi : i = .reset
  · subst hi; cases h; exact .inl rfl
  · obtain ⟨he, -, hturns, -⟩ := applyInput_busy hb hi h
    exact .inr ⟨(congrArg State.work he :), hturns⟩

/-- A step of a running engine ends the operation or lowers what is to do. -/
theorem step_ends_or_lowers {s t : State} (hb : s.busy = true) (h : step s = .next t) :
    t.pc = [] ∨ LessToDo t s := by
  rcases step_cases s with ⟨i, rest, hm, hi, hs⟩ | ⟨-, hs⟩ <;> rw [hs] at h
  · have hturns : 0 < s.env.turnsLeft := (hostMoves_busy_iff hb hi).mp hm
    refine (applyInput_ends_or_keeps (s := s.beforeInput rest) hb h).imp_right fun ⟨hw, ht⟩ => ?_
    exact lessToDo_of_turns hw (ht ▸ Nat.sub_lt hturns Nat.one_pos)
  · exact (seqStep_moves h).ends_or_lowers.imp_right LessWork.lessToDo

/-- Settles O42: by induction on what is to do, which every step lowers that does not end the operation. -/
theorem everyOperationEnds : Obligations.EveryOperationEnds := by
  intro s
  induction s using lessToDo_wf.induction with
  | _ s ih =>
    intro hinv
    by_cases hpc : s.pc = []
    · exact ⟨0, s, .refl s, hpc, hinv⟩
    obtain ⟨t, ht⟩ := engineNeverStops s hinv
    have hinv' : EngineInv t := engineInvariantIsKept s t hinv ht
    rcases step_ends_or_lowers (s.busy_iff.mpr hpc) ht with hend | hless
    · exact ⟨1, t, .one ht, hend, hinv'⟩
    · obtain ⟨n, u, hr, hu⟩ := ih t hless hinv'
      exact ⟨n + 1, u, .head ht hr, hu⟩

end Sys2Proof.Machine
end

section
/-! SUPPORT. READ_STATUS from its launch to its end (43_status_reader.md R180, R182, R183), and its trace
(R181, R185): the entries it has, and the level of `SDO` at its rises of `SCK`. -/

namespace Sys2Proof.Machine

/-! ### From the launch to the end -/

/-- Of the registers the engine writes READ_STATUS leaves RESULT, PKT0 and PKT1 as they were, and the accesses
done with leave them too. -/
theorem HostRegs.withHost_foldl_accessed_status (is : List Input) (x : HostRegs) (d : Level)
    (w0 w1 : Byte) :
    ({ x with done := d, sw0 := w0, sw1 := w1 } : HostRegs).withHost (is.foldl HostRegs.accessed x) =
      { is.foldl HostRegs.accessed x with done := d, sw0 := w0, sw1 := w1 } := by
  simp [HostRegs.withHost]

/-- Settles O19: from the launch the pseudocode clocks the two bytes in and publishes them. -/
theorem readStatusReadsTheStatusWord : Obligations.ReadStatusReadsTheStatusWord := by
  refine ⟨decode_encode .readStatus, fun s hp =>
    ⟨_, launch_idle (s.not_busy_iff.mpr hp), rfl, fun hn => ?_⟩⟩
  obtain ⟨u, hl, e⟩ := runs_readStatus (a := s.launched 0x03 s.r readStatusCode) rfl _ rfl hn
  obtain ⟨n, w, used, hr, hd, hw⟩ := hl.launched_ends e
  refine ⟨n, w, used, hr, hd, ?_⟩
  rw [← HostRegs.withHost_foldl_accessed_status]
  exact hw

/-! ### The entries of the trace -/

/-- If every READ_BIT has n entries of a kind, the bit steps have n of it for each sample. -/
theorem countP_flatMap_rbTrace {p : Event → Bool} {n : Nat} (h : ∀ b, (rbTrace b).countP p = n)
    (bits : List Level) : (bits.flatMap rbTrace).countP p = bits.length * n := by
  rw [List.countP_flatMap, show List.countP p ∘ rbTrace = fun _ => n from funext h,
    List.map_const', List.sum_replicate_nat]

/-- Sixteen samples give 16 n of it, beside those of READ_STATUS's select and its release. -/
theorem countP_statusTrace {p : Event → Bool} {n : Nat} (h : ∀ b, (rbTrace b).countP p = n)
    {bits : List Level} (hb : bits.length = 16) : (statusTrace bits).countP p =
      [Event.drv .sel 0, .wait 1, .drv .sdo 0, .wait 1].countP p + 16 * n
        + [Event.drv .sel 1, .drv .sdo 0].countP p := by
  rw [statusTrace, List.countP_append, List.countP_append, countP_flatMap_rbTrace h, hb]

/-! ### The level of `SDO` -/

/-- READ_BIT from `SCK` low makes one rise, drives no `SDO`, and leaves `SCK` low. -/
theorem sdoAtRises_rbTrace (sdo b : Level) (es : List Event) :
    sdoAtRises sdo 0 (rbTrace b ++ es) = sdo :: sdoAtRises sdo 0 es := rfl

theorem sdoAtRises_rbTraces_append (bits : List Level) (sdo : Level) (es : List Event) :
    sdoAtRises sdo 0 (bits.flatMap rbTrace ++ es) =
      List.replicate bits.length sdo ++ sdoAtRises sdo 0 es := by
  induction bits with
  | nil => rfl
  | cons b bits ih =>
    rw [List.flatMap_cons, List.append_assoc, sdoAtRises_rbTrace, ih, List.length_cons,
      List.replicate_succ, List.cons_append]

/-- `SDO` is driven low before the first rise and nowhere raised (43_status_reader.md R181). -/
theorem sdoAtRises_statusTrace (bits : List Level) (sdo : Level) :
    sdoAtRises sdo 0 (statusTrace bits) = List.replicate bits.length 0 := by
  rw [statusTrace, List.append_assoc]
  exact (sdoAtRises_rbTraces_append bits 0 _).trans (List.append_nil _)

/-- A READ_STATUS's entries, and how many are drives, waits and samples; none drives `FFS`
(43_status_reader.md R181, R185). -/
theorem statusTrace_counts {bits : List Level} (hb : bits.length = 16) (sdo : Level) :
    (statusTrace bits).length = 86 ∧ (statusTrace bits).countP Event.isDrv = 36 ∧
      (statusTrace bits).countP Event.isWait = 34 ∧ (statusTrace bits).countP Event.isSmp = 16 ∧
      (statusTrace bits).countP (Event.drives .ffs) = 0 ∧
      sdoAtRises sdo 0 (statusTrace bits) = List.replicate 16 0 := by
  refine ⟨?_, countP_statusTrace (n := 2) (fun _ => rfl) hb, countP_statusTrace (n := 2) (fun _ => rfl) hb,
    countP_statusTrace (n := 1) (fun _ => rfl) hb, countP_statusTrace (n := 0) (fun _ => rfl) hb,
    hb ▸ sdoAtRises_statusTrace bits sdo⟩
  rw [← List.countP_true]
  exact countP_statusTrace (n := 5) (fun _ => rfl) hb

/-- Settles O20: between the markers a READ_STATUS appends its trace with the 16 samples it used up. -/
theorem statusEntryCounts : Obligations.StatusEntryCounts := by
  refine ⟨fun _ sdo hb => statusTrace_counts hb sdo, fun s hp hsck hn => (appends_readStatus hn hp).imp ?_⟩
  rintro _ rfl
  rw [hsck]
  exact ⟨_, rfl, statusTrace_counts (sdiBits_length s 16) _⟩

end Sys2Proof.Machine
end

section
/-! SUPPORT. Overlapping launches (60_exceptions.md R204), and where the input lines are sampled (R209): the
engine draws from `IRQ` and `SDI` at its own samples only, the host from LINES' supply by its reads. -/

namespace Sys2Proof.Machine

/-! ### Overlapping launches -/

theorem launch_busy {c : Byte} {d : Datapath} {prog : List Stmt} {s : State} (hb : s.busy = true) :
    launch c d prog s = .next (s.raise .overlap) := by
  simp [launch, hb]

/-- While an operation runs the byte written to OP is not decoded (20_memory.md R68). -/
theorem writeOp_busy {s : State} (hb : s.busy = true) (v : Byte) :
    writeOp v s = .next (s.raise .overlap) := by
  simp [writeOp, hb]

theorem exec_operation_busy {i : Instr} {s : State} (hb : s.busy = true)
    (hi : i ∈ [Instr.sendCommand, .receivePacket, .readStatus, .initDefaults]) :
    exec i s = .next (s.raise .overlap) := by
  simp only [List.mem_cons, List.not_mem_nil, or_false] at hi
  rcases hi with rfl | rfl | rfl | rfl <;> exact launch_busy hb

/-- Settles O34: OP's write and the four launches raise the flag, also in the step that makes the access. -/
theorem overlappingLaunchOnlySetsItsFlag : Obligations.OverlappingLaunchOnlySetsItsFlag := by
  intro s hb
  refine ⟨writeOp_busy hb, fun i hi => exec_operation_busy hb hi, fun v rest hm hi => ?_⟩
  have raised := writeOp_busy (s := s.beforeInput rest) hb v
  exact ⟨_, (step_host hm hi).trans raised, rfl⟩

/-! ### The samples of the sequencer -/

/-- The sequencer uses up a sample of `IRQ` only at the poll's sample, one of `SDI` only at a bit step's. -/
theorem SeqMove.samples {s t : State} (h : SeqMove s t) :
    (t.env.irq ≠ s.env.irq → s.pc.head? = some (.prim .sampleIrq)) ∧
    (t.env.sdi ≠ s.env.sdi → s.pc.head? = some (.prim .sampleSdi)) := by
  cases h with
  | idle => exact ⟨fun h => absurd rfl h, fun h => absurd rfl h⟩
  | @prim p rest u hpc hu =>
    obtain ⟨hirq, hsdi⟩ := perform_draws hu
    have hset : u.settle.env = u.env := by
      rcases settle_cases u with h | ⟨-, h⟩ <;> rw [h]
      rfl
    rw [hset, hpc]
    refine ⟨fun hne => ?_, fun hne => ?_⟩
    · have hp : p = .sampleIrq := Decidable.by_contra fun hp => hne (hirq hp)
      rw [hp]; rfl
    · have hp : p = .sampleSdi := Decidable.by_contra fun hp => hne (hsdi hp)
      rw [hp]; rfl
  | call hpc hrun =>
    obtain ⟨i, p, body, -, hp, hpirq, hpsdi, -⟩ := runMicro_next hrun
    obtain ⟨hirq, hsdi⟩ := perform_draws hp
    exact ⟨fun hne => absurd (hirq hpirq) hne, fun hne => absurd (hsdi hpsdi) hne⟩
  | complete => exact ⟨fun h => absurd rfl h, fun h => absurd rfl h⟩

/-- What the invariant says of the primitive the sequencer stands at: it is in its place, and it belongs to
the operation in `r.CUR_OP`. -/
theorem EngineInv.at_prim {s : State} {p : Prim} (hinv : EngineInv s)
    (hhead : s.pc.head? = some (.prim p)) :
    s.shadow.primOk s.nCfg.toNat p = true ∧ p.partOf s.r.curOp = true := by
  obtain ⟨rest, hpc⟩ := List.head?_eq_some_iff.mp hhead
  have hends := hinv.ends
  have hown := hinv.own
  rw [hpc] at hends hown
  rw [endsIdle, Bool.and_eq_true] at hends
  rw [List.all_cons, Bool.and_eq_true] at hown
  exact ⟨hends.1, hown.1⟩

theorem lines_of_shadow_idle {s : State} (h : s.shadow = .idle) : s.lines = ⟨1, 0, 0, 1⟩ := by
  simp only [State.shadow, Shadow.idle, Shadow.mk.injEq, Option.some.injEq] at h
  obtain ⟨hsel, hsck, hsdo, hffs, -⟩ := h
  calc s.lines = ⟨s.lines.sel, s.lines.sck, s.lines.sdo, s.lines.ffs⟩ := rfl
    _ = ⟨1, 0, 0, 1⟩ := by rw [hsel, hsck, hsdo, hffs]

/-- A statement of the poll puts the operation in the phase Poll (10_state.md R42). -/
theorem phaseOf_polls {st : Stmt} {pc : List Stmt} (hst : st.polls = true)
    (hhead : pc.head? = some st) : phaseOf pc = .poll := by
  obtain ⟨rest, rfl⟩ := List.head?_eq_some_iff.mp hhead
  simp [phaseOf, hst]

/-- The poll's sample is made by a RECEIVE_PACKET, in the phase Poll, with the lines idle
(42_packet_receiver.md R163). -/
theorem EngineInv.at_sampleIrq {s : State} (hinv : EngineInv s)
    (hhead : s.pc.head? = some (.prim .sampleIrq)) :
    s.r.curOp = 0x02 ∧ phaseOf s.pc = .poll ∧ s.lines = ⟨1, 0, 0, 1⟩ := by
  obtain ⟨hok, hpart⟩ := hinv.at_prim hhead
  simp only [Shadow.primOk, Prim.partOf, beq_iff_eq] at hok hpart
  exact ⟨hpart, phaseOf_polls rfl hhead, lines_of_shadow_idle hok⟩

/-- A bit step's sample is made by a RECEIVE_PACKET or a READ_STATUS, with `SCK` high and `FFS` or `SEL` low
(40_codec.md R121, 43_status_reader.md R181). -/
theorem EngineInv.at_sampleSdi {s : State} (hinv : EngineInv s)
    (hhead : s.pc.head? = some (.prim .sampleSdi)) :
    (s.r.curOp = 0x02 ∨ s.r.curOp = 0x03) ∧ s.lines.sck = 1 ∧ (s.lines.ffs = 0 ∨ s.lines.sel = 0) := by
  obtain ⟨hok, hpart⟩ := hinv.at_prim hhead
  simp only [Shadow.primOk, Shadow.readsBits, Prim.partOf, Bool.and_eq_true, Bool.or_eq_true,
    beq_iff_eq] at hok hpart
  exact ⟨hpart, hok⟩

/-! ### The samples of the host -/

/-- The supplies of the input lines are the same in both states. -/
structure SamplesKept (s t : State) : Prop where
  irq : t.env.irq = s.env.irq
  sdi : t.env.sdi = s.env.sdi
  linesIn : t.env.linesIn = s.env.linesIn

/-- A host write samples no input line. -/
theorem hostWrite_keeps_samples {a : HostAddr} {v : Byte} {s t : State} (h : hostWrite a v s = .next t) :
    SamplesKept s t := by
  rcases hostWrite_cases a v s with ⟨-, hw⟩ | ⟨-, hw⟩ | ⟨-, -, x, hw, -⟩ <;> rw [hw] at h
  · rcases writeOp_cases v s with ⟨-, ho⟩ | ⟨-, -, ho⟩ | ⟨-, -, d, prog, -, ho⟩ <;>
      rw [ho] at h <;> cases h <;> exact ⟨rfl, rfl, rfl⟩
  all_goals cases h; exact ⟨rfl, rfl, rfl⟩

/-- Nor does a host read of another register than LINES. -/
theorem hostRead_keeps_samples {a : HostAddr} (s : State) (ha : HostReg.ofAddr a ≠ .lines) :
    SamplesKept s (hostRead a s) := by
  obtain ⟨-, -, -, -, hsdi, hirq⟩ := fields_of_engine (engine_hostRead a s)
  refine ⟨hirq, hsdi, ?_⟩
  simp only [hostRead, State.readDraws]
  split
  case h_1 hl => exact absurd hl ha
  case h_2 | h_3 => split <;> rfl
  case h_4 => rfl

/-- An input samples no input line, or it is a host read of LINES, which draws from LINES' own supply and
leaves the trace (10_state.md R34). -/
theorem applyInput_samples {i : Input} {s t : State} (h : applyInput i s = .next t) :
    SamplesKept s t ∨ ∃ a, i = .read a ∧ HostReg.ofAddr a = .lines ∧
      t.env.irq = s.env.irq ∧ t.env.sdi = s.env.sdi ∧ t.trace = s.trace := by
  cases i with
  | read a =>
    cases h
    by_cases ha : HostReg.ofAddr a = .lines
    · obtain ⟨-, -, -, htrace, hsdi, hirq⟩ := fields_of_engine (engine_hostRead a s)
      exact .inr ⟨a, rfl, ha, hirq, hsdi, htrace⟩
    · exact .inl (hostRead_keeps_samples s ha)
  | write a v => exact .inl (hostWrite_keeps_samples h)
  | waitIdle => cases h; rw [waitIdle_eq]; exact .inl ⟨rfl, rfl, rfl⟩
  | reset => cases h; exact .inl ⟨rfl, rfl, rfl⟩

/-- Settles O50: the sequencer samples at its own two primitives, whose place the invariant fixes, and an
input samples by a read of LINES only. -/
theorem inputLinesAreSampledOnlyWhereSaid : Obligations.InputLinesAreSampledOnlyWhereSaid := by
  intro s t hinv h
  rcases step_cases s with ⟨i, rest, hm, hi, hs⟩ | ⟨hm, hs⟩ <;> rw [hs] at h
  · rcases applyInput_samples h with ⟨hirq, hsdi, hlines⟩ | ⟨a, rfl, ha, hirq, hsdi, htrace⟩
    · exact ⟨fun hne => absurd hirq hne, fun hne => absurd hsdi hne, fun hne => absurd hlines hne⟩
    · exact ⟨fun hne => absurd hirq hne, fun hne => absurd hsdi hne,
        fun _ => ⟨hm, htrace, a, rest, hi, ha⟩⟩
  · obtain ⟨hirq, hsdi⟩ := (seqStep_moves h).samples
    refine ⟨fun hne => ?_, fun hne => ?_, fun hne => absurd (seqStep_frame h).linesIn hne⟩
    · have hhead := hirq hne
      exact ⟨hm, hhead, hinv.at_sampleIrq hhead⟩
    · have hhead := hsdi hne
      exact ⟨hm, hhead, hinv.at_sampleSdi hhead⟩

end Sys2Proof.Machine
end

section
/-! SUPPORT. The reset input and the values after reset (70_reset_and_hazards.md R230 to R232). -/

namespace Sys2Proof.Machine

/-- The step that applies the reset input: only the passing of time and the taking of the input from the
list come before it. -/
theorem step_reset {s : State} {rest : List Input} (hm : s.hostMoves = true)
    (hi : s.inputs = .reset :: rest) : step s = .next (s.beforeInput rest).applyReset :=
  step_host hm hi

/-- Settles O37: what `State.applyReset` does not set, the taking of the input leaves as it was. -/
theorem resetInputAbandonsTheOperation : Obligations.ResetInputAbandonsTheOperation := by
  intro s rest hm hi
  refine ⟨(s.beforeInput rest).applyReset, step_reset hm hi, ?_⟩
  simp [Lines.reset, State.reset]

/-- LINES stands at one address only (20_memory.md R61). -/
theorem ofAddr_ne_lines {a : HostAddr} (h : a ≠ 0xE) : HostReg.ofAddr a ≠ .lines := by
  intro hl
  have ha : (HostReg.ofAddr a).addr = a := HostReg.addr_ofAddr a
  rw [hl] at ha
  exact h ha.symm

/-- After reset every register but LINES holds 0x00, whatever the input levels. -/
theorem content_reset {r : HostReg} (h : r ≠ .lines) (inputs : BitVec 2) :
    State.reset.content r inputs = 0x00 := by
  cases r
  case lines => exact absurd rfl h
  all_goals rfl

/-- The output lines as LINES shows them at their reset levels: `SEL` and `FFS` high. -/
theorem linesByte_reset_low : ∀ inputs : BitVec 2,
    (linesByte .reset inputs).extractLsb' 0 4 = 0b1001 := by decide

/-- After reset no read draws a byte: each returns the content. -/
theorem readValue_reset (r : HostReg) :
    State.reset.readValue r = State.reset.content r State.reset.nextLinesIn :=
  readValue_content (mayHold_idle rfl r _)

/-- Settles O38: a read returns the content, which is 0x00 at every address but LINES'. -/
theorem resetValues : Obligations.ResetValues := by
  refine ⟨rfl, rfl, fun a ha => ?_, ?_, rfl⟩
  · rw [readValue_reset]
    exact content_reset (ofAddr_ne_lines ha) _
  · rw [readValue_reset]
    exact linesByte_reset_low _

end Sys2Proof.Machine
end
